-- ==== Sys2Proof/Word.lean ====
section
/-! DEFINITION. The machine word, the byte and the register number, with the three register names the
spec gives (00_scope R10, 10_state R21, R22). -/

namespace Sys2Proof

/-- A register, data or instruction word: 32 bits (00_scope R3, R10). -/
abbrev Word := BitVec 32

/-- One byte of data memory, or the 8-bit status register (20_memory R50, 10_state R24). -/
abbrev Byte := BitVec 8

/-- A register number. Every register field of an encoding is 4 bits wide, so no number is out of range
(10_state R29, 30_encoding R71). -/
abbrev Reg := BitVec 4

/-- R13, the stack pointer by convention only: no instruction uses it implicitly (10_state R22). -/
abbrev spReg : Reg := 13#4

/-- R14, the link register (10_state R22). -/
abbrev lrReg : Reg := 14#4

/-- R15, the program counter (10_state R22, R33). -/
abbrev pcReg : Reg := 15#4

end Sys2Proof
end

