-- ==== Sys2Proof/Syntax.lean ====
section
/-! DEFINITION. The instructions: one constructor of `Instr` per row of spec/opcode_table.json. An ALU operation and a
transfer have two rows each (immediate and register form); each Unsupported space of 30_encoding R85 is a row too. A
constructor holds every field of its row's word that the row does not fix, the ignored fields included, so that no bit of
an encoding is lost (30_encoding R82, R84). -/

namespace Sys2Proof

/-- The 16 condition codes (40_condition R101 to R116), in the order of their codes. -/
inductive Cond where
  | eq | ne | cs | cc | mi | pl | vs | vc | hi | ls | ge | lt | gt | le | al | nv
  deriving DecidableEq, Repr

/-- The 16 ALU opcodes (30_encoding R76), in the order of their numbers. -/
inductive AluOp where
  | and | eor | sub | rsb | add | adc | sbc | rsc | tst | teq | cmp | cmn | orr | mov | bic | mvn
  deriving DecidableEq, Repr

/-- One instruction. Field names: `c` the condition, `sf` the status-update flag S, `rn`, `rd`, `rm` register numbers, `rot` and
`imm8` the immediate operand 2, `i`, `p`, `u`, `w`, `l` the transfer bits I, P, U, W, L, `off12` the transfer offset field. -/
inductive Instr where
  /-- AND with an immediate operand 2 (41_alu R140, 30_encoding R74). -/
  | andImm (c : Cond) (sf : Bool) (rn rd : Reg) (rot : BitVec 4) (imm8 : Byte)
  /-- AND with a register operand 2 (41_alu R140, 30_encoding R75). -/
  | andReg (c : Cond) (sf : Bool) (rn rd rm : Reg)
  /-- EOR with an immediate operand 2 (41_alu R141, 30_encoding R74). -/
  | eorImm (c : Cond) (sf : Bool) (rn rd : Reg) (rot : BitVec 4) (imm8 : Byte)
  /-- EOR with a register operand 2 (41_alu R141, 30_encoding R75). -/
  | eorReg (c : Cond) (sf : Bool) (rn rd rm : Reg)
  /-- SUB with an immediate operand 2 (41_alu R142, 30_encoding R74). -/
  | subImm (c : Cond) (sf : Bool) (rn rd : Reg) (rot : BitVec 4) (imm8 : Byte)
  /-- SUB with a register operand 2 (41_alu R142, 30_encoding R75). -/
  | subReg (c : Cond) (sf : Bool) (rn rd rm : Reg)
  /-- RSB with an immediate operand 2 (41_alu R143, 30_encoding R74). -/
  | rsbImm (c : Cond) (sf : Bool) (rn rd : Reg) (rot : BitVec 4) (imm8 : Byte)
  /-- RSB with a register operand 2 (41_alu R143, 30_encoding R75). -/
  | rsbReg (c : Cond) (sf : Bool) (rn rd rm : Reg)
  /-- ADD with an immediate operand 2 (41_alu R144, 30_encoding R74). -/
  | addImm (c : Cond) (sf : Bool) (rn rd : Reg) (rot : BitVec 4) (imm8 : Byte)
  /-- ADD with a register operand 2 (41_alu R144, 30_encoding R75). -/
  | addReg (c : Cond) (sf : Bool) (rn rd rm : Reg)
  /-- ADC with an immediate operand 2 (41_alu R145, 30_encoding R74). -/
  | adcImm (c : Cond) (sf : Bool) (rn rd : Reg) (rot : BitVec 4) (imm8 : Byte)
  /-- ADC with a register operand 2 (41_alu R145, 30_encoding R75). -/
  | adcReg (c : Cond) (sf : Bool) (rn rd rm : Reg)
  /-- SBC with an immediate operand 2 (41_alu R146, 30_encoding R74). -/
  | sbcImm (c : Cond) (sf : Bool) (rn rd : Reg) (rot : BitVec 4) (imm8 : Byte)
  /-- SBC with a register operand 2 (41_alu R146, 30_encoding R75). -/
  | sbcReg (c : Cond) (sf : Bool) (rn rd rm : Reg)
  /-- RSC with an immediate operand 2 (41_alu R147, 30_encoding R74). -/
  | rscImm (c : Cond) (sf : Bool) (rn rd : Reg) (rot : BitVec 4) (imm8 : Byte)
  /-- RSC with a register operand 2 (41_alu R147, 30_encoding R75). -/
  | rscReg (c : Cond) (sf : Bool) (rn rd rm : Reg)
  /-- TST with an immediate operand 2 (41_alu R148, 30_encoding R74). -/
  | tstImm (c : Cond) (sf : Bool) (rn rd : Reg) (rot : BitVec 4) (imm8 : Byte)
  /-- TST with a register operand 2 (41_alu R148, 30_encoding R75). -/
  | tstReg (c : Cond) (sf : Bool) (rn rd rm : Reg)
  /-- TEQ with an immediate operand 2 (41_alu R149, 30_encoding R74). -/
  | teqImm (c : Cond) (sf : Bool) (rn rd : Reg) (rot : BitVec 4) (imm8 : Byte)
  /-- TEQ with a register operand 2 (41_alu R149, 30_encoding R75). -/
  | teqReg (c : Cond) (sf : Bool) (rn rd rm : Reg)
  /-- CMP with an immediate operand 2 (41_alu R150, 30_encoding R74). -/
  | cmpImm (c : Cond) (sf : Bool) (rn rd : Reg) (rot : BitVec 4) (imm8 : Byte)
  /-- CMP with a register operand 2 (41_alu R150, 30_encoding R75). -/
  | cmpReg (c : Cond) (sf : Bool) (rn rd rm : Reg)
  /-- CMN with an immediate operand 2 (41_alu R151, 30_encoding R74). -/
  | cmnImm (c : Cond) (sf : Bool) (rn rd : Reg) (rot : BitVec 4) (imm8 : Byte)
  /-- CMN with a register operand 2 (41_alu R151, 30_encoding R75). -/
  | cmnReg (c : Cond) (sf : Bool) (rn rd rm : Reg)
  /-- ORR with an immediate operand 2 (41_alu R152, 30_encoding R74). -/
  | orrImm (c : Cond) (sf : Bool) (rn rd : Reg) (rot : BitVec 4) (imm8 : Byte)
  /-- ORR with a register operand 2 (41_alu R152, 30_encoding R75). -/
  | orrReg (c : Cond) (sf : Bool) (rn rd rm : Reg)
  /-- MOV with an immediate operand 2 (41_alu R153, 30_encoding R74). -/
  | movImm (c : Cond) (sf : Bool) (rn rd : Reg) (rot : BitVec 4) (imm8 : Byte)
  /-- MOV with a register operand 2 (41_alu R153, 30_encoding R75). -/
  | movReg (c : Cond) (sf : Bool) (rn rd rm : Reg)
  /-- BIC with an immediate operand 2 (41_alu R154, 30_encoding R74). -/
  | bicImm (c : Cond) (sf : Bool) (rn rd : Reg) (rot : BitVec 4) (imm8 : Byte)
  /-- BIC with a register operand 2 (41_alu R154, 30_encoding R75). -/
  | bicReg (c : Cond) (sf : Bool) (rn rd rm : Reg)
  /-- MVN with an immediate operand 2 (41_alu R155, 30_encoding R74). -/
  | mvnImm (c : Cond) (sf : Bool) (rn rd : Reg) (rot : BitVec 4) (imm8 : Byte)
  /-- MVN with a register operand 2 (41_alu R155, 30_encoding R75). -/
  | mvnReg (c : Cond) (sf : Bool) (rn rd rm : Reg)
  /-- LDR with an immediate offset (43_transfer R171). -/
  | ldrImm (c : Cond) (p u w : Bool) (rn rd : Reg) (off12 : BitVec 12)
  /-- LDR with a register offset (43_transfer R171). -/
  | ldrReg (c : Cond) (p u w : Bool) (rn rd rm : Reg)
  /-- STR with an immediate offset (43_transfer R172). -/
  | strImm (c : Cond) (p u w : Bool) (rn rd : Reg) (off12 : BitVec 12)
  /-- STR with a register offset (43_transfer R172). -/
  | strReg (c : Cond) (p u w : Bool) (rn rd rm : Reg)
  /-- B (42_branch R160). -/
  | b (c : Cond) (imm24 : BitVec 24)
  /-- BL (42_branch R161). -/
  | bl (c : Cond) (imm24 : BitVec 24)
  /-- SWI (44_interrupt R190). The comment field is ignored. -/
  | swi (c : Cond) (comment : BitVec 24)
  /-- An ALU word whose register operand has a nonzero shift field (30_encoding R85, R75). -/
  | shiftedRegisterAlu (c : Cond) (op : AluOp) (sf : Bool) (rn rd : Reg) (sh : Byte) (rm : Reg)
  /-- A transfer word with B = 1 (30_encoding R85). -/
  | byteTransfer (c : Cond) (i p u w l : Bool) (rn rd : Reg) (off12 : BitVec 12)
  /-- A transfer word with B = 0, P = 0, W = 1 (30_encoding R85). -/
  | translatedTransfer (c : Cond) (i u l : Bool) (rn rd : Reg) (off12 : BitVec 12)
  /-- A transfer word whose writeback falls on R15 or on Rd (30_encoding R85). -/
  | writebackConflict (c : Cond) (i p u w l : Bool) (rn rd : Reg) (off12 : BitVec 12)
  /-- A transfer word whose register offset has a nonzero shift field (30_encoding R85). -/
  | shiftedRegisterTransfer (c : Cond) (p u w l : Bool) (rn rd : Reg) (sh : Byte) (rm : Reg)
  /-- A transfer word with R15 as its offset register (30_encoding R85). -/
  | pcOffsetRegister (c : Cond) (p u w l : Bool) (rn rd : Reg)
  /-- The block-transfer space: a branch-category word with bit 25 clear (42_branch R163). -/
  | blockTransfer (c : Cond) (rest : BitVec 25)
  /-- The coprocessor space: an interrupt-category word whose bits 25:24 are not 0b11 (44_interrupt R191). -/
  | coprocessor (c : Cond) (sub : BitVec 2) (rest : BitVec 24)
  deriving DecidableEq, Repr

/-- The condition field of an instruction (30_encoding R71). -/
def Instr.cond : Instr → Cond
  | .andImm c _ _ _ _ _ => c
  | .andReg c _ _ _ _ => c
  | .eorImm c _ _ _ _ _ => c
  | .eorReg c _ _ _ _ => c
  | .subImm c _ _ _ _ _ => c
  | .subReg c _ _ _ _ => c
  | .rsbImm c _ _ _ _ _ => c
  | .rsbReg c _ _ _ _ => c
  | .addImm c _ _ _ _ _ => c
  | .addReg c _ _ _ _ => c
  | .adcImm c _ _ _ _ _ => c
  | .adcReg c _ _ _ _ => c
  | .sbcImm c _ _ _ _ _ => c
  | .sbcReg c _ _ _ _ => c
  | .rscImm c _ _ _ _ _ => c
  | .rscReg c _ _ _ _ => c
  | .tstImm c _ _ _ _ _ => c
  | .tstReg c _ _ _ _ => c
  | .teqImm c _ _ _ _ _ => c
  | .teqReg c _ _ _ _ => c
  | .cmpImm c _ _ _ _ _ => c
  | .cmpReg c _ _ _ _ => c
  | .cmnImm c _ _ _ _ _ => c
  | .cmnReg c _ _ _ _ => c
  | .orrImm c _ _ _ _ _ => c
  | .orrReg c _ _ _ _ => c
  | .movImm c _ _ _ _ _ => c
  | .movReg c _ _ _ _ => c
  | .bicImm c _ _ _ _ _ => c
  | .bicReg c _ _ _ _ => c
  | .mvnImm c _ _ _ _ _ => c
  | .mvnReg c _ _ _ _ => c
  | .ldrImm c _ _ _ _ _ _ => c
  | .ldrReg c _ _ _ _ _ _ => c
  | .strImm c _ _ _ _ _ _ => c
  | .strReg c _ _ _ _ _ _ => c
  | .b c _ => c
  | .bl c _ => c
  | .swi c _ => c
  | .shiftedRegisterAlu c _ _ _ _ _ _ => c
  | .byteTransfer c _ _ _ _ _ _ _ _ => c
  | .translatedTransfer c _ _ _ _ _ _ => c
  | .writebackConflict c _ _ _ _ _ _ _ _ => c
  | .shiftedRegisterTransfer c _ _ _ _ _ _ _ _ => c
  | .pcOffsetRegister c _ _ _ _ _ _ => c
  | .blockTransfer c _ => c
  | .coprocessor c _ _ => c

end Sys2Proof
end

