-- ==== Sys2Proof/WellFormed.lean ====
section
/-! DEFINITION. Which terms of `Instr` stand for a word: the constraints column of spec/opcode_table.json, in the order of
30_encoding R85. A term that breaks its row's constraint has the word of another row. -/

namespace Sys2Proof

/-- P = 0 with W = 1: the TranslatedTransfer space (30_encoding R85). -/
abbrev Translated (p w : Bool) : Prop := p = false ∧ w = true

/-- A transfer that writes its base back (43_transfer R170: `wb = (P == 0) or (W == 1)`). -/
abbrev WritesBack (p w : Bool) : Prop := p = false ∨ w = true

/-- A transfer whose writeback falls on R15 or on Rd: the WritebackConflict space (30_encoding R85). -/
abbrev Conflicts (p w : Bool) (rn rd : Reg) : Prop := WritesBack p w ∧ (rn = pcReg ∨ rn = rd)

/-- The constraint of the four LDR and STR rows: neither of the two spaces above. -/
abbrev AdmittedMode (p w : Bool) (rn rd : Reg) : Prop := ¬ Translated p w ∧ ¬ Conflicts p w rn rd

/-- The instruction's fields meet the constraint of the opcode-table row its constructor names. -/
def Instr.wellFormed : Instr → Bool
  | .andImm _ _ _ _ _ _ => true
  | .andReg _ _ _ _ _ => true
  | .eorImm _ _ _ _ _ _ => true
  | .eorReg _ _ _ _ _ => true
  | .subImm _ _ _ _ _ _ => true
  | .subReg _ _ _ _ _ => true
  | .rsbImm _ _ _ _ _ _ => true
  | .rsbReg _ _ _ _ _ => true
  | .addImm _ _ _ _ _ _ => true
  | .addReg _ _ _ _ _ => true
  | .adcImm _ _ _ _ _ _ => true
  | .adcReg _ _ _ _ _ => true
  | .sbcImm _ _ _ _ _ _ => true
  | .sbcReg _ _ _ _ _ => true
  | .rscImm _ _ _ _ _ _ => true
  | .rscReg _ _ _ _ _ => true
  | .tstImm _ _ _ _ _ _ => true
  | .tstReg _ _ _ _ _ => true
  | .teqImm _ _ _ _ _ _ => true
  | .teqReg _ _ _ _ _ => true
  | .cmpImm _ _ _ _ _ _ => true
  | .cmpReg _ _ _ _ _ => true
  | .cmnImm _ _ _ _ _ _ => true
  | .cmnReg _ _ _ _ _ => true
  | .orrImm _ _ _ _ _ _ => true
  | .orrReg _ _ _ _ _ => true
  | .movImm _ _ _ _ _ _ => true
  | .movReg _ _ _ _ _ => true
  | .bicImm _ _ _ _ _ _ => true
  | .bicReg _ _ _ _ _ => true
  | .mvnImm _ _ _ _ _ _ => true
  | .mvnReg _ _ _ _ _ => true
  | .ldrImm _ p _ w rn rd _ => decide (AdmittedMode p w rn rd)
  | .ldrReg _ p _ w rn rd rm => decide (AdmittedMode p w rn rd ∧ rm ≠ pcReg)
  | .strImm _ p _ w rn rd _ => decide (AdmittedMode p w rn rd)
  | .strReg _ p _ w rn rd rm => decide (AdmittedMode p w rn rd ∧ rm ≠ pcReg)
  | .b _ _ => true
  | .bl _ _ => true
  | .swi _ _ => true
  | .shiftedRegisterAlu _ _ _ _ _ sh _ => decide (sh ≠ 0#8)
  | .byteTransfer _ _ _ _ _ _ _ _ _ => true
  | .translatedTransfer _ _ _ _ _ _ _ => true
  | .writebackConflict _ _ p _ w _ rn rd _ => decide (¬ Translated p w ∧ Conflicts p w rn rd)
  | .shiftedRegisterTransfer _ p _ w _ rn rd sh _ => decide (AdmittedMode p w rn rd ∧ sh ≠ 0#8)
  | .pcOffsetRegister _ p _ w _ rn rd => decide (AdmittedMode p w rn rd)
  | .blockTransfer _ _ => true
  | .coprocessor _ sub _ => decide (sub ≠ 0b11#2)

/-- `Instr.wellFormed`, as a proposition. -/
abbrev Instr.WellFormed (i : Instr) : Prop := i.wellFormed = true

end Sys2Proof
end

