-- ==== Sys2Proof/Decode.lean ====
section
/-! DEFINITION. The decoder and the encoder of 30_encoding. `decode` is total over all 2^32 words (R82) and reads no state (R83);
the Unsupported spaces are told apart in the order of R85. `encode` places each field back at its position (R84). The byte view
of a word is little-endian (20_memory R55). -/

namespace Sys2Proof

/-! ## Fields of a word (00_scope R9) -/

/-- Bit `n` of a word. -/
def bitOf (w : Word) (n : Nat) : Bool := w.getLsbD n

/-- `w[lo+len-1 : lo]`. -/
def fieldOf (w : Word) (lo len : Nat) : BitVec len := w.extractLsb' lo len

/-! ## Codes -/

/-- The condition code of each condition (40_condition R101 to R116). -/
def Cond.code : Cond → BitVec 4
  | .eq => 0b0000#4
  | .ne => 0b0001#4
  | .cs => 0b0010#4
  | .cc => 0b0011#4
  | .mi => 0b0100#4
  | .pl => 0b0101#4
  | .vs => 0b0110#4
  | .vc => 0b0111#4
  | .hi => 0b1000#4
  | .ls => 0b1001#4
  | .ge => 0b1010#4
  | .lt => 0b1011#4
  | .gt => 0b1100#4
  | .le => 0b1101#4
  | .al => 0b1110#4
  | .nv => 0b1111#4

/-- The condition of a code: all 16 codes are defined (40_condition R100). -/
def Cond.ofCode (b : BitVec 4) : Cond :=
  match b.toNat with
  | 0 => .eq
  | 1 => .ne
  | 2 => .cs
  | 3 => .cc
  | 4 => .mi
  | 5 => .pl
  | 6 => .vs
  | 7 => .vc
  | 8 => .hi
  | 9 => .ls
  | 10 => .ge
  | 11 => .lt
  | 12 => .gt
  | 13 => .le
  | 14 => .al
  | _ => .nv

/-- The number of each ALU opcode (30_encoding R76). -/
def AluOp.code : AluOp → BitVec 4
  | .and => 0b0000#4
  | .eor => 0b0001#4
  | .sub => 0b0010#4
  | .rsb => 0b0011#4
  | .add => 0b0100#4
  | .adc => 0b0101#4
  | .sbc => 0b0110#4
  | .rsc => 0b0111#4
  | .tst => 0b1000#4
  | .teq => 0b1001#4
  | .cmp => 0b1010#4
  | .cmn => 0b1011#4
  | .orr => 0b1100#4
  | .mov => 0b1101#4
  | .bic => 0b1110#4
  | .mvn => 0b1111#4

/-- The ALU opcode of a number: all 16 numbers are defined (30_encoding R76). -/
def AluOp.ofCode (b : BitVec 4) : AluOp :=
  match b.toNat with
  | 0 => .and
  | 1 => .eor
  | 2 => .sub
  | 3 => .rsb
  | 4 => .add
  | 5 => .adc
  | 6 => .sbc
  | 7 => .rsc
  | 8 => .tst
  | 9 => .teq
  | 10 => .cmp
  | 11 => .cmn
  | 12 => .orr
  | 13 => .mov
  | 14 => .bic
  | _ => .mvn

/-! ## The decoder -/

/-- The ALU row of an opcode in its immediate form (30_encoding R73, R74). -/
def aluImmOf (op : AluOp) (c : Cond) (sf : Bool) (rn rd : Reg) (rot : BitVec 4) (imm8 : Byte) : Instr :=
  match op with
  | .and => .andImm c sf rn rd rot imm8
  | .eor => .eorImm c sf rn rd rot imm8
  | .sub => .subImm c sf rn rd rot imm8
  | .rsb => .rsbImm c sf rn rd rot imm8
  | .add => .addImm c sf rn rd rot imm8
  | .adc => .adcImm c sf rn rd rot imm8
  | .sbc => .sbcImm c sf rn rd rot imm8
  | .rsc => .rscImm c sf rn rd rot imm8
  | .tst => .tstImm c sf rn rd rot imm8
  | .teq => .teqImm c sf rn rd rot imm8
  | .cmp => .cmpImm c sf rn rd rot imm8
  | .cmn => .cmnImm c sf rn rd rot imm8
  | .orr => .orrImm c sf rn rd rot imm8
  | .mov => .movImm c sf rn rd rot imm8
  | .bic => .bicImm c sf rn rd rot imm8
  | .mvn => .mvnImm c sf rn rd rot imm8

/-- The ALU row of an opcode in its register form with `sh` = 0 (30_encoding R73, R75). -/
def aluRegOf (op : AluOp) (c : Cond) (sf : Bool) (rn rd rm : Reg) : Instr :=
  match op with
  | .and => .andReg c sf rn rd rm
  | .eor => .eorReg c sf rn rd rm
  | .sub => .subReg c sf rn rd rm
  | .rsb => .rsbReg c sf rn rd rm
  | .add => .addReg c sf rn rd rm
  | .adc => .adcReg c sf rn rd rm
  | .sbc => .sbcReg c sf rn rd rm
  | .rsc => .rscReg c sf rn rd rm
  | .tst => .tstReg c sf rn rd rm
  | .teq => .teqReg c sf rn rd rm
  | .cmp => .cmpReg c sf rn rd rm
  | .cmn => .cmnReg c sf rn rd rm
  | .orr => .orrReg c sf rn rd rm
  | .mov => .movReg c sf rn rd rm
  | .bic => .bicReg c sf rn rd rm
  | .mvn => .mvnReg c sf rn rd rm

/-- Category 0b00 (30_encoding R73 to R76). -/
def decodeAlu (c : Cond) (w : Word) : Instr :=
  let op := AluOp.ofCode (fieldOf w 21 4)
  let sf := bitOf w 20
  let rn := fieldOf w 16 4
  let rd := fieldOf w 12 4
  let sh := fieldOf w 4 8
  let rm := fieldOf w 0 4
  if bitOf w 25 then aluImmOf op c sf rn rd (fieldOf w 8 4) (fieldOf w 0 8)
  else if sh = 0#8 then aluRegOf op c sf rn rd rm
  else .shiftedRegisterAlu c op sf rn rd sh rm

/-- `P = 0` and `W = 1`, which gives `Unsupported(TranslatedTransfer)` (43_transfer R170). -/
def isTranslated (p w : Bool) : Bool := !p && w

/-- `wb = (P == 0) or (W == 1)` (43_transfer R170). -/
def writesBack (p w : Bool) : Bool := !p || w

/-- `wb and (Rn == 15 or Rn == Rd)`, which gives `Unsupported(WritebackConflict)` (43_transfer R170). -/
def isConflict (p w : Bool) (rn rd : Reg) : Bool := writesBack p w && (rn == pcReg || rn == rd)

/-- Category 0b01 (30_encoding R77, R78): the Unsupported spaces in the order of R85, then LDR and STR. -/
def decodeTransfer (c : Cond) (x : Word) : Instr :=
  let i := bitOf x 25
  let p := bitOf x 24
  let u := bitOf x 23
  let w := bitOf x 21
  let l := bitOf x 20
  let rn := fieldOf x 16 4
  let rd := fieldOf x 12 4
  let off12 := fieldOf x 0 12
  let sh := fieldOf x 4 8
  let rm := fieldOf x 0 4
  if bitOf x 22 then .byteTransfer c i p u w l rn rd off12
  else if isTranslated p w then .translatedTransfer c i u l rn rd off12
  else if isConflict p w rn rd then .writebackConflict c i p u w l rn rd off12
  else if i then
    if sh ≠ 0#8 then .shiftedRegisterTransfer c p u w l rn rd sh rm
    else if rm = pcReg then .pcOffsetRegister c p u w l rn rd
    else if l then .ldrReg c p u w rn rd rm
    else .strReg c p u w rn rd rm
  else if l then .ldrImm c p u w rn rd off12
  else .strImm c p u w rn rd off12

/-- Category 0b10 (30_encoding R79). -/
def decodeBranch (c : Cond) (w : Word) : Instr :=
  if bitOf w 25 then
    if bitOf w 24 then .bl c (fieldOf w 0 24) else .b c (fieldOf w 0 24)
  else .blockTransfer c (fieldOf w 0 25)

/-- Category 0b11 (30_encoding R81). -/
def decodeInterrupt (c : Cond) (w : Word) : Instr :=
  let sub := fieldOf w 24 2
  if sub = 0b11#2 then .swi c (fieldOf w 0 24) else .coprocessor c sub (fieldOf w 0 24)

/-- The instruction of a word: the category map of 30_encoding R72, and total as R82 says. -/
def decode (w : Word) : Instr :=
  let c := Cond.ofCode (fieldOf w 28 4)
  if bitOf w 27 then
    if bitOf w 26 then decodeInterrupt c w else decodeBranch c w
  else
    if bitOf w 26 then decodeTransfer c w else decodeAlu c w

/-! ## The encoder -/

/-- A field at its place in a word: its bit 0 goes to bit `lo` (00_scope R9). -/
def place {n : Nat} (x : BitVec n) (lo : Nat) : Word := x.setWidth 32 <<< lo

/-- A one-bit field at its place in a word. -/
def flag (b : Bool) (lo : Nat) : Word := place (BitVec.ofBool b) lo

/-- The word of the ALU format with an immediate operand 2 (30_encoding R73, R74). -/
def packAluImm (c : Cond) (op : AluOp) (sf : Bool) (rn rd : Reg) (rot : BitVec 4) (imm8 : Byte) : Word :=
  place c.code 28 ||| place 0b00#2 26 ||| flag true 25 ||| place op.code 21 ||| flag sf 20 ||| place rn 16 ||| place rd 12 |||
    place rot 8 ||| place imm8 0

/-- The word of the ALU format with a register operand 2 (30_encoding R73, R75). -/
def packAluReg (c : Cond) (op : AluOp) (sf : Bool) (rn rd : Reg) (sh : Byte) (rm : Reg) : Word :=
  place c.code 28 ||| place 0b00#2 26 ||| flag false 25 ||| place op.code 21 ||| flag sf 20 ||| place rn 16 ||| place rd 12 |||
    place sh 4 ||| place rm 0

/-- The word of the data-transfer format (30_encoding R77). -/
def packTransfer (c : Cond) (i p u b w l : Bool) (rn rd : Reg) (off12 : BitVec 12) : Word :=
  place c.code 28 ||| place 0b01#2 26 ||| flag i 25 ||| flag p 24 ||| flag u 23 ||| flag b 22 ||| flag w 21 ||| flag l 20 |||
    place rn 16 ||| place rd 12 ||| place off12 0

/-- The offset field of a register offset (30_encoding R78): the shift field in its bits 11:4 and Rm in 3:0. -/
def regOffset (sh : Byte) (rm : Reg) : BitVec 12 := (sh.setWidth 12 <<< 4) ||| rm.setWidth 12

/-- The word of the branch format (30_encoding R79). -/
def packBranch (c : Cond) (l : Bool) (imm24 : BitVec 24) : Word :=
  place c.code 28 ||| place 0b10#2 26 ||| flag true 25 ||| flag l 24 ||| place imm24 0

/-- The word of the block-transfer space (30_encoding R79 with bit 25 clear). -/
def packBlock (c : Cond) (rest : BitVec 25) : Word :=
  place c.code 28 ||| place 0b10#2 26 ||| flag false 25 ||| place rest 0

/-- The word of the interrupt format (30_encoding R81). -/
def packInterrupt (c : Cond) (sub : BitVec 2) (rest : BitVec 24) : Word :=
  place c.code 28 ||| place 0b11#2 26 ||| place sub 24 ||| place rest 0

/-- The word of an instruction (30_encoding R84: each field at the bit positions of R71 to R81). -/
def encode : Instr → Word
  | .andImm c sf rn rd rot imm8 => packAluImm c .and sf rn rd rot imm8
  | .andReg c sf rn rd rm => packAluReg c .and sf rn rd 0#8 rm
  | .eorImm c sf rn rd rot imm8 => packAluImm c .eor sf rn rd rot imm8
  | .eorReg c sf rn rd rm => packAluReg c .eor sf rn rd 0#8 rm
  | .subImm c sf rn rd rot imm8 => packAluImm c .sub sf rn rd rot imm8
  | .subReg c sf rn rd rm => packAluReg c .sub sf rn rd 0#8 rm
  | .rsbImm c sf rn rd rot imm8 => packAluImm c .rsb sf rn rd rot imm8
  | .rsbReg c sf rn rd rm => packAluReg c .rsb sf rn rd 0#8 rm
  | .addImm c sf rn rd rot imm8 => packAluImm c .add sf rn rd rot imm8
  | .addReg c sf rn rd rm => packAluReg c .add sf rn rd 0#8 rm
  | .adcImm c sf rn rd rot imm8 => packAluImm c .adc sf rn rd rot imm8
  | .adcReg c sf rn rd rm => packAluReg c .adc sf rn rd 0#8 rm
  | .sbcImm c sf rn rd rot imm8 => packAluImm c .sbc sf rn rd rot imm8
  | .sbcReg c sf rn rd rm => packAluReg c .sbc sf rn rd 0#8 rm
  | .rscImm c sf rn rd rot imm8 => packAluImm c .rsc sf rn rd rot imm8
  | .rscReg c sf rn rd rm => packAluReg c .rsc sf rn rd 0#8 rm
  | .tstImm c sf rn rd rot imm8 => packAluImm c .tst sf rn rd rot imm8
  | .tstReg c sf rn rd rm => packAluReg c .tst sf rn rd 0#8 rm
  | .teqImm c sf rn rd rot imm8 => packAluImm c .teq sf rn rd rot imm8
  | .teqReg c sf rn rd rm => packAluReg c .teq sf rn rd 0#8 rm
  | .cmpImm c sf rn rd rot imm8 => packAluImm c .cmp sf rn rd rot imm8
  | .cmpReg c sf rn rd rm => packAluReg c .cmp sf rn rd 0#8 rm
  | .cmnImm c sf rn rd rot imm8 => packAluImm c .cmn sf rn rd rot imm8
  | .cmnReg c sf rn rd rm => packAluReg c .cmn sf rn rd 0#8 rm
  | .orrImm c sf rn rd rot imm8 => packAluImm c .orr sf rn rd rot imm8
  | .orrReg c sf rn rd rm => packAluReg c .orr sf rn rd 0#8 rm
  | .movImm c sf rn rd rot imm8 => packAluImm c .mov sf rn rd rot imm8
  | .movReg c sf rn rd rm => packAluReg c .mov sf rn rd 0#8 rm
  | .bicImm c sf rn rd rot imm8 => packAluImm c .bic sf rn rd rot imm8
  | .bicReg c sf rn rd rm => packAluReg c .bic sf rn rd 0#8 rm
  | .mvnImm c sf rn rd rot imm8 => packAluImm c .mvn sf rn rd rot imm8
  | .mvnReg c sf rn rd rm => packAluReg c .mvn sf rn rd 0#8 rm
  | .ldrImm c p u w rn rd off12 => packTransfer c false p u false w true rn rd off12
  | .ldrReg c p u w rn rd rm => packTransfer c true p u false w true rn rd (regOffset 0#8 rm)
  | .strImm c p u w rn rd off12 => packTransfer c false p u false w false rn rd off12
  | .strReg c p u w rn rd rm => packTransfer c true p u false w false rn rd (regOffset 0#8 rm)
  | .b c imm24 => packBranch c false imm24
  | .bl c imm24 => packBranch c true imm24
  | .swi c comment => packInterrupt c 0b11#2 comment
  | .shiftedRegisterAlu c op sf rn rd sh rm => packAluReg c op sf rn rd sh rm
  | .byteTransfer c i p u w l rn rd off12 => packTransfer c i p u true w l rn rd off12
  | .translatedTransfer c i u l rn rd off12 => packTransfer c i false u false true l rn rd off12
  | .writebackConflict c i p u w l rn rd off12 => packTransfer c i p u false w l rn rd off12
  | .shiftedRegisterTransfer c p u w l rn rd sh rm => packTransfer c true p u false w l rn rd (regOffset sh rm)
  | .pcOffsetRegister c p u w l rn rd => packTransfer c true p u false w l rn rd (regOffset 0#8 pcReg)
  | .blockTransfer c rest => packBlock c rest
  | .coprocessor c sub rest => packInterrupt c sub rest

/-! ## The byte view (20_memory R55) -/

/-- Byte `k` of a word, `k` = 0..3: `w[8k+7 : 8k]`. -/
def byteOfWord (w : Word) (k : Nat) : Byte := w.extractLsb' (8 * k) 8

/-- The word of its four bytes, byte 0 first. -/
def wordOfBytes (b0 b1 b2 b3 : Byte) : Word := place b0 0 ||| place b1 8 ||| place b2 16 ||| place b3 24

/-- Why a list of bytes gives no instruction. -/
inductive DecodeError where
  /-- Fewer than the four bytes of an instruction word (30_encoding R70). -/
  | truncated
  deriving DecidableEq, Repr

/-- The instruction at the front of a list of bytes, with the bytes after it: each is exactly four bytes (30_encoding R70). -/
def decodeBytes : List Byte → Except DecodeError (Instr × List Byte)
  | b0 :: b1 :: b2 :: b3 :: rest => .ok (decode (wordOfBytes b0 b1 b2 b3), rest)
  | _ => .error .truncated

/-- The four bytes of an instruction, byte 0 first. -/
def encodeBytes (i : Instr) : List Byte :=
  [byteOfWord (encode i) 0, byteOfWord (encode i) 1, byteOfWord (encode i) 2, byteOfWord (encode i) 3]

/-- The instruction the decoder reads from `w`'s low `nbits` bits, as spec/opcode_table.json numbers them: the 32-bit word is laid
out in its four bytes and given to `decodeBytes`. No instruction is longer than 32 bits (30_encoding R70). -/
def decodeTableWord (nbits w : Nat) : Option Instr :=
  if nbits ≤ 32 then
    let x : Word := BitVec.ofNat 32 (w % 2 ^ nbits)
    match decodeBytes [byteOfWord x 0, byteOfWord x 1, byteOfWord x 2, byteOfWord x 3] with
    | .ok (i, _) => some i
    | .error _ => none
  else none

end Sys2Proof
end

