-- ==== Sys2Proof/Config.lean ====
section
/-! DEFINITION. The three open parameters of 00_scope R8. The spec gives them a range and no value, and says that the model
takes each of them as an argument, so they are the fields of a record and every statement quantifies over it. -/

namespace Sys2Proof

/-- The configuration that the host supplies when it creates a machine (00_scope R8, 70_reset_and_hazards R254). -/
structure Config where
  /-- `STORE_CAPACITY`: how many instruction words the Instruction Store holds. -/
  storeCapacity : Nat
  /-- `DATA_MEM_BYTES`: the size of the data memory in bytes. -/
  dataMemBytes : Nat
  /-- `INT_VECTOR`: the byte address of the interrupt handler. -/
  intVector : Word
  deriving DecidableEq, Repr

/-- The ranges 00_scope R8 gives the three parameters. -/
abbrev Config.Legal (c : Config) : Prop :=
  1 ≤ c.storeCapacity ∧ c.storeCapacity ≤ 2 ^ 30 ∧
  4 ≤ c.dataMemBytes ∧ c.dataMemBytes ≤ 2 ^ 32 ∧ c.dataMemBytes % 4 = 0 ∧
  c.intVector.toNat % 4 = 0

/-- DESIGN CHOICE (log entry 1): the values of the last column of 00_scope R8's table, which the spec's own test vectors use.
`State.reset` carries them, and no statement rests on them. -/
def Config.ofVectors : Config :=
  { storeCapacity := 64, dataMemBytes := 256, intVector := 0x00000008#32 }

end Sys2Proof
end

