-- ==== Sys2Proof/Machine/State.lean ====
section
/-! DEFINITION. The state of one CORE instance, as 10_state R20 lists it, and its value right after creation (R35). -/

namespace Sys2Proof.Machine

/-- The fault codes of 60_exceptions R222. A `Fault` of this machine is recorded in `run_state` (45_driver R206), so the step that raises one
answers a next state; no step answers `Host.Outcome.fault` (log entry 3). -/
inductive Fault where
  /-- Code 1, raised by the driver: the pc is not word-aligned at fetch. Safe: the spec's own stop (92_eei_decisions D11). -/
  | fetchMisaligned
  /-- Code 2, raised by LDR and STR: the data address is not word-aligned. Safe: the spec's own stop (D16). -/
  | dataMisaligned
  /-- Code 3, raised by LDR and STR: the aligned data address is past the data memory. Safe: the spec's own stop (D16). -/
  | dataOutOfRange
  /-- Code 4, raised by the host's `load`: the Instruction Store is full. Safe: the spec's own stop (D21). -/
  | storeOverflow
  /-- Code 5, raised by the host's `load` outside `Loading`. Safe: the spec's own stop (D22). -/
  | loadAfterRun
  deriving DecidableEq, Repr

/-- The number of each fault code (60_exceptions R222). -/
def Fault.code : Fault → Nat
  | .fetchMisaligned => 1
  | .dataMisaligned => 2
  | .dataOutOfRange => 3
  | .storeOverflow => 4
  | .loadAfterRun => 5

/-- The reasons of the terminal state `Unsupported(reason)` (60_exceptions R223). -/
inductive UnsupportedReason where
  /-- Reason 1: a register operand or offset with a nonzero shift field. -/
  | shiftedRegister
  /-- Reason 2: a transfer with B = 1. -/
  | byteTransfer
  /-- Reason 3: a transfer with P = 0 and W = 1. -/
  | translatedTransfer
  /-- Reason 4: a transfer whose writeback falls on R15 or on Rd. -/
  | writebackConflict
  /-- Reason 5: a transfer with R15 as offset register. -/
  | pcOffsetRegister
  /-- Reason 6: the block-transfer space. -/
  | blockTransfer
  /-- Reason 7: the coprocessor space. -/
  | coprocessor
  deriving DecidableEq, Repr

/-- The number of each reason (60_exceptions R223). -/
def UnsupportedReason.number : UnsupportedReason → Nat
  | .shiftedRegister => 1
  | .byteTransfer => 2
  | .translatedTransfer => 3
  | .writebackConflict => 4
  | .pcOffsetRegister => 5
  | .blockTransfer => 6
  | .coprocessor => 7

/-- Why the model itself gives an instruction no meaning. -/
inductive Refusal where
  /-- An arm of `exec` without a meaning. Safe: the model stops. No arm answers it: every instruction has its meaning. -/
  | notModelled (mnemonic : String)
  deriving DecidableEq, Repr

/-- The Execution Driver's state (10_state R32). The last three are terminal. -/
inductive RunState where
  | loading
  | running
  | halted
  | faulted (code : Fault)
  | unsupported (reason : UnsupportedReason)
  deriving DecidableEq, Repr

/-- One CORE instance (10_state R20). -/
structure State where
  /-- The configuration, which nothing changes (10_state R20, log entry 1). -/
  cfg : Config
  /-- `x[0..15]` (10_state R21); `x[15]` is the pc (R33). -/
  regs : Vector Word 16
  /-- `Status` (10_state R24). -/
  status : Byte
  /-- `SavedStatus` (10_state R28). -/
  savedStatus : Byte
  /-- The loaded words `Store[0..count-1]`, in order; `count` is the list's length (10_state R30, log entry 4). -/
  store : List Word
  /-- `DMem`: the bytes that are not 0, at rising addresses (20_memory R50). -/
  dmem : List Host.Cell
  /-- `run_state` (10_state R32). -/
  runState : RunState
  deriving DecidableEq, Repr

/-- The type of an instruction's answer. -/
abbrev Answer := Host.Outcome State Fault Refusal

/-- An instance right after its creation with a configuration (70_reset_and_hazards R250, 10_state R35). -/
def State.create (cfg : Config) : State :=
  { cfg := cfg
    regs := Vector.replicate 16 0#32
    status := 0#8
    savedStatus := 0#8
    store := []
    dmem := []
    runState := .loading }

/-- The state after reset: `create` with the configuration of the spec's vectors (log entry 1). -/
def State.reset : State := State.create Config.ofVectors

end Sys2Proof.Machine
end

