-- ==== Sys2Proof/Machine/Ops.lean ====
section
/-! DEFINITION. The named operations over registers, data memory and the run state, instruction fetch, taking the software
interrupt and returning from it. -/

namespace Sys2Proof.Machine

/-! ## Registers (10_state R21, R29, R33) -/

/-- `read(index)`: register `i` as it stands (10_state R29). -/
def State.readReg (s : State) (i : Reg) : Word := s.regs[i.toNat]'i.isLt

/-- `write(index, word)`: no side effect beyond the addressed slot (10_state R29). No register is hard-wired (R21). -/
def State.writeReg (s : State) (i : Reg) (v : Word) : State := { s with regs := s.regs.set i.toNat v i.isLt }

/-- The program counter is `x[15]` (10_state R33). While an instruction executes it is `A`, the instruction's own address. -/
def State.pc (s : State) : Word := s.readReg pcReg

/-- `pc <- target` (00_scope R11). -/
def State.setPc (s : State) (target : Word) : State := s.writeReg pcReg target

/-- `pc <- A + 4` (mod 2^32), the end of an instruction that does not write R15 (10_state R33). -/
def State.advance (s : State) : State := s.setPc (s.pc + 4#32)

/-- `Status <- v`. -/
def State.setStatus (s : State) (v : Byte) : State := { s with status := v }

/-- `SavedStatus <- v`. -/
def State.setSaved (s : State) (v : Byte) : State := { s with savedStatus := v }

/-- The data memory replaced. -/
def State.setMem (s : State) (m : List Host.Cell) : State := { s with dmem := m }

/-- `run_state <- r`. -/
def State.setRun (s : State) (r : RunState) : State := { s with runState := r }

/-- `count`, the number of loaded words (10_state R30). -/
def State.count (s : State) : Nat := s.store.length

/-! ## Data memory (20_memory R50, R53, R54)

A list of the bytes that are not 0, at strictly rising addresses; every address it does not list reads 0 (10_state R35). -/

/-- What an unlisted address reads as (10_state R35). -/
def Memory.default : Byte := 0#8

/-- Every address of the list is above `a`. -/
def Memory.above (a : Nat) : List Host.Cell → Bool
  | [] => true
  | (b, _) :: _ => decide (a < b)

/-- The canonical form: addresses strictly rising, no entry equal to the default. -/
def Memory.wf : List Host.Cell → Bool
  | [] => true
  | (a, v) :: m => decide (v ≠ Memory.default) && Memory.above a m && Memory.wf m

/-- One byte. -/
def Memory.readByte : List Host.Cell → Nat → Byte
  | [], _ => Memory.default
  | (b, v) :: m, a => if a = b then v else Memory.readByte m a

/-- An entry for `a`, or none if the value is the default. -/
def Memory.entry (a : Nat) (v : Byte) (m : List Host.Cell) : List Host.Cell :=
  if v = Memory.default then m else (a, v) :: m

/-- One byte written, in canonical form. -/
def Memory.writeByte : List Host.Cell → Nat → Byte → List Host.Cell
  | [], a, v => Memory.entry a v []
  | (b, x) :: m, a, v =>
    if a < b then Memory.entry a v ((b, x) :: m)
    else if a = b then Memory.entry a v m
    else (b, x) :: Memory.writeByte m a v

/-- `MemRead(addr, 4)`: little-endian (20_memory R53). -/
def Memory.readWord (m : List Host.Cell) (a : Nat) : Word :=
  wordOfBytes (Memory.readByte m a) (Memory.readByte m (a + 1)) (Memory.readByte m (a + 2)) (Memory.readByte m (a + 3))

/-- `MemWrite(addr, 4, v)`: byte `k` goes to `addr + k` (20_memory R54). -/
def Memory.writeWord (m : List Host.Cell) (a : Nat) (v : Word) : List Host.Cell :=
  Memory.writeByte
    (Memory.writeByte
      (Memory.writeByte
        (Memory.writeByte m a (byteOfWord v 0)) (a + 1) (byteOfWord v 1)) (a + 2) (byteOfWord v 2)) (a + 3) (byteOfWord v 3)

/-! ## Ending a run (45_driver R205, R206) -/

/-- `raise Fault(code)`: nothing but `run_state` changes, the pc stays at `A` (45_driver R206). -/
def State.raiseFault (s : State) (f : Fault) : State := s.setRun (.faulted f)

/-- `raise Unsupported(reason)`: nothing but `run_state` changes, the pc stays at `A` (45_driver R205). -/
def State.raiseUnsupported (s : State) (r : UnsupportedReason) : State := s.setRun (.unsupported r)

/-! ## The software interrupt and its return -/

/-- The bit of `Status` that is I, the interrupt-disable bit (10_state R24). -/
def interruptDisable : Byte := 0b00001000#8

/-- Taking the software interrupt (44_interrupt R190): `Status` is saved as it was before I is set, R14 gets the return address
`A + 4`, I becomes 1, the pc goes to `INT_VECTOR`. -/
def State.takeInterrupt (s : State) : State :=
  (((s.setSaved s.status).setStatus (s.status ||| interruptDisable)).writeReg lrReg (s.pc + 4#32)).setPc s.cfg.intVector

/-- The return (41_alu R124, 60_exceptions R226): all 8 bits of `Status` come back from `SavedStatus` and the pc goes to the target. -/
def State.returnTo (s : State) (target : Word) : State := (s.setStatus s.savedStatus).setPc target

/-! ## Fetch (45_driver R200, R201) -/

/-- What the driver's fetch finds. -/
inductive Fetched where
  /-- The pc is not word-aligned. -/
  | misaligned
  /-- The fetch index is at or beyond `count`. -/
  | exhausted
  /-- The word at the pc. -/
  | word (w : Word)
  deriving DecidableEq, Repr

/-- The fetch index `uint(x[15]) >> 2` (45_driver R200). -/
def State.fetchIndex (s : State) : Nat := s.pc.toNat / 4

/-- The alignment check comes before the halt check (45_driver R201, 60_exceptions R224). -/
def State.fetch (s : State) : Fetched :=
  if s.pc.toNat % 4 ≠ 0 then .misaligned
  else
    match s.store[s.fetchIndex]? with
    | none => .exhausted
    | some w => .word w

/-- The halting step changes nothing but `run_state` (45_driver R201). -/
def State.halt (s : State) : State := s.setRun .halted

end Sys2Proof.Machine
end

