-- ==== Sys2Proof/Machine/Flags.lean ====
section
/-! DEFINITION. The status register's bits and flag primitives (10_state R24, R27), the condition evaluator (40_condition) and
the flag computations of the ALU (41_alu R122, R123). -/

namespace Sys2Proof.Machine

/-- The named single bits of `Status` (10_state R24). -/
inductive Flag where
  | N | Z | C | V | I | F
  deriving DecidableEq, Repr

/-- The place of each bit (10_state R24). -/
def Flag.bit : Flag → Nat
  | .N => 7
  | .Z => 6
  | .C => 5
  | .V => 4
  | .I => 3
  | .F => 2

/-- `flagIsSet(f)` (10_state R27). -/
def flagIsSet (f : Flag) (st : Byte) : Bool := st.getLsbD f.bit

/-- The mode field M, bits 1:0 of `Status` (10_state R24). -/
def modeOf (st : Byte) : BitVec 2 := st.extractLsb' 0 2

/-- `setFlag(f)`: `Status.f <- 1` (10_state R27). -/
def setFlag (f : Flag) (st : Byte) : Byte := st ||| (1#8 <<< f.bit)

/-- `clearFlag(f)`: `Status.f <- 0` (10_state R27). -/
def clearFlag (f : Flag) (st : Byte) : Byte := st &&& ~~~(1#8 <<< f.bit)

/-- `Status.f <- b`. -/
def putFlag (f : Flag) (b : Bool) (st : Byte) : Byte := if b then setFlag f st else clearFlag f st

/-! ## The condition evaluator -/

/-- `shouldExecute(cond, Status)`: the 16 rows of 40_condition R101 to R116. -/
def condHolds (c : Cond) (st : Byte) : Bool :=
  let n := flagIsSet .N st
  let z := flagIsSet .Z st
  let cy := flagIsSet .C st
  let v := flagIsSet .V st
  match c with
  | .eq => z
  | .ne => !z
  | .cs => cy
  | .cc => !cy
  | .mi => n
  | .pl => !n
  | .vs => v
  | .vc => !v
  | .hi => cy && !z
  | .ls => !cy || z
  | .ge => n == v
  | .lt => n != v
  | .gt => !z && (n == v)
  | .le => z || (n != v)
  | .al => true
  | .nv => false

/-- Evaluate and dispatch (45_driver R203, R204): an executor runs if the condition holds on `Status` as it stands before the
instruction; otherwise the instruction is skipped and only the pc moves. -/
def whenHolds (c : Cond) (executed : State) (s : State) : Answer :=
  if condHolds c s.status then .next executed else .next s.advance

/-! ## Results and flags of the ALU -/

/-- A result with its carry and overflow, which only arithmetic operations have (41_alu R121). -/
structure AluResult where
  /-- The 32-bit result. -/
  res : Word
  /-- C and V, for an arithmetic operation. -/
  cv : Option (Bool × Bool)
  deriving DecidableEq, Repr

/-- The result of a logical operation: C and V are not touched (41_alu R125). -/
def logical (res : Word) : AluResult := { res := res, cv := none }

/-- `AddWithCarry(x, y, cin)` by the mathematical sums of 41_alu R123. -/
def addWithCarry (x y : Word) (cin : Bool) : AluResult :=
  let usum : Nat := x.toNat + y.toNat + cin.toNat
  let ssum : Int := x.toInt + y.toInt + cin.toNat
  let res : Word := BitVec.ofNat 32 usum
  { res := res, cv := some (decide (2 ^ 32 ≤ usum), decide (res.toInt ≠ ssum)) }

/-- N and Z of a result (41_alu R122). -/
def putNZ (res : Word) (st : Byte) : Byte := putFlag .Z (res == 0#32) (putFlag .N res.msb st)

/-- C and V of an arithmetic result; a logical one leaves them (41_alu R121, R123, R125). -/
def putCV (cv : Option (Bool × Bool)) (st : Byte) : Byte :=
  match cv with
  | none => st
  | some (c, v) => putFlag .V v (putFlag .C c st)

/-- The status that an operation with S = 1 leaves: N and Z, and C and V if it is arithmetic. I, F and M stay. -/
def AluResult.statusAfter (r : AluResult) (st : Byte) : Byte := putCV r.cv (putNZ r.res st)

end Sys2Proof.Machine
end

