-- ==== Sys2Proof/Machine/Operands.lean ====
section
/-! DEFINITION. Every operand form: register operands, the two forms of operand 2, the two transfer offsets with the
effective-address sequence, and the branch offset. -/

namespace Sys2Proof.Machine

/-- `opnd(i)`: R15 reads as `A + 8` (mod 2^32), any other register as it stands (10_state R23). -/
def State.opnd (s : State) (i : Reg) : Word := if i = pcReg then s.pc + 8#32 else s.readReg i

/-- The immediate operand 2, `ROR32(zext_32(imm8), 2*rot)` (30_encoding R74). -/
def immOperand (rot : BitVec 4) (imm8 : Byte) : Word := (imm8.setWidth 32).rotateRight (2 * rot.toNat)

/-- The carry-in `Status.C` (41_alu R120). -/
def State.carryIn (s : State) : Bool := flagIsSet .C s.status

/-! ## Transfers (30_encoding R78, 43_transfer R170) -/

/-- The offset field of a transfer: 12 bits (I = 0) or a register without shift (I = 1). -/
inductive OffsetForm where
  | imm (off12 : BitVec 12)
  | reg (rm : Reg)
  deriving DecidableEq, Repr

/-- The offset's value. A register offset is `x[Rm]`; `Rm` = 15 is turned away before it is read (30_encoding R78). -/
def OffsetForm.value (o : OffsetForm) (s : State) : Word :=
  match o with
  | .imm off12 => off12.setWidth 32
  | .reg rm => s.readReg rm

/-- The Unsupported checks of 43_transfer R170 on the fields a transfer's row leaves free, in that rule's order. The checks of
B and of the shift field are the decoder's (30_encoding R85): an LDR or STR has B = 0 and no shift field. -/
def transferRefused (p w : Bool) (rn rd : Reg) (o : OffsetForm) : Option UnsupportedReason :=
  if isTranslated p w then some .translatedTransfer
  else if isConflict p w rn rd then some .writebackConflict
  else
    match o with
    | .imm _ => none
    | .reg rm => if rm = pcReg then some .pcOffsetRegister else none

/-- `offaddr = (U == 1) ? base + offset : base - offset`, with `base = opnd(Rn)`. -/
def offsetAddress (u : Bool) (rn : Reg) (o : OffsetForm) (s : State) : Word :=
  if u then s.opnd rn + o.value s else s.opnd rn - o.value s

/-- `addr = (P == 1) ? offaddr : base`. -/
def accessAddress (p u : Bool) (rn : Reg) (o : OffsetForm) (s : State) : Word :=
  if p then offsetAddress u rn o s else s.opnd rn

/-- The fault of a word access: alignment first, then the range (20_memory R57, R58; 60_exceptions R224). -/
def accessFault (cfg : Config) (addr : Word) : Option Fault :=
  if addr.toNat % 4 ≠ 0 then some .dataMisaligned
  else if cfg.dataMemBytes < addr.toNat + 4 then some .dataOutOfRange
  else none

/-- The base register after the access: `if wb: x[Rn] <- offaddr`. -/
def State.writeBack (s : State) (p w : Bool) (rn : Reg) (offaddr : Word) : State :=
  if writesBack p w then s.writeReg rn offaddr else s

/-! ## Branches -/

/-- `sext_32(imm24 : 0b00)` (30_encoding R80). -/
def branchOffset (imm24 : BitVec 24) : Word := (imm24 ++ 0b00#2).signExtend 32

/-- `A + 8 + offset` (mod 2^32) (42_branch R162). -/
def State.branchTarget (s : State) (imm24 : BitVec 24) : Word := s.pc + 8#32 + branchOffset imm24

end Sys2Proof.Machine
end

