-- ==== Sys2Proof/Machine/Alu.lean ====
section
/-! DEFINITION. The common execute sequence of the ALU (41_alu R121, R124): what every data-processing instruction does with its result. -/

namespace Sys2Proof.Machine

/-- An operation that writes Rd (41_alu R121). With Rd = 15 the result is the next pc, as it is, and S = 1 restores `Status` from
`SavedStatus` (R124); otherwise Rd is written, S = 1 sets the flags, and the pc advances. -/
def aluWrite (sf : Bool) (rd : Reg) (r : AluResult) (s : State) : State :=
  if rd = pcReg then
    if sf then s.returnTo r.res else s.setPc r.res
  else
    ((s.writeReg rd r.res).setStatus (if sf then r.statusAfter s.status else s.status)).setPc (s.pc + 4#32)

/-- TST, TEQ, CMP, CMN: the result is discarded and no register is written, whatever the Rd field (41_alu R121, R124, R127). With
S = 0 only the pc moves (R126). -/
def aluTest (sf : Bool) (r : AluResult) (s : State) : State :=
  (s.setStatus (if sf then r.statusAfter s.status else s.status)).advance

end Sys2Proof.Machine
end

