-- ==== Sys2Proof/Machine/Arithmetic.lean ====
section
/-! DEFINITION. The arithmetic ALU instructions that write Rd: SUB, RSB, ADD, ADC, SBC, RSC (41_alu R142 to R147). -/

namespace Sys2Proof.Machine

/-- `F_SUB`: op1 − op2 (41_alu R142). -/
def resSub (x y : Word) : AluResult := addWithCarry x (~~~y) true

/-- SUB, immediate operand 2 (41_alu R142). -/
def execSubImm (c : Cond) (sf : Bool) (rn rd : Reg) (rot : BitVec 4) (imm8 : Byte) (s : State) : Answer :=
  whenHolds c (aluWrite sf rd (resSub (s.opnd rn) (immOperand rot imm8)) s) s

/-- SUB, register operand 2 (41_alu R142). -/
def execSubReg (c : Cond) (sf : Bool) (rn rd rm : Reg) (s : State) : Answer :=
  whenHolds c (aluWrite sf rd (resSub (s.opnd rn) (s.opnd rm)) s) s

/-- `F_RSB`: op2 − op1 (41_alu R143). -/
def resRsb (x y : Word) : AluResult := addWithCarry y (~~~x) true

/-- RSB, immediate operand 2 (41_alu R143). -/
def execRsbImm (c : Cond) (sf : Bool) (rn rd : Reg) (rot : BitVec 4) (imm8 : Byte) (s : State) : Answer :=
  whenHolds c (aluWrite sf rd (resRsb (s.opnd rn) (immOperand rot imm8)) s) s

/-- RSB, register operand 2 (41_alu R143). -/
def execRsbReg (c : Cond) (sf : Bool) (rn rd rm : Reg) (s : State) : Answer :=
  whenHolds c (aluWrite sf rd (resRsb (s.opnd rn) (s.opnd rm)) s) s

/-- `F_ADD`: op1 + op2 (41_alu R144). -/
def resAdd (x y : Word) : AluResult := addWithCarry x y false

/-- ADD, immediate operand 2 (41_alu R144). -/
def execAddImm (c : Cond) (sf : Bool) (rn rd : Reg) (rot : BitVec 4) (imm8 : Byte) (s : State) : Answer :=
  whenHolds c (aluWrite sf rd (resAdd (s.opnd rn) (immOperand rot imm8)) s) s

/-- ADD, register operand 2 (41_alu R144). -/
def execAddReg (c : Cond) (sf : Bool) (rn rd rm : Reg) (s : State) : Answer :=
  whenHolds c (aluWrite sf rd (resAdd (s.opnd rn) (s.opnd rm)) s) s

/-- `F_ADC`: op1 + op2 + C (41_alu R145). -/
def resAdc (x y : Word) (c : Bool) : AluResult := addWithCarry x y c

/-- ADC, immediate operand 2 (41_alu R145). -/
def execAdcImm (c : Cond) (sf : Bool) (rn rd : Reg) (rot : BitVec 4) (imm8 : Byte) (s : State) : Answer :=
  whenHolds c (aluWrite sf rd (resAdc (s.opnd rn) (immOperand rot imm8) s.carryIn) s) s

/-- ADC, register operand 2 (41_alu R145). -/
def execAdcReg (c : Cond) (sf : Bool) (rn rd rm : Reg) (s : State) : Answer :=
  whenHolds c (aluWrite sf rd (resAdc (s.opnd rn) (s.opnd rm) s.carryIn) s) s

/-- `F_SBC`: op1 − op2 − (1 − C) (41_alu R146). -/
def resSbc (x y : Word) (c : Bool) : AluResult := addWithCarry x (~~~y) c

/-- SBC, immediate operand 2 (41_alu R146). -/
def execSbcImm (c : Cond) (sf : Bool) (rn rd : Reg) (rot : BitVec 4) (imm8 : Byte) (s : State) : Answer :=
  whenHolds c (aluWrite sf rd (resSbc (s.opnd rn) (immOperand rot imm8) s.carryIn) s) s

/-- SBC, register operand 2 (41_alu R146). -/
def execSbcReg (c : Cond) (sf : Bool) (rn rd rm : Reg) (s : State) : Answer :=
  whenHolds c (aluWrite sf rd (resSbc (s.opnd rn) (s.opnd rm) s.carryIn) s) s

/-- `F_RSC`: op2 − op1 − (1 − C) (41_alu R147). -/
def resRsc (x y : Word) (c : Bool) : AluResult := addWithCarry y (~~~x) c

/-- RSC, immediate operand 2 (41_alu R147). -/
def execRscImm (c : Cond) (sf : Bool) (rn rd : Reg) (rot : BitVec 4) (imm8 : Byte) (s : State) : Answer :=
  whenHolds c (aluWrite sf rd (resRsc (s.opnd rn) (immOperand rot imm8) s.carryIn) s) s

/-- RSC, register operand 2 (41_alu R147). -/
def execRscReg (c : Cond) (sf : Bool) (rn rd rm : Reg) (s : State) : Answer :=
  whenHolds c (aluWrite sf rd (resRsc (s.opnd rn) (s.opnd rm) s.carryIn) s) s

end Sys2Proof.Machine
end

