-- ==== Sys2Proof/Machine/Branch.lean ====
section
/-! DEFINITION. The branch instructions (42_branch). -/

namespace Sys2Proof.Machine

/-- B: only the pc changes (42_branch R160). -/
def execB (c : Cond) (imm24 : BitVec 24) (s : State) : Answer :=
  whenHolds c (s.setPc (s.branchTarget imm24)) s

/-- BL: R14 gets the address of the next word, and the pc the target (42_branch R161). -/
def execBl (c : Cond) (imm24 : BitVec 24) (s : State) : Answer :=
  whenHolds c ((s.writeReg lrReg (s.pc + 4#32)).setPc (s.branchTarget imm24)) s

end Sys2Proof.Machine
end

