-- ==== Sys2Proof/Machine/Compare.lean ====
section
/-! DEFINITION. The ALU instructions that write no register: TST, TEQ, CMP, CMN (41_alu R148 to R151). -/

namespace Sys2Proof.Machine

/-- `F_TST`: op1 AND op2, discarded (41_alu R148). -/
def resTst (x y : Word) : AluResult := logical (x &&& y)

/-- TST, immediate operand 2 (41_alu R148). -/
def execTstImm (c : Cond) (sf : Bool) (rn _rd : Reg) (rot : BitVec 4) (imm8 : Byte) (s : State) : Answer :=
  whenHolds c (aluTest sf (resTst (s.opnd rn) (immOperand rot imm8)) s) s

/-- TST, register operand 2 (41_alu R148). -/
def execTstReg (c : Cond) (sf : Bool) (rn _rd rm : Reg) (s : State) : Answer :=
  whenHolds c (aluTest sf (resTst (s.opnd rn) (s.opnd rm)) s) s

/-- `F_TEQ`: op1 XOR op2, discarded (41_alu R149). -/
def resTeq (x y : Word) : AluResult := logical (x ^^^ y)

/-- TEQ, immediate operand 2 (41_alu R149). -/
def execTeqImm (c : Cond) (sf : Bool) (rn _rd : Reg) (rot : BitVec 4) (imm8 : Byte) (s : State) : Answer :=
  whenHolds c (aluTest sf (resTeq (s.opnd rn) (immOperand rot imm8)) s) s

/-- TEQ, register operand 2 (41_alu R149). -/
def execTeqReg (c : Cond) (sf : Bool) (rn _rd rm : Reg) (s : State) : Answer :=
  whenHolds c (aluTest sf (resTeq (s.opnd rn) (s.opnd rm)) s) s

/-- `F_CMP`: op1 − op2, discarded (41_alu R150). -/
def resCmp (x y : Word) : AluResult := addWithCarry x (~~~y) true

/-- CMP, immediate operand 2 (41_alu R150). -/
def execCmpImm (c : Cond) (sf : Bool) (rn _rd : Reg) (rot : BitVec 4) (imm8 : Byte) (s : State) : Answer :=
  whenHolds c (aluTest sf (resCmp (s.opnd rn) (immOperand rot imm8)) s) s

/-- CMP, register operand 2 (41_alu R150). -/
def execCmpReg (c : Cond) (sf : Bool) (rn _rd rm : Reg) (s : State) : Answer :=
  whenHolds c (aluTest sf (resCmp (s.opnd rn) (s.opnd rm)) s) s

/-- `F_CMN`: op1 + op2, discarded (41_alu R151). -/
def resCmn (x y : Word) : AluResult := addWithCarry x y false

/-- CMN, immediate operand 2 (41_alu R151). -/
def execCmnImm (c : Cond) (sf : Bool) (rn _rd : Reg) (rot : BitVec 4) (imm8 : Byte) (s : State) : Answer :=
  whenHolds c (aluTest sf (resCmn (s.opnd rn) (immOperand rot imm8)) s) s

/-- CMN, register operand 2 (41_alu R151). -/
def execCmnReg (c : Cond) (sf : Bool) (rn _rd rm : Reg) (s : State) : Answer :=
  whenHolds c (aluTest sf (resCmn (s.opnd rn) (s.opnd rm)) s) s

end Sys2Proof.Machine
end

