-- ==== Sys2Proof/Machine/Interrupt.lean ====
section
/-! DEFINITION. The interrupt instruction (44_interrupt). -/

namespace Sys2Proof.Machine

/-- SWI: the software interrupt is taken; the comment field is ignored and I = 1 does not block it (44_interrupt R190, R192). -/
def execSwi (c : Cond) (_comment : BitVec 24) (s : State) : Answer :=
  whenHolds c s.takeInterrupt s

end Sys2Proof.Machine
end

