-- ==== Sys2Proof/Machine/Logical.lean ====
section
/-! DEFINITION. The logical ALU instructions that write Rd: AND, EOR, ORR, MOV, BIC, MVN (41_alu R140, R141, R152 to R155). -/

namespace Sys2Proof.Machine

/-- `F_AND`: op1 AND op2 (41_alu R140). -/
def resAnd (x y : Word) : AluResult := logical (x &&& y)

/-- AND, immediate operand 2 (41_alu R140). -/
def execAndImm (c : Cond) (sf : Bool) (rn rd : Reg) (rot : BitVec 4) (imm8 : Byte) (s : State) : Answer :=
  whenHolds c (aluWrite sf rd (resAnd (s.opnd rn) (immOperand rot imm8)) s) s

/-- AND, register operand 2 (41_alu R140). -/
def execAndReg (c : Cond) (sf : Bool) (rn rd rm : Reg) (s : State) : Answer :=
  whenHolds c (aluWrite sf rd (resAnd (s.opnd rn) (s.opnd rm)) s) s

/-- `F_EOR`: op1 XOR op2 (41_alu R141). -/
def resEor (x y : Word) : AluResult := logical (x ^^^ y)

/-- EOR, immediate operand 2 (41_alu R141). -/
def execEorImm (c : Cond) (sf : Bool) (rn rd : Reg) (rot : BitVec 4) (imm8 : Byte) (s : State) : Answer :=
  whenHolds c (aluWrite sf rd (resEor (s.opnd rn) (immOperand rot imm8)) s) s

/-- EOR, register operand 2 (41_alu R141). -/
def execEorReg (c : Cond) (sf : Bool) (rn rd rm : Reg) (s : State) : Answer :=
  whenHolds c (aluWrite sf rd (resEor (s.opnd rn) (s.opnd rm)) s) s

/-- `F_ORR`: op1 OR op2 (41_alu R152). -/
def resOrr (x y : Word) : AluResult := logical (x ||| y)

/-- ORR, immediate operand 2 (41_alu R152). -/
def execOrrImm (c : Cond) (sf : Bool) (rn rd : Reg) (rot : BitVec 4) (imm8 : Byte) (s : State) : Answer :=
  whenHolds c (aluWrite sf rd (resOrr (s.opnd rn) (immOperand rot imm8)) s) s

/-- ORR, register operand 2 (41_alu R152). -/
def execOrrReg (c : Cond) (sf : Bool) (rn rd rm : Reg) (s : State) : Answer :=
  whenHolds c (aluWrite sf rd (resOrr (s.opnd rn) (s.opnd rm)) s) s

/-- `F_MOV`: op2 (41_alu R153). -/
def resMov (y : Word) : AluResult := logical y

/-- MOV, immediate operand 2 (41_alu R153). -/
def execMovImm (c : Cond) (sf : Bool) (_rn rd : Reg) (rot : BitVec 4) (imm8 : Byte) (s : State) : Answer :=
  whenHolds c (aluWrite sf rd (resMov (immOperand rot imm8)) s) s

/-- MOV, register operand 2 (41_alu R153). -/
def execMovReg (c : Cond) (sf : Bool) (_rn rd rm : Reg) (s : State) : Answer :=
  whenHolds c (aluWrite sf rd (resMov (s.opnd rm)) s) s

/-- `F_BIC`: op1 AND (NOT op2) (41_alu R154). -/
def resBic (x y : Word) : AluResult := logical (x &&& ~~~y)

/-- BIC, immediate operand 2 (41_alu R154). -/
def execBicImm (c : Cond) (sf : Bool) (rn rd : Reg) (rot : BitVec 4) (imm8 : Byte) (s : State) : Answer :=
  whenHolds c (aluWrite sf rd (resBic (s.opnd rn) (immOperand rot imm8)) s) s

/-- BIC, register operand 2 (41_alu R154). -/
def execBicReg (c : Cond) (sf : Bool) (rn rd rm : Reg) (s : State) : Answer :=
  whenHolds c (aluWrite sf rd (resBic (s.opnd rn) (s.opnd rm)) s) s

/-- `F_MVN`: NOT op2 (41_alu R155). -/
def resMvn (y : Word) : AluResult := logical (~~~y)

/-- MVN, immediate operand 2 (41_alu R155). -/
def execMvnImm (c : Cond) (sf : Bool) (_rn rd : Reg) (rot : BitVec 4) (imm8 : Byte) (s : State) : Answer :=
  whenHolds c (aluWrite sf rd (resMvn (immOperand rot imm8)) s) s

/-- MVN, register operand 2 (41_alu R155). -/
def execMvnReg (c : Cond) (sf : Bool) (_rn rd rm : Reg) (s : State) : Answer :=
  whenHolds c (aluWrite sf rd (resMvn (s.opnd rm)) s) s

end Sys2Proof.Machine
end

