-- ==== Sys2Proof/Machine/Transfer.lean ====
section
/-! DEFINITION. The data-transfer instructions (43_transfer). -/

namespace Sys2Proof.Machine

/-- The effective-address sequence of 43_transfer R170 around an access: the Unsupported checks, then the faults, each of which
leaves everything but `run_state` as it was, then the access. -/
def transfer (p u w : Bool) (rn rd : Reg) (o : OffsetForm) (access : State) (s : State) : State :=
  match transferRefused p w rn rd o with
  | some r => s.raiseUnsupported r
  | none =>
    match accessFault s.cfg (accessAddress p u rn o s) with
    | some f => s.raiseFault f
    | none => access

/-- The access of LDR (43_transfer R171): the base is written back, then the loaded word goes to Rd, or to the pc as it is. -/
def loadAccess (p u w : Bool) (rn rd : Reg) (o : OffsetForm) (s : State) : State :=
  let v := Memory.readWord s.dmem (accessAddress p u rn o s).toNat
  let t := s.writeBack p w rn (offsetAddress u rn o s)
  if rd = pcReg then t.setPc v else (t.writeReg rd v).setPc (s.pc + 4#32)

/-- The access of STR (43_transfer R172): the word stored is `opnd(Rd)`, read before the base is written back. -/
def storeAccess (p u w : Bool) (rn rd : Reg) (o : OffsetForm) (s : State) : State :=
  let m := Memory.writeWord s.dmem (accessAddress p u rn o s).toNat (s.opnd rd)
  ((s.setMem m).writeBack p w rn (offsetAddress u rn o s)).setPc (s.pc + 4#32)

/-- LDR, immediate offset (43_transfer R171). -/
def execLdrImm (c : Cond) (p u w : Bool) (rn rd : Reg) (off12 : BitVec 12) (s : State) : Answer :=
  whenHolds c (transfer p u w rn rd (.imm off12) (loadAccess p u w rn rd (.imm off12) s) s) s

/-- LDR, register offset (43_transfer R171). -/
def execLdrReg (c : Cond) (p u w : Bool) (rn rd rm : Reg) (s : State) : Answer :=
  whenHolds c (transfer p u w rn rd (.reg rm) (loadAccess p u w rn rd (.reg rm) s) s) s

/-- STR, immediate offset (43_transfer R172). -/
def execStrImm (c : Cond) (p u w : Bool) (rn rd : Reg) (off12 : BitVec 12) (s : State) : Answer :=
  whenHolds c (transfer p u w rn rd (.imm off12) (storeAccess p u w rn rd (.imm off12) s) s) s

/-- STR, register offset (43_transfer R172). -/
def execStrReg (c : Cond) (p u w : Bool) (rn rd rm : Reg) (s : State) : Answer :=
  whenHolds c (transfer p u w rn rd (.reg rm) (storeAccess p u w rn rd (.reg rm) s) s) s

end Sys2Proof.Machine
end

