-- ==== Sys2Proof/Machine/Unsupported.lean ====
section
/-! DEFINITION. The words outside the admitted subset (30_encoding R85). When the condition holds each ends the run in `Unsupported(reason)` and
changes nothing else (45_driver R205); a skipped one is never checked (45_driver R203). -/

namespace Sys2Proof.Machine

/-- An ALU register operand with a shift field (41_alu R120). -/
def execShiftedRegisterAlu (c : Cond) (_op : AluOp) (_sf : Bool) (_rn _rd : Reg) (_sh : Byte) (_rm : Reg) (s : State) : Answer :=
  whenHolds c (s.raiseUnsupported .shiftedRegister) s

/-- A byte transfer (43_transfer R170). -/
def execByteTransfer (c : Cond) (_i _p _u _w _l : Bool) (_rn _rd : Reg) (_off12 : BitVec 12) (s : State) : Answer :=
  whenHolds c (s.raiseUnsupported .byteTransfer) s

/-- Post-index with W = 1 (43_transfer R170). -/
def execTranslatedTransfer (c : Cond) (_i _u _l : Bool) (_rn _rd : Reg) (_off12 : BitVec 12) (s : State) : Answer :=
  whenHolds c (s.raiseUnsupported .translatedTransfer) s

/-- Writeback to R15 or to Rd (43_transfer R170). -/
def execWritebackConflict (c : Cond) (_i _p _u _w _l : Bool) (_rn _rd : Reg) (_off12 : BitVec 12) (s : State) : Answer :=
  whenHolds c (s.raiseUnsupported .writebackConflict) s

/-- A transfer offset register with a shift field (43_transfer R170). -/
def execShiftedRegisterTransfer (c : Cond) (_p _u _w _l : Bool) (_rn _rd : Reg) (_sh : Byte) (_rm : Reg) (s : State) : Answer :=
  whenHolds c (s.raiseUnsupported .shiftedRegister) s

/-- R15 as the offset register (43_transfer R170). -/
def execPcOffsetRegister (c : Cond) (_p _u _w _l : Bool) (_rn _rd : Reg) (s : State) : Answer :=
  whenHolds c (s.raiseUnsupported .pcOffsetRegister) s

/-- The block-transfer space (42_branch R163). -/
def execBlockTransfer (c : Cond) (_rest : BitVec 25) (s : State) : Answer :=
  whenHolds c (s.raiseUnsupported .blockTransfer) s

/-- The coprocessor space (44_interrupt R191). -/
def execCoprocessor (c : Cond) (_sub : BitVec 2) (_rest : BitVec 24) (s : State) : Answer :=
  whenHolds c (s.raiseUnsupported .coprocessor) s

end Sys2Proof.Machine
end

