-- ==== Sys2Proof/Machine/Dispatch.lean ====
section
/-! DEFINITION. What each instruction does: one arm per constructor of `Instr`. -/

namespace Sys2Proof.Machine

def exec (i : Instr) (s : State) : Host.Outcome State Fault Refusal :=
  match i with
  | .andImm c sf rn rd rot imm8 => Sys2Proof.Machine.execAndImm c sf rn rd rot imm8 s
  | .andReg c sf rn rd rm => Sys2Proof.Machine.execAndReg c sf rn rd rm s
  | .eorImm c sf rn rd rot imm8 => Sys2Proof.Machine.execEorImm c sf rn rd rot imm8 s
  | .eorReg c sf rn rd rm => Sys2Proof.Machine.execEorReg c sf rn rd rm s
  | .subImm c sf rn rd rot imm8 => Sys2Proof.Machine.execSubImm c sf rn rd rot imm8 s
  | .subReg c sf rn rd rm => Sys2Proof.Machine.execSubReg c sf rn rd rm s
  | .rsbImm c sf rn rd rot imm8 => Sys2Proof.Machine.execRsbImm c sf rn rd rot imm8 s
  | .rsbReg c sf rn rd rm => Sys2Proof.Machine.execRsbReg c sf rn rd rm s
  | .addImm c sf rn rd rot imm8 => Sys2Proof.Machine.execAddImm c sf rn rd rot imm8 s
  | .addReg c sf rn rd rm => Sys2Proof.Machine.execAddReg c sf rn rd rm s
  | .adcImm c sf rn rd rot imm8 => Sys2Proof.Machine.execAdcImm c sf rn rd rot imm8 s
  | .adcReg c sf rn rd rm => Sys2Proof.Machine.execAdcReg c sf rn rd rm s
  | .sbcImm c sf rn rd rot imm8 => Sys2Proof.Machine.execSbcImm c sf rn rd rot imm8 s
  | .sbcReg c sf rn rd rm => Sys2Proof.Machine.execSbcReg c sf rn rd rm s
  | .rscImm c sf rn rd rot imm8 => Sys2Proof.Machine.execRscImm c sf rn rd rot imm8 s
  | .rscReg c sf rn rd rm => Sys2Proof.Machine.execRscReg c sf rn rd rm s
  | .tstImm c sf rn rd rot imm8 => Sys2Proof.Machine.execTstImm c sf rn rd rot imm8 s
  | .tstReg c sf rn rd rm => Sys2Proof.Machine.execTstReg c sf rn rd rm s
  | .teqImm c sf rn rd rot imm8 => Sys2Proof.Machine.execTeqImm c sf rn rd rot imm8 s
  | .teqReg c sf rn rd rm => Sys2Proof.Machine.execTeqReg c sf rn rd rm s
  | .cmpImm c sf rn rd rot imm8 => Sys2Proof.Machine.execCmpImm c sf rn rd rot imm8 s
  | .cmpReg c sf rn rd rm => Sys2Proof.Machine.execCmpReg c sf rn rd rm s
  | .cmnImm c sf rn rd rot imm8 => Sys2Proof.Machine.execCmnImm c sf rn rd rot imm8 s
  | .cmnReg c sf rn rd rm => Sys2Proof.Machine.execCmnReg c sf rn rd rm s
  | .orrImm c sf rn rd rot imm8 => Sys2Proof.Machine.execOrrImm c sf rn rd rot imm8 s
  | .orrReg c sf rn rd rm => Sys2Proof.Machine.execOrrReg c sf rn rd rm s
  | .movImm c sf rn rd rot imm8 => Sys2Proof.Machine.execMovImm c sf rn rd rot imm8 s
  | .movReg c sf rn rd rm => Sys2Proof.Machine.execMovReg c sf rn rd rm s
  | .bicImm c sf rn rd rot imm8 => Sys2Proof.Machine.execBicImm c sf rn rd rot imm8 s
  | .bicReg c sf rn rd rm => Sys2Proof.Machine.execBicReg c sf rn rd rm s
  | .mvnImm c sf rn rd rot imm8 => Sys2Proof.Machine.execMvnImm c sf rn rd rot imm8 s
  | .mvnReg c sf rn rd rm => Sys2Proof.Machine.execMvnReg c sf rn rd rm s
  | .ldrImm c p u w rn rd off12 => Sys2Proof.Machine.execLdrImm c p u w rn rd off12 s
  | .ldrReg c p u w rn rd rm => Sys2Proof.Machine.execLdrReg c p u w rn rd rm s
  | .strImm c p u w rn rd off12 => Sys2Proof.Machine.execStrImm c p u w rn rd off12 s
  | .strReg c p u w rn rd rm => Sys2Proof.Machine.execStrReg c p u w rn rd rm s
  | .b c imm24 => Sys2Proof.Machine.execB c imm24 s
  | .bl c imm24 => Sys2Proof.Machine.execBl c imm24 s
  | .swi c comment => Sys2Proof.Machine.execSwi c comment s
  | .shiftedRegisterAlu c op sf rn rd sh rm => Sys2Proof.Machine.execShiftedRegisterAlu c op sf rn rd sh rm s
  | .byteTransfer c i1 p u w l rn rd off12 => Sys2Proof.Machine.execByteTransfer c i1 p u w l rn rd off12 s
  | .translatedTransfer c i1 u l rn rd off12 => Sys2Proof.Machine.execTranslatedTransfer c i1 u l rn rd off12 s
  | .writebackConflict c i1 p u w l rn rd off12 => Sys2Proof.Machine.execWritebackConflict c i1 p u w l rn rd off12 s
  | .shiftedRegisterTransfer c p u w l rn rd sh rm => Sys2Proof.Machine.execShiftedRegisterTransfer c p u w l rn rd sh rm s
  | .pcOffsetRegister c p u w l rn rd => Sys2Proof.Machine.execPcOffsetRegister c p u w l rn rd s
  | .blockTransfer c rest => Sys2Proof.Machine.execBlockTransfer c rest s
  | .coprocessor c sub rest => Sys2Proof.Machine.execCoprocessor c sub rest s

end Sys2Proof.Machine
end

