-- ==== Sys2Proof/Machine/Step.lean ====
section
/-! DEFINITION. One step of the Execution Driver (45_driver R201 to R209), and the placing of one word where the next step fetches. -/

namespace Sys2Proof.Machine

/-- One step. Only `Running` steps (45_driver R201); a terminal state stays as it is (R208, R209), and so does `Loading`, which waits
for the host (log entry 3). The condition is evaluated in `exec` (log entry 6). -/
def step (s : State) : Host.Outcome State Fault Refusal :=
  match s.runState with
  | .running =>
    match s.fetch with
    | .misaligned => .next (s.raiseFault .fetchMisaligned)
    | .exhausted => .next s.halt
    | .word w => exec (decode w) s
  | .loading => .next s
  | .halted => .next s
  | .faulted _ => .next s
  | .unsupported _ => .next s

/-- DESIGN CHOICE (log entry 8): what stands in the slots below a word that `withFetchWord` places past the loaded ones,
`MOV R0, R0`, as the spec's single-step vectors have it. -/
def fillerWord : Word := 0xE1A00000#32

/-- The store, made long enough to hold slot `i` by filler words. -/
def padStore (store : List Word) (i : Nat) : List Word := store ++ List.replicate (i + 1 - store.length) fillerWord

/-- `s` with the word of `w`'s low `nbits` bits in the slot the pc names, ready to run it: `Running`, and the pc word-aligned if it was not.
It stands for the host's loading of a program (log entry 2). -/
def State.withFetchWord (s : State) (nbits w : Nat) : State :=
  let a : Word := BitVec.ofNat 32 (s.pc.toNat / 4 * 4)
  let x : Word := BitVec.ofNat 32 (w % 2 ^ nbits)
  { s.setPc a with
    store := (padStore s.store s.fetchIndex).set s.fetchIndex x
    runState := .running }

end Sys2Proof.Machine
end

