-- ==== Sys2Proof/Machine/HostOps.lean ====
section
/-! DEFINITION. The host's side of the machine (70_reset_and_hazards R250 to R254): create, load, run, read back. `create` is
`State.create`. Each is an operation on State that the host applies between steps (log entry 2). -/

namespace Sys2Proof.Machine

/-- `load(w)` (70_reset_and_hazards R252). A faulted instance keeps its first code; outside `Loading` the load faults; so does a load
into a full store. -/
def State.hostLoad (s : State) (w : Word) : State :=
  match s.runState with
  | .faulted _ => s
  | .loading =>
    if s.count = s.cfg.storeCapacity then s.raiseFault .storeOverflow else { s with store := s.store ++ [w] }
  | .running => s.raiseFault .loadAfterRun
  | .halted => s.raiseFault .loadAfterRun
  | .unsupported _ => s.raiseFault .loadAfterRun

/-- A whole program loaded, word 0 first (70_reset_and_hazards R255). -/
def State.hostLoadAll (s : State) : List Word → State
  | [] => s
  | w :: ws => (s.hostLoad w).hostLoadAll ws

/-- `run()`: `Loading` becomes `Running`, and anything else is left as it is (70_reset_and_hazards R253, 45_driver R209). The steps that
follow are `step`'s. -/
def State.hostRun (s : State) : State :=
  match s.runState with
  | .loading => s.setRun .running
  | .running => s
  | .halted => s
  | .faulted _ => s
  | .unsupported _ => s

/-- The run has ended (45_driver R209, R210). -/
def RunState.terminal : RunState → Bool
  | .loading => false
  | .running => false
  | .halted => true
  | .faulted _ => true
  | .unsupported _ => true

/-- What the host reads back (45_driver R210). -/
structure RunResult where
  regs : Vector Word 16
  status : Byte
  savedStatus : Byte
  dmem : List Host.Cell
  runState : RunState
  deriving DecidableEq, Repr

/-- The observable result of an ended run; a run that has not ended has none (45_driver R210, 70_reset_and_hazards R254). -/
def State.result? (s : State) : Option RunResult :=
  if s.runState.terminal then
    some { regs := s.regs, status := s.status, savedStatus := s.savedStatus, dmem := s.dmem, runState := s.runState }
  else none

end Sys2Proof.Machine
end

