-- ==== Sys2Proof/Safety.lean ====
section
/-! DEFINITION. The terms in which statements about the machine are written: the invariant of every reachable state, the
reachable states, and what an instruction leaves unchanged. -/

namespace Sys2Proof.Machine

/-! ## The invariant -/

/-- `Status.F = 0` and `Status.M = 0b00` in a status value (60_exceptions R232). -/
abbrev FAndModeClear (st : Byte) : Prop := flagIsSet .F st = false ∧ modeOf st = 0b00#2

/-- What holds at creation and what every step and every host call keeps: legal parameters (00_scope R8), a store within its
capacity (10_state R30), a data memory in canonical form that lists only existing addresses (20_memory R50), and F and M clear
in both status registers (60_exceptions R232). -/
abbrev Inv (s : State) : Prop :=
  s.cfg.Legal ∧ s.count ≤ s.cfg.storeCapacity ∧ Memory.wf s.dmem = true ∧ (∀ x ∈ s.dmem, x.1 < s.cfg.dataMemBytes) ∧
    FAndModeClear s.status ∧ FAndModeClear s.savedStatus

/-- The states an instance can come to: creation with legal parameters, then host calls and steps in any order (45_driver R208,
70_reset_and_hazards R254). -/
inductive Reachable : State → Prop where
  | create (cfg : Config) (h : cfg.Legal) : Reachable (State.create cfg)
  | load (s : State) (w : Word) (h : Reachable s) : Reachable (s.hostLoad w)
  | run (s : State) (h : Reachable s) : Reachable s.hostRun
  | step (s t : State) (h : Reachable s) (hs : Machine.step s = .next t) : Reachable t

/-! ## Frames -/

/-- Every register but the pc and those named reads as before. -/
def SameRegs (except : List Reg) (s t : State) : Prop := ∀ r : Reg, r ≠ pcReg → r ∉ except → t.readReg r = s.readReg r

/-- Every byte of data memory reads as before. -/
def SameMemory (s t : State) : Prop := ∀ a : Nat, Memory.readByte t.dmem a = Memory.readByte s.dmem a

/-- The configuration, the Instruction Store and the run state are as before. -/
def SameDriver (s t : State) : Prop := t.cfg = s.cfg ∧ t.store = s.store ∧ t.runState = s.runState

/-- Both status registers are as before. -/
def SameStatus (s t : State) : Prop := t.status = s.status ∧ t.savedStatus = s.savedStatus

/-! ## Flags an operation with S = 1 leaves -/

/-- I, F and M are as before. -/
def LowNibbleKept (s t : State) : Prop := t.status.extractLsb' 0 4 = s.status.extractLsb' 0 4

/-- N is the result's top bit and Z says whether the result is 0 (41_alu R122). -/
def NZFrom (res : Word) (t : State) : Prop :=
  flagIsSet .N t.status = res.msb ∧ (flagIsSet .Z t.status = true ↔ res = 0#32)

/-- The flags of a logical operation: N and Z from the result, C and V as before (41_alu R122, R125). -/
def LogicalFlags (res : Word) (s t : State) : Prop :=
  NZFrom res t ∧ flagIsSet .C t.status = flagIsSet .C s.status ∧ flagIsSet .V t.status = flagIsSet .V s.status ∧
    LowNibbleKept s t

/-- A mathematical result that 32 bits in two's complement do not hold. -/
abbrev OutOfRange (x : Int) : Prop := x < -2 ^ 31 ∨ 2 ^ 31 ≤ x

/-- The flags of an arithmetic operation: N and Z from the result, C iff `carry`, V iff the mathematical signed result is
out of range (41_alu R123). -/
def ArithFlags (res : Word) (carry : Prop) (signed : Int) (s t : State) : Prop :=
  NZFrom res t ∧ (flagIsSet .C t.status = true ↔ carry) ∧ (flagIsSet .V t.status = true ↔ OutOfRange signed) ∧
    LowNibbleKept s t

/-- What an operation that writes Rd leaves (41_alu R121, R124): with Rd other than R15 the result in Rd, the flags if S = 1 and the
status as it was if not, and the pc advanced; with Rd = 15 the result in the pc, and the saved status restored if S = 1.
Nothing else changes. -/
def WritesRd (sf : Bool) (rd : Reg) (res : Word) (flags : State → State → Prop) (s t : State) : Prop :=
  (rd ≠ pcReg → t.readReg rd = res ∧ t.pc = s.pc + 4#32 ∧ (sf = true → flags s t) ∧ (sf = false → t.status = s.status)) ∧
  (rd = pcReg → t.pc = res ∧ (sf = true → t.status = s.savedStatus) ∧ (sf = false → t.status = s.status)) ∧
  SameRegs [rd] s t ∧ t.savedStatus = s.savedStatus ∧ SameMemory s t ∧ SameDriver s t

/-- What TST, TEQ, CMP and CMN leave (41_alu R121, R126): the flags if S = 1, the pc advanced, nothing else. -/
def WritesFlagsOnly (sf : Bool) (flags : State → State → Prop) (s t : State) : Prop :=
  t.pc = s.pc + 4#32 ∧ (sf = true → flags s t) ∧ (sf = false → t.status = s.status) ∧
  SameRegs [] s t ∧ t.savedStatus = s.savedStatus ∧ SameMemory s t ∧ SameDriver s t

/-! ## Facts about an instruction as syntax -/

/-- The S bit of an ALU instruction; false for any other word. -/
def updatesStatus : Instr → Bool
  | .andImm _ sf _ _ _ _ => sf
  | .andReg _ sf _ _ _ => sf
  | .eorImm _ sf _ _ _ _ => sf
  | .eorReg _ sf _ _ _ => sf
  | .subImm _ sf _ _ _ _ => sf
  | .subReg _ sf _ _ _ => sf
  | .rsbImm _ sf _ _ _ _ => sf
  | .rsbReg _ sf _ _ _ => sf
  | .addImm _ sf _ _ _ _ => sf
  | .addReg _ sf _ _ _ => sf
  | .adcImm _ sf _ _ _ _ => sf
  | .adcReg _ sf _ _ _ => sf
  | .sbcImm _ sf _ _ _ _ => sf
  | .sbcReg _ sf _ _ _ => sf
  | .rscImm _ sf _ _ _ _ => sf
  | .rscReg _ sf _ _ _ => sf
  | .tstImm _ sf _ _ _ _ => sf
  | .tstReg _ sf _ _ _ => sf
  | .teqImm _ sf _ _ _ _ => sf
  | .teqReg _ sf _ _ _ => sf
  | .cmpImm _ sf _ _ _ _ => sf
  | .cmpReg _ sf _ _ _ => sf
  | .cmnImm _ sf _ _ _ _ => sf
  | .cmnReg _ sf _ _ _ => sf
  | .orrImm _ sf _ _ _ _ => sf
  | .orrReg _ sf _ _ _ => sf
  | .movImm _ sf _ _ _ _ => sf
  | .movReg _ sf _ _ _ => sf
  | .bicImm _ sf _ _ _ _ => sf
  | .bicReg _ sf _ _ _ => sf
  | .mvnImm _ sf _ _ _ _ => sf
  | .mvnReg _ sf _ _ _ => sf
  | .ldrImm _ _ _ _ _ _ _ => false
  | .ldrReg _ _ _ _ _ _ _ => false
  | .strImm _ _ _ _ _ _ _ => false
  | .strReg _ _ _ _ _ _ _ => false
  | .b _ _ => false
  | .bl _ _ => false
  | .swi _ _ => false
  | .shiftedRegisterAlu _ _ _ _ _ _ _ => false
  | .byteTransfer _ _ _ _ _ _ _ _ _ => false
  | .translatedTransfer _ _ _ _ _ _ _ => false
  | .writebackConflict _ _ _ _ _ _ _ _ _ => false
  | .shiftedRegisterTransfer _ _ _ _ _ _ _ _ _ => false
  | .pcOffsetRegister _ _ _ _ _ _ _ => false
  | .blockTransfer _ _ => false
  | .coprocessor _ _ _ => false

/-- The registers other than the pc that an instruction may write: Rd of a writing ALU operation, Rd of LDR, the base register of
a transfer that writes back, R14 of BL and SWI (10_state R22). -/
def mayWrite : Instr → List Reg
  | .andImm _ _ _ rd _ _ => [rd]
  | .andReg _ _ _ rd _ => [rd]
  | .eorImm _ _ _ rd _ _ => [rd]
  | .eorReg _ _ _ rd _ => [rd]
  | .subImm _ _ _ rd _ _ => [rd]
  | .subReg _ _ _ rd _ => [rd]
  | .rsbImm _ _ _ rd _ _ => [rd]
  | .rsbReg _ _ _ rd _ => [rd]
  | .addImm _ _ _ rd _ _ => [rd]
  | .addReg _ _ _ rd _ => [rd]
  | .adcImm _ _ _ rd _ _ => [rd]
  | .adcReg _ _ _ rd _ => [rd]
  | .sbcImm _ _ _ rd _ _ => [rd]
  | .sbcReg _ _ _ rd _ => [rd]
  | .rscImm _ _ _ rd _ _ => [rd]
  | .rscReg _ _ _ rd _ => [rd]
  | .tstImm _ _ _ _ _ _ => []
  | .tstReg _ _ _ _ _ => []
  | .teqImm _ _ _ _ _ _ => []
  | .teqReg _ _ _ _ _ => []
  | .cmpImm _ _ _ _ _ _ => []
  | .cmpReg _ _ _ _ _ => []
  | .cmnImm _ _ _ _ _ _ => []
  | .cmnReg _ _ _ _ _ => []
  | .orrImm _ _ _ rd _ _ => [rd]
  | .orrReg _ _ _ rd _ => [rd]
  | .movImm _ _ _ rd _ _ => [rd]
  | .movReg _ _ _ rd _ => [rd]
  | .bicImm _ _ _ rd _ _ => [rd]
  | .bicReg _ _ _ rd _ => [rd]
  | .mvnImm _ _ _ rd _ _ => [rd]
  | .mvnReg _ _ _ rd _ => [rd]
  | .ldrImm _ p _ w rn rd _ => if writesBack p w then [rd, rn] else [rd]
  | .ldrReg _ p _ w rn rd _ => if writesBack p w then [rd, rn] else [rd]
  | .strImm _ p _ w rn _ _ => if writesBack p w then [rn] else []
  | .strReg _ p _ w rn _ _ => if writesBack p w then [rn] else []
  | .b _ _ => []
  | .bl _ _ => [lrReg]
  | .swi _ _ => [lrReg]
  | .shiftedRegisterAlu _ _ _ _ _ _ _ => []
  | .byteTransfer _ _ _ _ _ _ _ _ _ => []
  | .translatedTransfer _ _ _ _ _ _ _ => []
  | .writebackConflict _ _ _ _ _ _ _ _ _ => []
  | .shiftedRegisterTransfer _ _ _ _ _ _ _ _ _ => []
  | .pcOffsetRegister _ _ _ _ _ _ _ => []
  | .blockTransfer _ _ => []
  | .coprocessor _ _ _ => []

/-- The instruction is an LDR or STR. -/
def isTransfer : Instr → Bool
  | .andImm _ _ _ _ _ _ => false
  | .andReg _ _ _ _ _ => false
  | .eorImm _ _ _ _ _ _ => false
  | .eorReg _ _ _ _ _ => false
  | .subImm _ _ _ _ _ _ => false
  | .subReg _ _ _ _ _ => false
  | .rsbImm _ _ _ _ _ _ => false
  | .rsbReg _ _ _ _ _ => false
  | .addImm _ _ _ _ _ _ => false
  | .addReg _ _ _ _ _ => false
  | .adcImm _ _ _ _ _ _ => false
  | .adcReg _ _ _ _ _ => false
  | .sbcImm _ _ _ _ _ _ => false
  | .sbcReg _ _ _ _ _ => false
  | .rscImm _ _ _ _ _ _ => false
  | .rscReg _ _ _ _ _ => false
  | .tstImm _ _ _ _ _ _ => false
  | .tstReg _ _ _ _ _ => false
  | .teqImm _ _ _ _ _ _ => false
  | .teqReg _ _ _ _ _ => false
  | .cmpImm _ _ _ _ _ _ => false
  | .cmpReg _ _ _ _ _ => false
  | .cmnImm _ _ _ _ _ _ => false
  | .cmnReg _ _ _ _ _ => false
  | .orrImm _ _ _ _ _ _ => false
  | .orrReg _ _ _ _ _ => false
  | .movImm _ _ _ _ _ _ => false
  | .movReg _ _ _ _ _ => false
  | .bicImm _ _ _ _ _ _ => false
  | .bicReg _ _ _ _ _ => false
  | .mvnImm _ _ _ _ _ _ => false
  | .mvnReg _ _ _ _ _ => false
  | .ldrImm _ _ _ _ _ _ _ => true
  | .ldrReg _ _ _ _ _ _ _ => true
  | .strImm _ _ _ _ _ _ _ => true
  | .strReg _ _ _ _ _ _ _ => true
  | .b _ _ => false
  | .bl _ _ => false
  | .swi _ _ => false
  | .shiftedRegisterAlu _ _ _ _ _ _ _ => false
  | .byteTransfer _ _ _ _ _ _ _ _ _ => false
  | .translatedTransfer _ _ _ _ _ _ _ => false
  | .writebackConflict _ _ _ _ _ _ _ _ _ => false
  | .shiftedRegisterTransfer _ _ _ _ _ _ _ _ _ => false
  | .pcOffsetRegister _ _ _ _ _ _ _ => false
  | .blockTransfer _ _ => false
  | .coprocessor _ _ _ => false

/-- The instruction is an STR. -/
def isStore : Instr → Bool
  | .andImm _ _ _ _ _ _ => false
  | .andReg _ _ _ _ _ => false
  | .eorImm _ _ _ _ _ _ => false
  | .eorReg _ _ _ _ _ => false
  | .subImm _ _ _ _ _ _ => false
  | .subReg _ _ _ _ _ => false
  | .rsbImm _ _ _ _ _ _ => false
  | .rsbReg _ _ _ _ _ => false
  | .addImm _ _ _ _ _ _ => false
  | .addReg _ _ _ _ _ => false
  | .adcImm _ _ _ _ _ _ => false
  | .adcReg _ _ _ _ _ => false
  | .sbcImm _ _ _ _ _ _ => false
  | .sbcReg _ _ _ _ _ => false
  | .rscImm _ _ _ _ _ _ => false
  | .rscReg _ _ _ _ _ => false
  | .tstImm _ _ _ _ _ _ => false
  | .tstReg _ _ _ _ _ => false
  | .teqImm _ _ _ _ _ _ => false
  | .teqReg _ _ _ _ _ => false
  | .cmpImm _ _ _ _ _ _ => false
  | .cmpReg _ _ _ _ _ => false
  | .cmnImm _ _ _ _ _ _ => false
  | .cmnReg _ _ _ _ _ => false
  | .orrImm _ _ _ _ _ _ => false
  | .orrReg _ _ _ _ _ => false
  | .movImm _ _ _ _ _ _ => false
  | .movReg _ _ _ _ _ => false
  | .bicImm _ _ _ _ _ _ => false
  | .bicReg _ _ _ _ _ => false
  | .mvnImm _ _ _ _ _ _ => false
  | .mvnReg _ _ _ _ _ => false
  | .ldrImm _ _ _ _ _ _ _ => false
  | .ldrReg _ _ _ _ _ _ _ => false
  | .strImm _ _ _ _ _ _ _ => true
  | .strReg _ _ _ _ _ _ _ => true
  | .b _ _ => false
  | .bl _ _ => false
  | .swi _ _ => false
  | .shiftedRegisterAlu _ _ _ _ _ _ _ => false
  | .byteTransfer _ _ _ _ _ _ _ _ _ => false
  | .translatedTransfer _ _ _ _ _ _ _ => false
  | .writebackConflict _ _ _ _ _ _ _ _ _ => false
  | .shiftedRegisterTransfer _ _ _ _ _ _ _ _ _ => false
  | .pcOffsetRegister _ _ _ _ _ _ _ => false
  | .blockTransfer _ _ => false
  | .coprocessor _ _ _ => false

/-- The instruction is an SWI. -/
def isSwi : Instr → Bool
  | .andImm _ _ _ _ _ _ => false
  | .andReg _ _ _ _ _ => false
  | .eorImm _ _ _ _ _ _ => false
  | .eorReg _ _ _ _ _ => false
  | .subImm _ _ _ _ _ _ => false
  | .subReg _ _ _ _ _ => false
  | .rsbImm _ _ _ _ _ _ => false
  | .rsbReg _ _ _ _ _ => false
  | .addImm _ _ _ _ _ _ => false
  | .addReg _ _ _ _ _ => false
  | .adcImm _ _ _ _ _ _ => false
  | .adcReg _ _ _ _ _ => false
  | .sbcImm _ _ _ _ _ _ => false
  | .sbcReg _ _ _ _ _ => false
  | .rscImm _ _ _ _ _ _ => false
  | .rscReg _ _ _ _ _ => false
  | .tstImm _ _ _ _ _ _ => false
  | .tstReg _ _ _ _ _ => false
  | .teqImm _ _ _ _ _ _ => false
  | .teqReg _ _ _ _ _ => false
  | .cmpImm _ _ _ _ _ _ => false
  | .cmpReg _ _ _ _ _ => false
  | .cmnImm _ _ _ _ _ _ => false
  | .cmnReg _ _ _ _ _ => false
  | .orrImm _ _ _ _ _ _ => false
  | .orrReg _ _ _ _ _ => false
  | .movImm _ _ _ _ _ _ => false
  | .movReg _ _ _ _ _ => false
  | .bicImm _ _ _ _ _ _ => false
  | .bicReg _ _ _ _ _ => false
  | .mvnImm _ _ _ _ _ _ => false
  | .mvnReg _ _ _ _ _ => false
  | .ldrImm _ _ _ _ _ _ _ => false
  | .ldrReg _ _ _ _ _ _ _ => false
  | .strImm _ _ _ _ _ _ _ => false
  | .strReg _ _ _ _ _ _ _ => false
  | .b _ _ => false
  | .bl _ _ => false
  | .swi _ _ => true
  | .shiftedRegisterAlu _ _ _ _ _ _ _ => false
  | .byteTransfer _ _ _ _ _ _ _ _ _ => false
  | .translatedTransfer _ _ _ _ _ _ _ => false
  | .writebackConflict _ _ _ _ _ _ _ _ _ => false
  | .shiftedRegisterTransfer _ _ _ _ _ _ _ _ _ => false
  | .pcOffsetRegister _ _ _ _ _ _ _ => false
  | .blockTransfer _ _ => false
  | .coprocessor _ _ _ => false

/-- The instruction reads `SavedStatus` if it executes: an ALU operation that writes R15 with S = 1 (10_state R28). -/
def restoresStatus : Instr → Bool
  | .andImm _ sf _ rd _ _ => sf && rd == pcReg
  | .andReg _ sf _ rd _ => sf && rd == pcReg
  | .eorImm _ sf _ rd _ _ => sf && rd == pcReg
  | .eorReg _ sf _ rd _ => sf && rd == pcReg
  | .subImm _ sf _ rd _ _ => sf && rd == pcReg
  | .subReg _ sf _ rd _ => sf && rd == pcReg
  | .rsbImm _ sf _ rd _ _ => sf && rd == pcReg
  | .rsbReg _ sf _ rd _ => sf && rd == pcReg
  | .addImm _ sf _ rd _ _ => sf && rd == pcReg
  | .addReg _ sf _ rd _ => sf && rd == pcReg
  | .adcImm _ sf _ rd _ _ => sf && rd == pcReg
  | .adcReg _ sf _ rd _ => sf && rd == pcReg
  | .sbcImm _ sf _ rd _ _ => sf && rd == pcReg
  | .sbcReg _ sf _ rd _ => sf && rd == pcReg
  | .rscImm _ sf _ rd _ _ => sf && rd == pcReg
  | .rscReg _ sf _ rd _ => sf && rd == pcReg
  | .tstImm _ _ _ _ _ _ => false
  | .tstReg _ _ _ _ _ => false
  | .teqImm _ _ _ _ _ _ => false
  | .teqReg _ _ _ _ _ => false
  | .cmpImm _ _ _ _ _ _ => false
  | .cmpReg _ _ _ _ _ => false
  | .cmnImm _ _ _ _ _ _ => false
  | .cmnReg _ _ _ _ _ => false
  | .orrImm _ sf _ rd _ _ => sf && rd == pcReg
  | .orrReg _ sf _ rd _ => sf && rd == pcReg
  | .movImm _ sf _ rd _ _ => sf && rd == pcReg
  | .movReg _ sf _ rd _ => sf && rd == pcReg
  | .bicImm _ sf _ rd _ _ => sf && rd == pcReg
  | .bicReg _ sf _ rd _ => sf && rd == pcReg
  | .mvnImm _ sf _ rd _ _ => sf && rd == pcReg
  | .mvnReg _ sf _ rd _ => sf && rd == pcReg
  | .ldrImm _ _ _ _ _ _ _ => false
  | .ldrReg _ _ _ _ _ _ _ => false
  | .strImm _ _ _ _ _ _ _ => false
  | .strReg _ _ _ _ _ _ _ => false
  | .b _ _ => false
  | .bl _ _ => false
  | .swi _ _ => false
  | .shiftedRegisterAlu _ _ _ _ _ _ _ => false
  | .byteTransfer _ _ _ _ _ _ _ _ _ => false
  | .translatedTransfer _ _ _ _ _ _ _ => false
  | .writebackConflict _ _ _ _ _ _ _ _ _ => false
  | .shiftedRegisterTransfer _ _ _ _ _ _ _ _ _ => false
  | .pcOffsetRegister _ _ _ _ _ _ _ => false
  | .blockTransfer _ _ => false
  | .coprocessor _ _ _ => false

end Sys2Proof.Machine
end

