-- ==== Sys2Proof/Certificates/Slice0/Obligations.lean ====
section
/-! DEFINITION. The statements for the provers. Each docstring names the rule of spec/ it formalises. `s.pc` is the rules' `A`. -/

open Sys2Proof Sys2Proof.Machine

/-- The three example words of the source decode as R89 tables them (R89). -/
def Obligations.ExampleWordsDecode : Prop :=
  decode 0xE3A00001#32 = .movImm .al false 0#4 0#4 0#4 0x01#8 ∧
  decode 0xE3A01002#32 = .movImm .al false 0#4 1#4 0#4 0x02#8 ∧
  decode 0xE0802001#32 = .addReg .al false 0#4 2#4 1#4

/-- One word of each family decodes to the instruction it stands for (95_test_vectors.md section 2.1, R73, R77, R79, R81). -/
def Obligations.FamilyWordsDecode : Prop :=
  decode 0xE351000F#32 = .cmpImm .al true 1#4 0#4 0#4 0x0F#8 ∧
  decode 0xE7903001#32 = .ldrReg .al true true false 0#4 3#4 1#4 ∧
  decode 0xE5201008#32 = .strImm .al true false true 0#4 1#4 0x008#12 ∧
  decode 0xE4802004#32 = .strImm .al false true false 0#4 2#4 0x004#12 ∧
  decode 0x1AFFFFFC#32 = .b .ne 0xFFFFFC#24 ∧
  decode 0xEB000001#32 = .bl .al 0x000001#24 ∧
  decode 0xEF000000#32 = .swi .al 0x000000#24 ∧
  decode 0xE8900003#32 = .blockTransfer .al 0x0900003#25 ∧
  decode 0xEE000000#32 = .coprocessor .al 0b10#2 0x000000#24

/-- Encoding what the decoder read gives back every one of the 2^32 words (R84). -/
def Obligations.EncodeOfDecodeIsTheWord : Prop :=
  ∀ w : Word, encode (decode w) = w

/-- Decoding an encoded well-formed instruction gives it back (R82, R84, R85). -/
def Obligations.DecodeOfEncodeIsTheInstruction : Prop :=
  ∀ i : Instr, i.WellFormed → decode (encode i) = i

/-- Every word decodes, and to an instruction of the row whose constraint it meets (R82, R85). -/
def Obligations.DecodedInstructionsAreWellFormed : Prop :=
  ∀ w : Word, (decode w).WellFormed

/-- Each Unsupported space of R85, as conditions on the bits of the word, ends the run with its reason (R85, R163, R191). -/
def Obligations.UnsupportedWordsEndTheRun : Prop :=
  ∀ (w : Word) (s : State), condHolds (Cond.ofCode (w.extractLsb' 28 4)) s.status = true →
    let cat := w.extractLsb' 26 2
    let sh := w.extractLsb' 4 8
    let rm := w.extractLsb' 0 4
    let rn := w.extractLsb' 16 4
    let rd := w.extractLsb' 12 4
    let i := w.getLsbD 25
    let p := w.getLsbD 24
    let b := w.getLsbD 22
    let wb := w.getLsbD 21
    let translated := p = false ∧ wb = true
    let conflict := (p = false ∨ wb = true) ∧ (rn = 15#4 ∨ rn = rd)
    (cat = 0b00#2 → i = false → sh ≠ 0#8 →
      exec (decode w) s = .next { s with runState := .unsupported .shiftedRegister }) ∧
    (cat = 0b01#2 → b = true →
      exec (decode w) s = .next { s with runState := .unsupported .byteTransfer }) ∧
    (cat = 0b01#2 → b = false → translated →
      exec (decode w) s = .next { s with runState := .unsupported .translatedTransfer }) ∧
    (cat = 0b01#2 → b = false → ¬ translated → conflict →
      exec (decode w) s = .next { s with runState := .unsupported .writebackConflict }) ∧
    (cat = 0b01#2 → b = false → ¬ translated → ¬ conflict → i = true → sh ≠ 0#8 →
      exec (decode w) s = .next { s with runState := .unsupported .shiftedRegister }) ∧
    (cat = 0b01#2 → b = false → ¬ translated → ¬ conflict → i = true → sh = 0#8 → rm = 15#4 →
      exec (decode w) s = .next { s with runState := .unsupported .pcOffsetRegister }) ∧
    (cat = 0b10#2 → i = false →
      exec (decode w) s = .next { s with runState := .unsupported .blockTransfer }) ∧
    (cat = 0b11#2 → w.extractLsb' 24 2 ≠ 0b11#2 →
      exec (decode w) s = .next { s with runState := .unsupported .coprocessor })

/-- Each of the eight Unsupported rows completes: it answers the state with only the run state changed (R205, R85, R178). -/
def Obligations.UnsupportedFormsComplete : Prop :=
  ∀ (c : Cond) (s : State), condHolds c s.status = true →
    (∀ op sf rn rd sh rm, exec (.shiftedRegisterAlu c op sf rn rd sh rm) s =
      .next { s with runState := .unsupported .shiftedRegister }) ∧
    (∀ i p u w l rn rd off12, exec (.byteTransfer c i p u w l rn rd off12) s =
      .next { s with runState := .unsupported .byteTransfer }) ∧
    (∀ i u l rn rd off12, exec (.translatedTransfer c i u l rn rd off12) s =
      .next { s with runState := .unsupported .translatedTransfer }) ∧
    (∀ i p u w l rn rd off12, exec (.writebackConflict c i p u w l rn rd off12) s =
      .next { s with runState := .unsupported .writebackConflict }) ∧
    (∀ p u w l rn rd sh rm, exec (.shiftedRegisterTransfer c p u w l rn rd sh rm) s =
      .next { s with runState := .unsupported .shiftedRegister }) ∧
    (∀ p u w l rn rd, exec (.pcOffsetRegister c p u w l rn rd) s =
      .next { s with runState := .unsupported .pcOffsetRegister }) ∧
    (∀ rest, exec (.blockTransfer c rest) s = .next { s with runState := .unsupported .blockTransfer }) ∧
    (∀ sub rest, exec (.coprocessor c sub rest) s = .next { s with runState := .unsupported .coprocessor })

/-- Each condition code holds exactly on the flags its row of the table names (R100). -/
def Obligations.ConditionTable : Prop :=
  ∀ (b : BitVec 4) (st : Byte),
    let n := st.getLsbD 7
    let z := st.getLsbD 6
    let cy := st.getLsbD 5
    let v := st.getLsbD 4
    (condHolds (Cond.ofCode b) st = true ↔
      (b = 0b0000#4 ∧ z = true) ∨ (b = 0b0001#4 ∧ z = false) ∨ (b = 0b0010#4 ∧ cy = true) ∨ (b = 0b0011#4 ∧ cy = false) ∨
      (b = 0b0100#4 ∧ n = true) ∨ (b = 0b0101#4 ∧ n = false) ∨ (b = 0b0110#4 ∧ v = true) ∨ (b = 0b0111#4 ∧ v = false) ∨
      (b = 0b1000#4 ∧ (cy = true ∧ z = false)) ∨ (b = 0b1001#4 ∧ (cy = false ∨ z = true)) ∨
      (b = 0b1010#4 ∧ n = v) ∨ (b = 0b1011#4 ∧ n ≠ v) ∨
      (b = 0b1100#4 ∧ (z = false ∧ n = v)) ∨ (b = 0b1101#4 ∧ (z = true ∨ n ≠ v)) ∨ b = 0b1110#4)

/-- The odd condition code of a pair is the negation of the even one (R117). -/
def Obligations.ConditionPairsAreNegations : Prop :=
  ∀ (b : BitVec 4) (st : Byte), condHolds (Cond.ofCode (b ^^^ 1#4)) st = !condHolds (Cond.ofCode b) st

/-- An instruction whose condition fails only advances the pc, whatever its row (R203). -/
def Obligations.SkippedInstructionOnlyAdvances : Prop :=
  ∀ (i : Instr) (s : State), condHolds i.cond s.status = false →
    ∃ t, exec i s = .next t ∧ t.pc = s.pc + 4#32 ∧ SameRegs [] s t ∧ SameStatus s t ∧ t.dmem = s.dmem ∧ SameDriver s t

/-- A word whose condition nibble is 1111 is skipped in every running state (R116). -/
def Obligations.NvWordsNeverExecute : Prop :=
  ∀ (s : State) (w : Word), s.runState = .running → s.pc.toNat % 4 = 0 → s.store[s.pc.toNat / 4]? = some w →
    w.extractLsb' 28 4 = 0b1111#4 →
    ∃ t, step s = .next t ∧ t.pc = s.pc + 4#32 ∧ SameRegs [] s t ∧ SameStatus s t ∧ t.dmem = s.dmem ∧ SameDriver s t

/-- AND completes with the result and flags of its rule, and changes nothing else (R140). -/
def Obligations.AndResult : Prop :=
  ∀ (c : Cond) (sf : Bool) (rn rd : Reg) (y : Word) (i : Instr) (s : State),
    ((∃ rot imm8, i = .andImm c sf rn rd rot imm8 ∧ y = (imm8.setWidth 32).rotateRight (2 * rot.toNat)) ∨
      (∃ rm, i = .andReg c sf rn rd rm ∧ y = s.opnd rm)) →
    condHolds c s.status = true →
    ∃ t, exec i s = .next t ∧ WritesRd sf rd (s.opnd rn &&& y) (LogicalFlags (s.opnd rn &&& y)) s t

/-- EOR completes with the result and flags of its rule, and changes nothing else (R141). -/
def Obligations.EorResult : Prop :=
  ∀ (c : Cond) (sf : Bool) (rn rd : Reg) (y : Word) (i : Instr) (s : State),
    ((∃ rot imm8, i = .eorImm c sf rn rd rot imm8 ∧ y = (imm8.setWidth 32).rotateRight (2 * rot.toNat)) ∨
      (∃ rm, i = .eorReg c sf rn rd rm ∧ y = s.opnd rm)) →
    condHolds c s.status = true →
    ∃ t, exec i s = .next t ∧ WritesRd sf rd (s.opnd rn ^^^ y) (LogicalFlags (s.opnd rn ^^^ y)) s t

/-- SUB completes with the result and flags of its rule, and changes nothing else (R142). -/
def Obligations.SubResult : Prop :=
  ∀ (c : Cond) (sf : Bool) (rn rd : Reg) (y : Word) (i : Instr) (s : State),
    ((∃ rot imm8, i = .subImm c sf rn rd rot imm8 ∧ y = (imm8.setWidth 32).rotateRight (2 * rot.toNat)) ∨
      (∃ rm, i = .subReg c sf rn rd rm ∧ y = s.opnd rm)) →
    condHolds c s.status = true →
    ∃ t, exec i s = .next t ∧ WritesRd sf rd (s.opnd rn - y) (ArithFlags (s.opnd rn - y)
      (y.toNat ≤ (s.opnd rn).toNat) ((s.opnd rn).toInt - y.toInt)) s t

/-- RSB completes with the result and flags of its rule, and changes nothing else (R143). -/
def Obligations.RsbResult : Prop :=
  ∀ (c : Cond) (sf : Bool) (rn rd : Reg) (y : Word) (i : Instr) (s : State),
    ((∃ rot imm8, i = .rsbImm c sf rn rd rot imm8 ∧ y = (imm8.setWidth 32).rotateRight (2 * rot.toNat)) ∨
      (∃ rm, i = .rsbReg c sf rn rd rm ∧ y = s.opnd rm)) →
    condHolds c s.status = true →
    ∃ t, exec i s = .next t ∧ WritesRd sf rd (y - s.opnd rn) (ArithFlags (y - s.opnd rn)
      ((s.opnd rn).toNat ≤ y.toNat) (y.toInt - (s.opnd rn).toInt)) s t

/-- ADD completes with the result and flags of its rule, and changes nothing else (R144). -/
def Obligations.AddResult : Prop :=
  ∀ (c : Cond) (sf : Bool) (rn rd : Reg) (y : Word) (i : Instr) (s : State),
    ((∃ rot imm8, i = .addImm c sf rn rd rot imm8 ∧ y = (imm8.setWidth 32).rotateRight (2 * rot.toNat)) ∨
      (∃ rm, i = .addReg c sf rn rd rm ∧ y = s.opnd rm)) →
    condHolds c s.status = true →
    ∃ t, exec i s = .next t ∧ WritesRd sf rd (s.opnd rn + y) (ArithFlags (s.opnd rn + y)
      (2 ^ 32 ≤ (s.opnd rn).toNat + y.toNat) ((s.opnd rn).toInt + y.toInt)) s t

/-- ADC completes with the result and flags of its rule, and changes nothing else (R145). -/
def Obligations.AdcResult : Prop :=
  ∀ (c : Cond) (sf : Bool) (rn rd : Reg) (y : Word) (k : Nat) (i : Instr) (s : State),
    ((∃ rot imm8, i = .adcImm c sf rn rd rot imm8 ∧ y = (imm8.setWidth 32).rotateRight (2 * rot.toNat)) ∨
      (∃ rm, i = .adcReg c sf rn rd rm ∧ y = s.opnd rm)) →
    k = (if s.status.getLsbD 5 then 1 else 0) →
    condHolds c s.status = true →
    ∃ t, exec i s = .next t ∧ WritesRd sf rd (s.opnd rn + y + BitVec.ofNat 32 k) (ArithFlags (s.opnd rn + y + BitVec.ofNat 32 k)
      (2 ^ 32 ≤ (s.opnd rn).toNat + y.toNat + k) ((s.opnd rn).toInt + y.toInt + k)) s t

/-- SBC completes with the result and flags of its rule, and changes nothing else (R146). -/
def Obligations.SbcResult : Prop :=
  ∀ (c : Cond) (sf : Bool) (rn rd : Reg) (y : Word) (k : Nat) (i : Instr) (s : State),
    ((∃ rot imm8, i = .sbcImm c sf rn rd rot imm8 ∧ y = (imm8.setWidth 32).rotateRight (2 * rot.toNat)) ∨
      (∃ rm, i = .sbcReg c sf rn rd rm ∧ y = s.opnd rm)) →
    k = (if s.status.getLsbD 5 then 1 else 0) →
    condHolds c s.status = true →
    ∃ t, exec i s = .next t ∧ WritesRd sf rd (s.opnd rn - y - BitVec.ofNat 32 (1 - k)) (ArithFlags (s.opnd rn - y - BitVec.ofNat 32 (1 - k))
      (y.toNat + (1 - k) ≤ (s.opnd rn).toNat) ((s.opnd rn).toInt - y.toInt - (1 - k : Nat))) s t

/-- RSC completes with the result and flags of its rule, and changes nothing else (R147). -/
def Obligations.RscResult : Prop :=
  ∀ (c : Cond) (sf : Bool) (rn rd : Reg) (y : Word) (k : Nat) (i : Instr) (s : State),
    ((∃ rot imm8, i = .rscImm c sf rn rd rot imm8 ∧ y = (imm8.setWidth 32).rotateRight (2 * rot.toNat)) ∨
      (∃ rm, i = .rscReg c sf rn rd rm ∧ y = s.opnd rm)) →
    k = (if s.status.getLsbD 5 then 1 else 0) →
    condHolds c s.status = true →
    ∃ t, exec i s = .next t ∧ WritesRd sf rd (y - s.opnd rn - BitVec.ofNat 32 (1 - k)) (ArithFlags (y - s.opnd rn - BitVec.ofNat 32 (1 - k))
      ((s.opnd rn).toNat + (1 - k) ≤ y.toNat) (y.toInt - (s.opnd rn).toInt - (1 - k : Nat))) s t

/-- TST completes with the result and flags of its rule, and changes nothing else (R148). -/
def Obligations.TstResult : Prop :=
  ∀ (c : Cond) (sf : Bool) (rn rd : Reg) (y : Word) (i : Instr) (s : State),
    ((∃ rot imm8, i = .tstImm c sf rn rd rot imm8 ∧ y = (imm8.setWidth 32).rotateRight (2 * rot.toNat)) ∨
      (∃ rm, i = .tstReg c sf rn rd rm ∧ y = s.opnd rm)) →
    condHolds c s.status = true →
    ∃ t, exec i s = .next t ∧ WritesFlagsOnly sf (LogicalFlags (s.opnd rn &&& y)) s t

/-- TEQ completes with the result and flags of its rule, and changes nothing else (R149). -/
def Obligations.TeqResult : Prop :=
  ∀ (c : Cond) (sf : Bool) (rn rd : Reg) (y : Word) (i : Instr) (s : State),
    ((∃ rot imm8, i = .teqImm c sf rn rd rot imm8 ∧ y = (imm8.setWidth 32).rotateRight (2 * rot.toNat)) ∨
      (∃ rm, i = .teqReg c sf rn rd rm ∧ y = s.opnd rm)) →
    condHolds c s.status = true →
    ∃ t, exec i s = .next t ∧ WritesFlagsOnly sf (LogicalFlags (s.opnd rn ^^^ y)) s t

/-- CMP completes with the result and flags of its rule, and changes nothing else (R150). -/
def Obligations.CmpResult : Prop :=
  ∀ (c : Cond) (sf : Bool) (rn rd : Reg) (y : Word) (i : Instr) (s : State),
    ((∃ rot imm8, i = .cmpImm c sf rn rd rot imm8 ∧ y = (imm8.setWidth 32).rotateRight (2 * rot.toNat)) ∨
      (∃ rm, i = .cmpReg c sf rn rd rm ∧ y = s.opnd rm)) →
    condHolds c s.status = true →
    ∃ t, exec i s = .next t ∧ WritesFlagsOnly sf (ArithFlags (s.opnd rn - y)
      (y.toNat ≤ (s.opnd rn).toNat) ((s.opnd rn).toInt - y.toInt)) s t

/-- CMN completes with the result and flags of its rule, and changes nothing else (R151). -/
def Obligations.CmnResult : Prop :=
  ∀ (c : Cond) (sf : Bool) (rn rd : Reg) (y : Word) (i : Instr) (s : State),
    ((∃ rot imm8, i = .cmnImm c sf rn rd rot imm8 ∧ y = (imm8.setWidth 32).rotateRight (2 * rot.toNat)) ∨
      (∃ rm, i = .cmnReg c sf rn rd rm ∧ y = s.opnd rm)) →
    condHolds c s.status = true →
    ∃ t, exec i s = .next t ∧ WritesFlagsOnly sf (ArithFlags (s.opnd rn + y)
      (2 ^ 32 ≤ (s.opnd rn).toNat + y.toNat) ((s.opnd rn).toInt + y.toInt)) s t

/-- ORR completes with the result and flags of its rule, and changes nothing else (R152). -/
def Obligations.OrrResult : Prop :=
  ∀ (c : Cond) (sf : Bool) (rn rd : Reg) (y : Word) (i : Instr) (s : State),
    ((∃ rot imm8, i = .orrImm c sf rn rd rot imm8 ∧ y = (imm8.setWidth 32).rotateRight (2 * rot.toNat)) ∨
      (∃ rm, i = .orrReg c sf rn rd rm ∧ y = s.opnd rm)) →
    condHolds c s.status = true →
    ∃ t, exec i s = .next t ∧ WritesRd sf rd (s.opnd rn ||| y) (LogicalFlags (s.opnd rn ||| y)) s t

/-- MOV completes with the result and flags of its rule, and changes nothing else (R153). -/
def Obligations.MovResult : Prop :=
  ∀ (c : Cond) (sf : Bool) (rn rd : Reg) (y : Word) (i : Instr) (s : State),
    ((∃ rot imm8, i = .movImm c sf rn rd rot imm8 ∧ y = (imm8.setWidth 32).rotateRight (2 * rot.toNat)) ∨
      (∃ rm, i = .movReg c sf rn rd rm ∧ y = s.opnd rm)) →
    condHolds c s.status = true →
    ∃ t, exec i s = .next t ∧ WritesRd sf rd y (LogicalFlags y) s t

/-- BIC completes with the result and flags of its rule, and changes nothing else (R154). -/
def Obligations.BicResult : Prop :=
  ∀ (c : Cond) (sf : Bool) (rn rd : Reg) (y : Word) (i : Instr) (s : State),
    ((∃ rot imm8, i = .bicImm c sf rn rd rot imm8 ∧ y = (imm8.setWidth 32).rotateRight (2 * rot.toNat)) ∨
      (∃ rm, i = .bicReg c sf rn rd rm ∧ y = s.opnd rm)) →
    condHolds c s.status = true →
    ∃ t, exec i s = .next t ∧ WritesRd sf rd (s.opnd rn &&& ~~~y) (LogicalFlags (s.opnd rn &&& ~~~y)) s t

/-- MVN completes with the result and flags of its rule, and changes nothing else (R155). -/
def Obligations.MvnResult : Prop :=
  ∀ (c : Cond) (sf : Bool) (rn rd : Reg) (y : Word) (i : Instr) (s : State),
    ((∃ rot imm8, i = .mvnImm c sf rn rd rot imm8 ∧ y = (imm8.setWidth 32).rotateRight (2 * rot.toNat)) ∨
      (∃ rm, i = .mvnReg c sf rn rd rm ∧ y = s.opnd rm)) →
    condHolds c s.status = true →
    ∃ t, exec i s = .next t ∧ WritesRd sf rd (~~~y) (LogicalFlags (~~~y)) s t

/-- TST, TEQ, CMP and CMN with S = 0 only advance the pc (R126). -/
def Obligations.TestsWithoutUpdateOnlyAdvance : Prop :=
  ∀ (c : Cond) (rn rd rm : Reg) (rot : BitVec 4) (imm8 : Byte) (i : Instr) (s : State),
    (i = .tstImm c false rn rd rot imm8 ∨ i = .tstReg c false rn rd rm ∨ i = .teqImm c false rn rd rot imm8 ∨
      i = .teqReg c false rn rd rm ∨ i = .cmpImm c false rn rd rot imm8 ∨ i = .cmpReg c false rn rd rm ∨
      i = .cmnImm c false rn rd rot imm8 ∨ i = .cmnReg c false rn rd rm) →
    condHolds c s.status = true →
    exec i s = .next { s with regs := s.regs.set 15 (s.pc + 4#32) }

/-- R15 as a source reads as A + 8 (R23), in the register form of ORR with S = 0 and in the immediate-offset form of STR and LDR
(P = 1, U = 1, W = 0), under AL. The other forms read their sources through `State.opnd` in their own statements. -/
def Obligations.PcReadsAsAPlusEight : Prop :=
  ∀ (s : State) (v : Reg → Word), (∀ r, v r = if r = pcReg then s.pc + 8#32 else s.readReg r) →
    (∀ rn rd rm : Reg, rd ≠ pcReg →
      ∃ t, exec (.orrReg .al false rn rd rm) s = .next t ∧ t.readReg rd = (v rn ||| v rm)) ∧
    (∀ (rn rd : Reg) (off12 : BitVec 12), (v rn + off12.setWidth 32).toNat % 4 = 0 →
      (v rn + off12.setWidth 32).toNat + 4 ≤ s.cfg.dataMemBytes → Memory.wf s.dmem = true →
      (∃ t, exec (.strImm .al true true false rn rd off12) s = .next t ∧
        ∀ k, k < 4 → Memory.readByte t.dmem ((v rn + off12.setWidth 32).toNat + k) = (v rd).extractLsb' (8 * k) 8) ∧
      (rd ≠ pcReg → ∃ t, exec (.ldrImm .al true true false rn rd off12) s = .next t ∧
        ∀ k, k < 4 → (t.readReg rd).extractLsb' (8 * k) 8 = Memory.readByte s.dmem ((v rn + off12.setWidth 32).toNat + k)))

/-- B goes to A + 8 plus four times its signed offset and changes only the pc (R160). -/
def Obligations.BranchResult : Prop :=
  ∀ (c : Cond) (imm24 : BitVec 24) (s : State), condHolds c s.status = true →
    ∃ t, exec (.b c imm24) s = .next t ∧ t.pc = s.pc + 8#32 + BitVec.ofInt 32 (4 * imm24.toInt) ∧
      SameRegs [] s t ∧ SameStatus s t ∧ t.dmem = s.dmem ∧ SameDriver s t ∧
      (s.pc.toNat % 4 = 0 → t.pc.toNat % 4 = 0) ∧
      (s.runState = .running → s.pc.toNat % 4 = 0 → s.count ≤ t.pc.toNat / 4 → step t = .next { t with runState := .halted }) ∧
      (imm24 = 0xFFFFFE#24 → t.pc = s.pc) ∧ (imm24 = 0xFFFFFF#24 → t.pc = s.pc + 4#32)

/-- BL saves A + 4 in R14 and goes to A + 8 plus four times its signed offset, and R14 is written even when the target halts the
run (R161). When a target halts is R201's: at or beyond the loaded words, also for a target that wrapped (log entry 15). -/
def Obligations.BranchWithLinkResult : Prop :=
  ∀ (c : Cond) (imm24 : BitVec 24) (s : State), condHolds c s.status = true →
    ∃ t, exec (.bl c imm24) s = .next t ∧ t.readReg lrReg = s.pc + 4#32 ∧
      t.pc = s.pc + 8#32 + BitVec.ofInt 32 (4 * imm24.toInt) ∧
      SameRegs [lrReg] s t ∧ SameStatus s t ∧ t.dmem = s.dmem ∧ SameDriver s t ∧
      (s.runState = .running → s.pc.toNat % 4 = 0 → s.count ≤ t.pc.toNat / 4 → step t = .next { t with runState := .halted })

/-- LDR completes: the little-endian word at the effective address goes to Rd or to the pc, and the base is written back (R171, R170, R173, R174, R175, R53). -/
def Obligations.LoadWordResult : Prop :=
  ∀ (c : Cond) (p u w : Bool) (rn rd : Reg) (off moved addr : Word) (i : Instr) (s : State),
    ((∃ off12, i = .ldrImm c p u w rn rd off12 ∧ off = off12.setWidth 32) ∨
      (∃ rm, rm ≠ pcReg ∧ i = .ldrReg c p u w rn rd rm ∧ off = s.readReg rm)) →
    AdmittedMode p w rn rd →
    moved = (if u then s.opnd rn + off else s.opnd rn - off) →
    addr = (if p then moved else s.opnd rn) →
    condHolds c s.status = true → addr.toNat % 4 = 0 → addr.toNat + 4 ≤ s.cfg.dataMemBytes →
    ∃ t v, exec i s = .next t ∧
      (∀ k, k < 4 → v.extractLsb' (8 * k) 8 = Memory.readByte s.dmem (addr.toNat + k)) ∧
      (rd ≠ pcReg → t.readReg rd = v ∧ t.pc = s.pc + 4#32) ∧ (rd = pcReg → t.pc = v) ∧
      (WritesBack p w → t.readReg rn = moved) ∧
      SameRegs (if WritesBack p w then [rd, rn] else [rd]) s t ∧ SameStatus s t ∧ SameMemory s t ∧ SameDriver s t

/-- STR completes: the four bytes at the effective address become those of Rd, the base is written back, nothing else changes (R172, R170, R173, R174, R175, R54). -/
def Obligations.StoreWordResult : Prop :=
  ∀ (c : Cond) (p u w : Bool) (rn rd : Reg) (off moved addr : Word) (i : Instr) (s : State),
    ((∃ off12, i = .strImm c p u w rn rd off12 ∧ off = off12.setWidth 32) ∨
      (∃ rm, rm ≠ pcReg ∧ i = .strReg c p u w rn rd rm ∧ off = s.readReg rm)) →
    AdmittedMode p w rn rd →
    moved = (if u then s.opnd rn + off else s.opnd rn - off) →
    addr = (if p then moved else s.opnd rn) →
    condHolds c s.status = true → addr.toNat % 4 = 0 → addr.toNat + 4 ≤ s.cfg.dataMemBytes → Memory.wf s.dmem = true →
    ∃ t, exec i s = .next t ∧
      (∀ k, k < 4 → Memory.readByte t.dmem (addr.toNat + k) = (s.opnd rd).extractLsb' (8 * k) 8) ∧
      (∀ a, (a < addr.toNat ∨ addr.toNat + 4 ≤ a) → Memory.readByte t.dmem a = Memory.readByte s.dmem a) ∧
      Memory.wf t.dmem = true ∧ t.pc = s.pc + 4#32 ∧
      (WritesBack p w → t.readReg rn = moved) ∧
      SameRegs (if WritesBack p w then [rn] else []) s t ∧ SameStatus s t ∧ SameDriver s t

/-- A load or store at a misaligned address faults and changes nothing else (R57). -/
def Obligations.MisalignedTransferFaults : Prop :=
  ∀ (c : Cond) (p u w : Bool) (rn rd : Reg) (off addr : Word) (i : Instr) (s : State),
    ((∃ off12, (i = .ldrImm c p u w rn rd off12 ∨ i = .strImm c p u w rn rd off12) ∧ off = off12.setWidth 32) ∨
      (∃ rm, rm ≠ pcReg ∧ (i = .ldrReg c p u w rn rd rm ∨ i = .strReg c p u w rn rd rm) ∧ off = s.readReg rm)) →
    AdmittedMode p w rn rd →
    addr = (if p then (if u then s.opnd rn + off else s.opnd rn - off) else s.opnd rn) →
    condHolds c s.status = true →
    addr.extractLsb' 0 2 ≠ 0b00#2 →
    exec i s = .next { s with runState := .faulted .dataMisaligned }

/-- A load or store at an aligned address past the data memory faults and changes nothing else (R58). -/
def Obligations.OutOfRangeTransferFaults : Prop :=
  ∀ (c : Cond) (p u w : Bool) (rn rd : Reg) (off addr : Word) (i : Instr) (s : State),
    ((∃ off12, (i = .ldrImm c p u w rn rd off12 ∨ i = .strImm c p u w rn rd off12) ∧ off = off12.setWidth 32) ∨
      (∃ rm, rm ≠ pcReg ∧ (i = .ldrReg c p u w rn rd rm ∨ i = .strReg c p u w rn rd rm) ∧ off = s.readReg rm)) →
    AdmittedMode p w rn rd →
    addr = (if p then (if u then s.opnd rn + off else s.opnd rn - off) else s.opnd rn) →
    condHolds c s.status = true →
    addr.extractLsb' 0 2 = 0b00#2 → addr.toNat + 4 > s.cfg.dataMemBytes →
    exec i s = .next { s with runState := .faulted .dataOutOfRange }

/-- A word stored by STR and loaded by LDR at the same address is the same word (R56, R53, R54). -/
def Obligations.StoreThenLoadReturnsTheWord : Prop :=
  ∀ (rn rd re : Reg) (s : State), Memory.wf s.dmem = true → rn ≠ pcReg → re ≠ pcReg →
    (s.readReg rn).toNat % 4 = 0 → (s.readReg rn).toNat + 4 ≤ s.cfg.dataMemBytes →
    ∃ t u, exec (.strImm .al true true false rn rd 0#12) s = .next t ∧
      exec (.ldrImm .al true true false rn re 0#12) t = .next u ∧ u.readReg re = s.opnd rd

/-- SWI saves the status and the return address, sets I and goes to INT_VECTOR (R190, R192). -/
def Obligations.SwiEntersTheHandler : Prop :=
  ∀ (c : Cond) (comment : BitVec 24) (s : State), condHolds c s.status = true →
    ∃ t, exec (.swi c comment) s = .next t ∧ t.savedStatus = s.status ∧ t.readReg lrReg = s.pc + 4#32 ∧
      t.status.getLsbD 3 = true ∧ (∀ n, n < 8 → n ≠ 3 → t.status.getLsbD n = s.status.getLsbD n) ∧
      t.pc = s.cfg.intVector ∧ SameRegs [lrReg] s t ∧ t.dmem = s.dmem ∧ SameDriver s t ∧
      (s.runState = .running → s.cfg.intVector.toNat % 4 = 0 → s.count ≤ s.cfg.intVector.toNat / 4 →
        step t = .next { t with runState := .halted }) ∧
      (s.runState = .running → s.cfg.intVector.toNat % 4 ≠ 0 → step t = .next { t with runState := .faulted .fetchMisaligned })

/-- MOVS PC, LR goes to R14 and restores Status; MOV PC, LR only goes to R14 (R226, R124). -/
def Obligations.MovsPcLrReturns : Prop :=
  ∀ s : State,
    exec (decode 0xE1B0F00E#32) s =
      .next { s with regs := s.regs.set 15 (s.readReg lrReg), status := s.savedStatus } ∧
    exec (decode 0xE1A0F00E#32) s = .next { s with regs := s.regs.set 15 (s.readReg lrReg) }

/-- An SWI followed at once by MOVS PC, LR resumes after the SWI with the status the SWI saw (R190, R226, R124). A handler with a
body, which may overwrite R14 or SavedStatus (R193), is not spoken of. -/
def Obligations.SwiThenReturnResumes : Prop :=
  ∀ (comment : BitVec 24) (s : State),
    ∃ t u, exec (.swi .al comment) s = .next t ∧ exec (.movReg .al true 0#4 pcReg lrReg) t = .next u ∧
      u.pc = s.pc + 4#32 ∧ u.status = s.status ∧ SameRegs [lrReg] s u ∧ u.dmem = s.dmem ∧ SameDriver s u

/-- A running machine faults on a misaligned pc and, if it is aligned, halts past the last loaded word (R201, R224). -/
def Obligations.FetchFaultsOrHalts : Prop :=
  ∀ s : State, s.runState = .running →
    (s.pc.extractLsb' 0 2 ≠ 0b00#2 → step s = .next { s with runState := .faulted .fetchMisaligned }) ∧
    (s.pc.extractLsb' 0 2 = 0b00#2 → s.store.length ≤ s.pc.toNat / 4 → step s = .next { s with runState := .halted })

/-- A running machine with an aligned pc at a loaded word executes the instruction that word decodes to (R201, R202, R203, R204). -/
def Obligations.StepRunsTheDecodedInstruction : Prop :=
  ∀ (s : State) (w : Word) (i : Instr), s.runState = .running → s.pc.toNat % 4 = 0 → s.store[s.pc.toNat / 4]? = some w →
    decode w = i → i.WellFormed → step s = exec i s

/-- A step in a terminal state answers that very state, and run() does nothing there (R209). The rule says that no step leaves such a
state; that `step` answers the same state is the model's DESIGN CHOICE (log entry 3). -/
def Obligations.TerminalStatesStay : Prop :=
  ∀ s : State, (s.runState = .halted ∨ (∃ f, s.runState = .faulted f) ∨ ∃ r, s.runState = .unsupported r) →
    step s = .next s ∧ s.hostRun = s

/-- Every state has exactly one next state: no step ends in a fault or refusal of the model. R207, R205 and R206 say so of a Running
state; that `step` answers a next state outside Running too is the model's DESIGN CHOICE (log entry 3). -/
def Obligations.EveryStepHasANextState : Prop :=
  ∀ s : State, ∃ t, step s = .next t ∧ ∀ u, step s = .next u → u = t

/-- An instruction that ends the run changes nothing but the run state (R205, R206). -/
def Obligations.FaultsAndUnsupportedArePrecise : Prop :=
  (∀ (i : Instr) (s t : State), exec i s = .next t → t.runState ≠ s.runState →
    t = { s with runState := t.runState } ∧ ((∃ f, t.runState = .faulted f) ∨ ∃ r, t.runState = .unsupported r)) ∧
  (∀ s t : State, step s = .next t → t.runState ≠ s.runState →
    t = { s with runState := t.runState } ∧
      ((∃ f, t.runState = .faulted f) ∨ (∃ r, t.runState = .unsupported r) ∨ t.runState = .halted))

/-- No instruction and no step changes the Instruction Store, its count or the configuration (R31). -/
def Obligations.InstructionStoreIsReadOnly : Prop :=
  (∀ (i : Instr) (s t : State), exec i s = .next t → t.store = s.store ∧ t.count = s.count ∧ t.cfg = s.cfg) ∧
  (∀ s t : State, step s = .next t → t.store = s.store ∧ t.count = s.count ∧ t.cfg = s.cfg)

/-- An instruction other than LDR and STR neither reads nor writes the data memory, nor does the host, and it starts all zero (R51). -/
def Obligations.OnlyTransfersReachDataMemory : Prop :=
  (∀ (i : Instr) (s : State) (m : List Host.Cell), isTransfer i = false →
    ∃ t, exec i s = .next t ∧ t.dmem = s.dmem ∧ exec i { s with dmem := m } = .next { t with dmem := m }) ∧
  (∀ (i : Instr) (s t : State), isStore i = false → exec i s = .next t → t.dmem = s.dmem) ∧
  (∀ (s : State) (w : Word), (s.hostLoad w).dmem = s.dmem ∧ s.hostRun.dmem = s.dmem) ∧
  (∀ (cfg : Config) (a : Nat), Memory.readByte (State.create cfg).dmem a = 0#8)

/-- N, Z, C and V change only in an ALU instruction with S = 1; SWI changes only I (R26). -/
def Obligations.FlagsChangeOnlyWithUpdateBit : Prop :=
  ∀ (i : Instr) (s t : State), exec i s = .next t →
    (updatesStatus i = false → isSwi i = false → t.status = s.status) ∧
    (condHolds i.cond s.status = false → t.status = s.status) ∧
    (t.runState ≠ s.runState → t.status = s.status) ∧
    (isSwi i = true → ∀ n, n < 8 → n ≠ 3 → t.status.getLsbD n = s.status.getLsbD n)

/-- Only SWI writes SavedStatus, and only an ALU write of R15 with S = 1 reads it (R28). -/
def Obligations.SavedStatusIsTheInterrupts : Prop :=
  ∀ (i : Instr) (s t : State), exec i s = .next t →
    (isSwi i = false ∨ condHolds i.cond s.status = false → t.savedStatus = s.savedStatus) ∧
    (isSwi i = true → condHolds i.cond s.status = true → t.savedStatus = s.status) ∧
    (restoresStatus i = false → ∀ x : Byte, ∃ u, exec i { s with savedStatus := x } = .next u ∧
      u.regs = t.regs ∧ u.status = t.status ∧ u.dmem = t.dmem ∧ u.runState = t.runState)

/-- An instruction writes no register but its destinations and the pc; R14 implicitly only by BL and SWI (R21, R22, R121, R171, R172). -/
def Obligations.OnlyNamedRegistersAreWritten : Prop :=
  ∀ (i : Instr) (s t : State), exec i s = .next t → SameRegs (mayWrite i) s t

/-- Every step from a state that meets the invariant ends in one that meets it (R8, R30, R50, R54, R232). -/
def Obligations.StepKeepsTheInvariant : Prop :=
  ∀ s t : State, Inv s → step s = .next t → Inv t

/-- A machine created with legal parameters meets the invariant, and so does the reset state (R35, R250, R8). -/
def Obligations.CreationMeetsTheInvariant : Prop :=
  (∀ cfg : Config, cfg.Legal → Inv (State.create cfg)) ∧ Inv State.reset

/-- load and run keep the invariant, a load into a full store included (R252, R253, R30). -/
def Obligations.HostCallsKeepTheInvariant : Prop :=
  ∀ (s : State) (w : Word), Inv s → Inv (s.hostLoad w) ∧ Inv s.hostRun

/-- F and M are 0 in every reachable state, and no instruction decides anything by I, F or M (R232). -/
def Obligations.ReachableStatesKeepFAndMClear : Prop :=
  (∀ s : State, Reachable s → FAndModeClear s.status ∧ FAndModeClear s.savedStatus) ∧
  (∀ (i : Instr) (s t : State) (x : Byte), exec i s = .next t → x.extractLsb' 4 4 = s.status.extractLsb' 4 4 →
    ∃ u, exec i { s with status := x } = .next u ∧ u.regs = t.regs ∧ u.dmem = t.dmem ∧ u.runState = t.runState ∧
      u.status.extractLsb' 4 4 = t.status.extractLsb' 4 4)

/-- Every piece of state has its reset value at creation (R35). -/
def Obligations.CreationValues : Prop :=
  ∀ cfg : Config,
    (∀ r : Reg, (State.create cfg).readReg r = 0#32) ∧ (State.create cfg).pc = 0#32 ∧ (State.create cfg).status = 0x00#8 ∧
    (State.create cfg).savedStatus = 0x00#8 ∧ (State.create cfg).count = 0 ∧
    (∀ a, Memory.readByte (State.create cfg).dmem a = 0x00#8) ∧ (State.create cfg).runState = .loading ∧
    (State.create cfg).cfg = cfg

/-- load(w) appends a word in Loading, and faults when the store is full or the run has begun (R252). -/
def Obligations.LoadAppendsOrFaults : Prop :=
  ∀ (s : State) (w : Word),
    ((∃ f, s.runState = .faulted f) → s.hostLoad w = s ∧ s.hostRun = s) ∧
    (s.runState = .running ∨ s.runState = .halted ∨ (∃ r, s.runState = .unsupported r) →
      s.hostLoad w = { s with runState := .faulted .loadAfterRun }) ∧
    (s.runState = .loading → s.count = s.cfg.storeCapacity → s.hostLoad w = { s with runState := .faulted .storeOverflow }) ∧
    (s.runState = .loading → s.count ≠ s.cfg.storeCapacity →
      (s.hostLoad w).count = s.count + 1 ∧ (s.hostLoad w).store[s.count]? = some w ∧
      (∀ k, k < s.count → (s.hostLoad w).store[k]? = s.store[k]?) ∧ s.hostLoad w = { s with store := (s.hostLoad w).store })

/-- run() turns Loading into Running and does nothing in any other run state (R253, R208). -/
def Obligations.RunEntersRunningOnce : Prop :=
  ∀ s : State, (s.runState = .loading → s.hostRun = { s with runState := .running }) ∧
    (s.runState ≠ .loading → s.hostRun = s)

/-- Loading a program that fits puts word i at slot i and changes nothing else (R30, R52, R255, R252). -/
def Obligations.LoadedProgramStandsInOrder : Prop :=
  ∀ (cfg : Config) (ws : List Word), ws.length ≤ cfg.storeCapacity →
    (State.create cfg).hostLoadAll ws = { State.create cfg with store := ws }

/-- After run() the first step executes the first loaded word at address 0, or halts if none was loaded (R251). -/
def Obligations.RunStartsAtTheFirstWord : Prop :=
  ∀ (cfg : Config) (ws : List Word) (s : State), ws.length ≤ cfg.storeCapacity →
    s = ((State.create cfg).hostLoadAll ws).hostRun →
    s.pc = 0x00000000#32 ∧ flagIsSet .I s.status = false ∧ flagIsSet .F s.status = false ∧
    (∀ w rest, ws = w :: rest → step s = exec (decode w) s) ∧
    (ws = [] → step s = .next { s with runState := .halted })

/-- MOV R0, R0 (0xE1A00000) does nothing but advance the pc (R88, R153). -/
def Obligations.MovR0R0OnlyAdvances : Prop :=
  ∀ s : State, exec (decode 0xE1A00000#32) s = .next { s with regs := s.regs.set 15 (s.pc + 4#32) }
end

