-- ==== Sys2Proof/Laws/State.lean ====
section
/-! SUPPORT. What each state update leaves in each field, and what a register reads after it. -/

namespace Sys2Proof.Machine

/-! ### writeReg -/

@[simp] theorem State.cfg_writeReg (s : State) (i : Reg) (v : Word) : (s.writeReg i v).cfg = s.cfg := rfl
@[simp] theorem State.status_writeReg (s : State) (i : Reg) (v : Word) : (s.writeReg i v).status = s.status := rfl
@[simp] theorem State.savedStatus_writeReg (s : State) (i : Reg) (v : Word) : (s.writeReg i v).savedStatus = s.savedStatus := rfl
@[simp] theorem State.store_writeReg (s : State) (i : Reg) (v : Word) : (s.writeReg i v).store = s.store := rfl
@[simp] theorem State.dmem_writeReg (s : State) (i : Reg) (v : Word) : (s.writeReg i v).dmem = s.dmem := rfl
@[simp] theorem State.runState_writeReg (s : State) (i : Reg) (v : Word) : (s.writeReg i v).runState = s.runState := rfl

/-! ### setPc -/

@[simp] theorem State.cfg_setPc (s : State) (v : Word) : (s.setPc v).cfg = s.cfg := rfl
@[simp] theorem State.status_setPc (s : State) (v : Word) : (s.setPc v).status = s.status := rfl
@[simp] theorem State.savedStatus_setPc (s : State) (v : Word) : (s.setPc v).savedStatus = s.savedStatus := rfl
@[simp] theorem State.store_setPc (s : State) (v : Word) : (s.setPc v).store = s.store := rfl
@[simp] theorem State.dmem_setPc (s : State) (v : Word) : (s.setPc v).dmem = s.dmem := rfl
@[simp] theorem State.runState_setPc (s : State) (v : Word) : (s.setPc v).runState = s.runState := rfl

/-! ### setStatus -/

@[simp] theorem State.cfg_setStatus (s : State) (v : Byte) : (s.setStatus v).cfg = s.cfg := rfl
@[simp] theorem State.regs_setStatus (s : State) (v : Byte) : (s.setStatus v).regs = s.regs := rfl
@[simp] theorem State.status_setStatus (s : State) (v : Byte) : (s.setStatus v).status = v := rfl
@[simp] theorem State.savedStatus_setStatus (s : State) (v : Byte) : (s.setStatus v).savedStatus = s.savedStatus := rfl
@[simp] theorem State.store_setStatus (s : State) (v : Byte) : (s.setStatus v).store = s.store := rfl
@[simp] theorem State.dmem_setStatus (s : State) (v : Byte) : (s.setStatus v).dmem = s.dmem := rfl
@[simp] theorem State.runState_setStatus (s : State) (v : Byte) : (s.setStatus v).runState = s.runState := rfl
@[simp] theorem State.readReg_setStatus (s : State) (v : Byte) (j : Reg) : (s.setStatus v).readReg j = s.readReg j := rfl
@[simp] theorem State.pc_setStatus (s : State) (v : Byte) : (s.setStatus v).pc = s.pc := rfl

/-! ### setSaved -/

@[simp] theorem State.cfg_setSaved (s : State) (v : Byte) : (s.setSaved v).cfg = s.cfg := rfl
@[simp] theorem State.regs_setSaved (s : State) (v : Byte) : (s.setSaved v).regs = s.regs := rfl
@[simp] theorem State.status_setSaved (s : State) (v : Byte) : (s.setSaved v).status = s.status := rfl
@[simp] theorem State.savedStatus_setSaved (s : State) (v : Byte) : (s.setSaved v).savedStatus = v := rfl
@[simp] theorem State.store_setSaved (s : State) (v : Byte) : (s.setSaved v).store = s.store := rfl
@[simp] theorem State.dmem_setSaved (s : State) (v : Byte) : (s.setSaved v).dmem = s.dmem := rfl
@[simp] theorem State.runState_setSaved (s : State) (v : Byte) : (s.setSaved v).runState = s.runState := rfl
@[simp] theorem State.readReg_setSaved (s : State) (v : Byte) (j : Reg) : (s.setSaved v).readReg j = s.readReg j := rfl
@[simp] theorem State.pc_setSaved (s : State) (v : Byte) : (s.setSaved v).pc = s.pc := rfl

/-! ### setMem -/

@[simp] theorem State.cfg_setMem (s : State) (m : List Host.Cell) : (s.setMem m).cfg = s.cfg := rfl
@[simp] theorem State.regs_setMem (s : State) (m : List Host.Cell) : (s.setMem m).regs = s.regs := rfl
@[simp] theorem State.status_setMem (s : State) (m : List Host.Cell) : (s.setMem m).status = s.status := rfl
@[simp] theorem State.savedStatus_setMem (s : State) (m : List Host.Cell) : (s.setMem m).savedStatus = s.savedStatus := rfl
@[simp] theorem State.store_setMem (s : State) (m : List Host.Cell) : (s.setMem m).store = s.store := rfl
@[simp] theorem State.dmem_setMem (s : State) (m : List Host.Cell) : (s.setMem m).dmem = m := rfl
@[simp] theorem State.runState_setMem (s : State) (m : List Host.Cell) : (s.setMem m).runState = s.runState := rfl
@[simp] theorem State.readReg_setMem (s : State) (m : List Host.Cell) (j : Reg) : (s.setMem m).readReg j = s.readReg j := rfl
@[simp] theorem State.pc_setMem (s : State) (m : List Host.Cell) : (s.setMem m).pc = s.pc := rfl

/-! ### setRun -/

@[simp] theorem State.cfg_setRun (s : State) (r : RunState) : (s.setRun r).cfg = s.cfg := rfl
@[simp] theorem State.regs_setRun (s : State) (r : RunState) : (s.setRun r).regs = s.regs := rfl
@[simp] theorem State.status_setRun (s : State) (r : RunState) : (s.setRun r).status = s.status := rfl
@[simp] theorem State.savedStatus_setRun (s : State) (r : RunState) : (s.setRun r).savedStatus = s.savedStatus := rfl
@[simp] theorem State.store_setRun (s : State) (r : RunState) : (s.setRun r).store = s.store := rfl
@[simp] theorem State.dmem_setRun (s : State) (r : RunState) : (s.setRun r).dmem = s.dmem := rfl
@[simp] theorem State.runState_setRun (s : State) (r : RunState) : (s.setRun r).runState = r := rfl
@[simp] theorem State.readReg_setRun (s : State) (r : RunState) (j : Reg) : (s.setRun r).readReg j = s.readReg j := rfl
@[simp] theorem State.pc_setRun (s : State) (r : RunState) : (s.setRun r).pc = s.pc := rfl

/-! ### Registers after a register write -/

@[simp] theorem lrReg_ne_pcReg : lrReg ≠ pcReg := by decide

@[simp] theorem pcReg_ne_lrReg : pcReg ≠ lrReg := by decide

theorem State.readReg_writeReg (s : State) (i j : Reg) (v : Word) :
    (s.writeReg i v).readReg j = if j = i then v else s.readReg j := by
  unfold State.readReg State.writeReg
  simp only [Vector.getElem_set, BitVec.toNat_inj]
  split <;> split <;> simp_all

@[simp] theorem State.readReg_writeReg_same (s : State) (i : Reg) (v : Word) : (s.writeReg i v).readReg i = v := by
  simp [State.readReg_writeReg]

@[simp] theorem State.readReg_writeReg_of_ne (s : State) (i j : Reg) (v : Word) (h : j ≠ i) :
    (s.writeReg i v).readReg j = s.readReg j := by
  simp [State.readReg_writeReg, h]

@[simp] theorem State.pc_writeReg_of_ne (s : State) (i : Reg) (v : Word) (h : i ≠ pcReg) : (s.writeReg i v).pc = s.pc :=
  State.readReg_writeReg_of_ne s i pcReg v (Ne.symm h)

@[simp] theorem State.pc_writeReg_pcReg (s : State) (v : Word) : (s.writeReg pcReg v).pc = v :=
  State.readReg_writeReg_same s pcReg v

@[simp] theorem State.pc_setPc (s : State) (v : Word) : (s.setPc v).pc = v := State.readReg_writeReg_same s pcReg v

@[simp] theorem State.readReg_pcReg_setPc (s : State) (v : Word) : (s.setPc v).readReg pcReg = v :=
  State.readReg_writeReg_same s pcReg v

@[simp] theorem State.readReg_setPc_of_ne (s : State) (v : Word) (j : Reg) (h : j ≠ pcReg) :
    (s.setPc v).readReg j = s.readReg j := State.readReg_writeReg_of_ne s pcReg j v h

theorem State.readReg_setPc (s : State) (v : Word) (j : Reg) :
    (s.setPc v).readReg j = if j = pcReg then v else s.readReg j := State.readReg_writeReg s pcReg j v

/-- Writing a register with what it holds changes nothing. -/
@[simp] theorem State.writeReg_readReg (s : State) (i : Reg) : s.writeReg i (s.readReg i) = s := by
  simp [State.writeReg, State.readReg]

/-- The last of two writes to one register stands. -/
@[simp] theorem State.writeReg_writeReg_same (s : State) (i : Reg) (v w : Word) :
    (s.writeReg i v).writeReg i w = s.writeReg i w := by
  simp [State.writeReg]

/-- Two register files that read alike are one. -/
theorem State.regs_ext (s t : State) (h : ∀ i : Reg, s.readReg i = t.readReg i) : s.regs = t.regs := by
  apply Vector.ext
  intro k hk
  have := h (BitVec.ofNat 4 k)
  simp only [State.readReg, BitVec.toNat_ofNat, Nat.mod_eq_of_lt (show k < 2 ^ 4 by omega)] at this
  exact this

/-- At creation every register reads 0. -/
@[simp] theorem State.readReg_create (cfg : Config) (i : Reg) : (State.create cfg).readReg i = 0#32 := by
  simp [State.readReg, State.create]

@[simp] theorem State.pc_create (cfg : Config) : (State.create cfg).pc = 0#32 := State.readReg_create cfg pcReg

end Sys2Proof.Machine
end

