-- ==== Sys2Proof/Laws/Flags.lean ====
section
/-! SUPPORT. What each flag reads after the flag updates, and AddWithCarry as carry and range of the mathematical sum. -/

namespace Sys2Proof.Machine

/-- A bit of the status after one bit was put: the bit put, or what was there. -/
@[simp] theorem flagIsSet_putFlag (f g : Flag) (b : Bool) (st : Byte) :
    flagIsSet f (putFlag g b st) = if f = g then b else flagIsSet f st := by
  cases f <;> cases g <;> cases b <;> simp [flagIsSet, putFlag, setFlag, clearFlag, Flag.bit]

/-- Putting N, Z, C or V leaves the low nibble. -/
theorem lowNibble_putFlag (f : Flag) (h : f ≠ .I ∧ f ≠ .F) (b : Bool) (st : Byte) :
    (putFlag f b st).extractLsb' 0 4 = st.extractLsb' 0 4 := by
  obtain ⟨h1, h2⟩ := h
  apply BitVec.eq_of_getLsbD_eq
  intro k hk
  cases f <;> cases b <;> first | exact absurd rfl h1 | exact absurd rfl h2 |
    (interval_cases k <;> simp [putFlag, setFlag, clearFlag, Flag.bit])

/-! ### The status after an operation with S = 1 -/

@[simp] theorem flagIsSet_N_statusAfter (r : AluResult) (st : Byte) : flagIsSet .N (r.statusAfter st) = r.res.msb := by
  rcases r with ⟨res, _ | ⟨c, v⟩⟩ <;> simp [AluResult.statusAfter, putCV, putNZ]

@[simp] theorem flagIsSet_Z_statusAfter (r : AluResult) (st : Byte) : flagIsSet .Z (r.statusAfter st) = (r.res == 0#32) := by
  rcases r with ⟨res, _ | ⟨c, v⟩⟩ <;> simp [AluResult.statusAfter, putCV, putNZ]

@[simp] theorem flagIsSet_C_statusAfter (r : AluResult) (st : Byte) :
    flagIsSet .C (r.statusAfter st) = (r.cv.map Prod.fst).getD (flagIsSet .C st) := by
  rcases r with ⟨res, _ | ⟨c, v⟩⟩ <;> simp [AluResult.statusAfter, putCV, putNZ]

@[simp] theorem flagIsSet_V_statusAfter (r : AluResult) (st : Byte) :
    flagIsSet .V (r.statusAfter st) = (r.cv.map Prod.snd).getD (flagIsSet .V st) := by
  rcases r with ⟨res, _ | ⟨c, v⟩⟩ <;> simp [AluResult.statusAfter, putCV, putNZ]

/-- An operation with S = 1 leaves I, F and M. -/
theorem lowNibble_statusAfter (r : AluResult) (st : Byte) :
    (r.statusAfter st).extractLsb' 0 4 = st.extractLsb' 0 4 := by
  rcases r with ⟨res, _ | ⟨c, v⟩⟩ <;> simp [AluResult.statusAfter, putCV, putNZ, lowNibble_putFlag]

/-- F and M lie in the low nibble. -/
theorem fAndModeClear_of_lowNibble {st st' : Byte} (h : st'.extractLsb' 0 4 = st.extractLsb' 0 4) :
    FAndModeClear st' ↔ FAndModeClear st := by
  have hb : ∀ k, k < 4 → st'.getLsbD k = st.getLsbD k := by
    intro k hk
    have := congrArg (fun x : BitVec 4 => x.getLsbD k) h
    simpa [hk] using this
  have hm : modeOf st' = modeOf st := by
    apply BitVec.eq_of_getLsbD_eq
    intro k hk
    simpa [modeOf, hk] using hb k (by omega)
  simp only [FAndModeClear, hm, flagIsSet, hb Flag.F.bit (by decide)]

/-- Setting I leaves F and M. -/
theorem fAndModeClear_interruptDisable {st : Byte} (h : FAndModeClear st) : FAndModeClear (st ||| interruptDisable) := by
  revert h
  revert st
  decide

/-! ### AddWithCarry (41_alu R123) -/

/-- A number of a range reads as itself in two's complement, and only such a number. -/
theorem bmod_ne_self_iff (x : Int) : Int.bmod x (2 ^ 32) ≠ x ↔ OutOfRange x := by
  unfold OutOfRange
  rw [Int.bmod_def]
  split <;> omega

theorem cv_addWithCarry (x y : Word) (c : Bool) : (addWithCarry x y c).cv =
    some (decide (2 ^ 32 ≤ x.toNat + y.toNat + c.toNat), decide (OutOfRange (x.toInt + y.toInt + c.toNat))) := by
  have key : (BitVec.ofNat 32 (x.toNat + y.toNat + c.toNat)).toInt = Int.bmod (x.toInt + y.toInt + c.toNat) (2 ^ 32) := by
    simp only [BitVec.toInt_eq_toNat_bmod, BitVec.toNat_ofNat, Int.natCast_emod, Int.natCast_add, Nat.cast_pow, Nat.cast_ofNat,
      Int.bmod_def]
    omega
  simp only [addWithCarry, key, bmod_ne_self_iff]

theorem res_addWithCarry (x y : Word) (c : Bool) : (addWithCarry x y c).res = x + y + BitVec.ofNat 32 c.toNat := by
  apply BitVec.eq_of_toNat_eq
  simp [addWithCarry, BitVec.toNat_add]

theorem toInt_not (y : Word) : (~~~y).toInt = -y.toInt - 1 := by
  have := y.isLt
  rw [BitVec.toInt_eq_toNat_cond, BitVec.toInt_eq_toNat_cond, BitVec.toNat_not]
  split <;> split <;> omega

/-- The carry of `x + NOT y + c` says that `y + (1 - c)` does not exceed `x`: NOT borrow. -/
theorem cv_addWithCarry_not (x y : Word) (c : Bool) : (addWithCarry x (~~~y) c).cv =
    some (decide (y.toNat + (1 - c.toNat) ≤ x.toNat), decide (OutOfRange (x.toInt - y.toInt - (1 - c.toNat : Nat)))) := by
  have := y.isLt
  have hc : c.toNat ≤ 1 := Bool.toNat_le c
  rw [cv_addWithCarry, toInt_not, BitVec.toNat_not]
  congr 2
  · exact decide_eq_decide.2 (by omega)
  · have : x.toInt + (-y.toInt - 1) + (c.toNat : Int) = x.toInt - y.toInt - (1 - c.toNat : Nat) := by omega
    rw [this]

theorem res_addWithCarry_not (x y : Word) (c : Bool) :
    (addWithCarry x (~~~y) c).res = x - y - BitVec.ofNat 32 (1 - c.toNat) := by
  rw [res_addWithCarry, BitVec.not_eq_neg_add]
  cases c <;> simp <;> grind

end Sys2Proof.Machine
end

