-- ==== Sys2Proof/Laws/Memory.lean ====
section
/-! SUPPORT. The laws of the data memory: what a byte reads as after a write, that every write keeps the canonical form, and that
a word read back is the word written. -/

namespace Sys2Proof.Machine

@[simp] theorem Memory.readByte_nil (a : Nat) : Memory.readByte [] a = 0#8 := rfl

@[simp] theorem Memory.wf_nil : Memory.wf [] = true := rfl

theorem Memory.wf_cons (a : Nat) (v : Byte) (m : List Host.Cell) :
    Memory.wf ((a, v) :: m) = true ↔ v ≠ Memory.default ∧ Memory.above a m = true ∧ Memory.wf m = true := by
  simp [Memory.wf, and_assoc]

theorem Memory.above_mono {a b : Nat} (h : a < b) : ∀ {m : List Host.Cell}, Memory.above b m = true → Memory.above a m = true
  | [], _ => rfl
  | (c, _) :: _, hb => by
    simp only [Memory.above, decide_eq_true_eq] at hb ⊢
    omega

/-- A well-formed memory above `a` reads as the default at `a`. -/
theorem Memory.readByte_above {a : Nat} : ∀ {m : List Host.Cell}, Memory.above a m = true → Memory.wf m = true →
    Memory.readByte m a = Memory.default
  | [], _, _ => rfl
  | (b, v) :: m, ha, hw => by
    have hab : a < b := by simpa [Memory.above] using ha
    have hm := (Memory.wf_cons b v m).1 hw
    have : a ≠ b := by omega
    simp only [Memory.readByte, if_neg this]
    exact Memory.readByte_above (Memory.above_mono hab hm.2.1) hm.2.2

theorem Memory.above_entry {a b : Nat} {v : Byte} {m : List Host.Cell} (h : b < a) (hm : Memory.above b m = true) :
    Memory.above b (Memory.entry a v m) = true := by
  unfold Memory.entry
  split
  · exact hm
  · simp [Memory.above, h]

theorem Memory.wf_entry {a : Nat} {v : Byte} {m : List Host.Cell} (ha : Memory.above a m = true) (hm : Memory.wf m = true) :
    Memory.wf (Memory.entry a v m) = true := by
  unfold Memory.entry
  split
  · exact hm
  · next h => exact (Memory.wf_cons a v m).2 ⟨h, ha, hm⟩

theorem Memory.above_writeByte {b a : Nat} {v : Byte} (h : b < a) : ∀ {m : List Host.Cell}, Memory.above b m = true →
    Memory.wf m = true → Memory.above b (Memory.writeByte m a v) = true
  | [], hm, _ => Memory.above_entry h hm
  | (c, x) :: m, hm, hw => by
    have hbc : b < c := by simpa [Memory.above] using hm
    have hc := (Memory.wf_cons c x m).1 hw
    unfold Memory.writeByte
    split
    · exact Memory.above_entry h hm
    · split
      · exact Memory.above_entry h (Memory.above_mono hbc hc.2.1)
      · simpa [Memory.above] using hbc

/-- Every byte write keeps the canonical form. -/
theorem Memory.wf_writeByte (a : Nat) (v : Byte) : ∀ {m : List Host.Cell}, Memory.wf m = true →
    Memory.wf (Memory.writeByte m a v) = true
  | [], hm => Memory.wf_entry rfl hm
  | (c, x) :: m, hw => by
    have hc := (Memory.wf_cons c x m).1 hw
    unfold Memory.writeByte
    split
    · next h => exact Memory.wf_entry (by simpa [Memory.above] using h) hw
    · split
      · next h => subst h; exact Memory.wf_entry hc.2.1 hc.2.2
      · exact (Memory.wf_cons c x _).2 ⟨hc.1, Memory.above_writeByte (by omega) hc.2.1 hc.2.2, Memory.wf_writeByte a v hc.2.2⟩

theorem Memory.readByte_entry (a : Nat) (v : Byte) (m : List Host.Cell) (b : Nat) (ha : Memory.readByte m a = Memory.default) :
    Memory.readByte (Memory.entry a v m) b = if b = a then v else Memory.readByte m b := by
  unfold Memory.entry
  by_cases hv : v = Memory.default
  · by_cases hb : b = a
    · simp [hv, hb, ha]
    · simp [hv, hb]
  · simp [hv, Memory.readByte]

/-- A byte read after a byte write: the value at that address, and what was there before at any other. -/
theorem Memory.readByte_writeByte (a b : Nat) (v : Byte) : ∀ {m : List Host.Cell}, Memory.wf m = true →
    Memory.readByte (Memory.writeByte m a v) b = if b = a then v else Memory.readByte m b
  | [], _ => Memory.readByte_entry a v [] b rfl
  | (c, x) :: m, hw => by
    have hc := (Memory.wf_cons c x m).1 hw
    unfold Memory.writeByte
    split
    · next h => exact Memory.readByte_entry a v _ b (Memory.readByte_above (by simpa [Memory.above] using h) hw)
    · split
      · next h =>
        subst h
        rw [Memory.readByte_entry a v m b (Memory.readByte_above hc.2.1 hc.2.2)]
        by_cases hb : b = a <;> simp [Memory.readByte, hb]
      · next h h' =>
        simp only [Memory.readByte]
        by_cases hb : b = c
        · subst hb
          simp [show b ≠ a from fun e => h' e.symm]
        · simp only [if_neg hb]
          exact Memory.readByte_writeByte a b v hc.2.2

/-- Every address a memory lists is below `n`. -/
def Memory.below (n : Nat) (m : List Host.Cell) : Prop := ∀ x ∈ m, x.1 < n

theorem Memory.below_writeByte {n a : Nat} {v : Byte} (ha : a < n) : ∀ {m : List Host.Cell}, Memory.below n m →
    Memory.below n (Memory.writeByte m a v)
  | [], _ => by
    intro x hx
    unfold Memory.writeByte Memory.entry at hx
    split at hx
    · simp at hx
    · simp at hx; subst hx; exact ha
  | (c, y) :: m, hm => by
    have hcm : Memory.below n m := fun x hx => hm x (List.mem_cons_of_mem _ hx)
    have hc : c < n := hm (c, y) List.mem_cons_self
    intro x hx
    unfold Memory.writeByte Memory.entry at hx
    split at hx
    · split at hx
      · exact hm x hx
      · rcases List.mem_cons.1 hx with h | h
        · subst h; exact ha
        · exact hm x h
    · split at hx
      · split at hx
        · exact hcm x hx
        · rcases List.mem_cons.1 hx with h | h
          · subst h; exact ha
          · exact hcm x h
      · rcases List.mem_cons.1 hx with h | h
        · subst h; exact hc
        · exact Memory.below_writeByte ha hcm x h

/-! ### Words -/

theorem Memory.wf_writeWord {m : List Host.Cell} (hm : Memory.wf m = true) (a : Nat) (v : Word) :
    Memory.wf (Memory.writeWord m a v) = true :=
  Memory.wf_writeByte _ _ (Memory.wf_writeByte _ _ (Memory.wf_writeByte _ _ (Memory.wf_writeByte _ _ hm)))

theorem Memory.below_writeWord {n : Nat} {m : List Host.Cell} (hm : Memory.below n m) {a : Nat} (ha : a + 4 ≤ n) (v : Word) :
    Memory.below n (Memory.writeWord m a v) :=
  Memory.below_writeByte (by omega) (Memory.below_writeByte (by omega) (Memory.below_writeByte (by omega)
    (Memory.below_writeByte (by omega) hm)))

/-- A byte read after a word write: byte `k` of the word at `a + k`, and what was there before outside the four bytes. -/
theorem Memory.readByte_writeWord {m : List Host.Cell} (hm : Memory.wf m = true) (a b : Nat) (v : Word) :
    Memory.readByte (Memory.writeWord m a v) b =
      if b = a + 3 then byteOfWord v 3 else if b = a + 2 then byteOfWord v 2 else if b = a + 1 then byteOfWord v 1
      else if b = a then byteOfWord v 0 else Memory.readByte m b := by
  have h0 := Memory.wf_writeByte a (byteOfWord v 0) hm
  have h1 := Memory.wf_writeByte (a + 1) (byteOfWord v 1) h0
  have h2 := Memory.wf_writeByte (a + 2) (byteOfWord v 2) h1
  rw [Memory.writeWord, Memory.readByte_writeByte _ _ _ h2, Memory.readByte_writeByte _ _ _ h1,
    Memory.readByte_writeByte _ _ _ h0, Memory.readByte_writeByte _ _ _ hm]

theorem Memory.readByte_writeWord_outside {m : List Host.Cell} (hm : Memory.wf m = true) (a b : Nat) (v : Word)
    (h : b < a ∨ a + 4 ≤ b) : Memory.readByte (Memory.writeWord m a v) b = Memory.readByte m b := by
  rw [Memory.readByte_writeWord hm, if_neg (by omega), if_neg (by omega), if_neg (by omega), if_neg (by omega)]

/-- The word of its own four bytes. -/
theorem wordOfBytes_byteOfWord (w : Word) :
    wordOfBytes (byteOfWord w 0) (byteOfWord w 1) (byteOfWord w 2) (byteOfWord w 3) = w := by
  unfold wordOfBytes byteOfWord place
  apply BitVec.eq_of_getLsbD_eq
  intro i hi
  interval_cases i <;> simp

/-- The word written is the word read back (20_memory R56). -/
theorem Memory.readWord_writeWord {m : List Host.Cell} (hm : Memory.wf m = true) (a : Nat) (v : Word) :
    Memory.readWord (Memory.writeWord m a v) a = v := by
  simp only [Memory.readWord, Memory.readByte_writeWord hm]
  simpa using wordOfBytes_byteOfWord v

/-- Byte `k` of a word read from memory is the byte at `a + k` (20_memory R53). -/
theorem Memory.byteOfWord_readWord (m : List Host.Cell) (a k : Nat) (hk : k < 4) :
    byteOfWord (Memory.readWord m a) k = Memory.readByte m (a + k) := by
  unfold Memory.readWord wordOfBytes byteOfWord place
  apply BitVec.eq_of_getLsbD_eq
  intro i hi
  interval_cases k <;> interval_cases i <;> simp

/-- The memory at creation has the canonical form. -/
theorem Memory.wf_create (cfg : Config) : Memory.wf (State.create cfg).dmem = true := rfl

/-- The memory of the reset state has the canonical form. -/
theorem Memory.wf_reset : Memory.wf State.reset.dmem = true := Memory.wf_create _

end Sys2Proof.Machine
end

