-- ==== Sys2Proof/Laws/Exec.lean ====
section
/-! SUPPORT. What executing an instruction can do: the state its executor gives, and one lemma per shared operation. -/

namespace Sys2Proof.Machine

/-- Evaluate and dispatch always answers a next state. -/
theorem whenHolds_eq (c : Cond) (e s : State) : whenHolds c e s = .next (if condHolds c s.status then e else s.advance) := by
  unfold whenHolds
  split <;> rfl

/-- The state an instruction's executor gives, its condition aside. -/
def executed (i : Instr) (s : State) : State :=
  match i with
  | .andImm _ sf rn rd rot imm8 => aluWrite sf rd (resAnd (s.opnd rn) (immOperand rot imm8)) s
  | .andReg _ sf rn rd rm => aluWrite sf rd (resAnd (s.opnd rn) (s.opnd rm)) s
  | .eorImm _ sf rn rd rot imm8 => aluWrite sf rd (resEor (s.opnd rn) (immOperand rot imm8)) s
  | .eorReg _ sf rn rd rm => aluWrite sf rd (resEor (s.opnd rn) (s.opnd rm)) s
  | .subImm _ sf rn rd rot imm8 => aluWrite sf rd (resSub (s.opnd rn) (immOperand rot imm8)) s
  | .subReg _ sf rn rd rm => aluWrite sf rd (resSub (s.opnd rn) (s.opnd rm)) s
  | .rsbImm _ sf rn rd rot imm8 => aluWrite sf rd (resRsb (s.opnd rn) (immOperand rot imm8)) s
  | .rsbReg _ sf rn rd rm => aluWrite sf rd (resRsb (s.opnd rn) (s.opnd rm)) s
  | .addImm _ sf rn rd rot imm8 => aluWrite sf rd (resAdd (s.opnd rn) (immOperand rot imm8)) s
  | .addReg _ sf rn rd rm => aluWrite sf rd (resAdd (s.opnd rn) (s.opnd rm)) s
  | .adcImm _ sf rn rd rot imm8 => aluWrite sf rd (resAdc (s.opnd rn) (immOperand rot imm8) s.carryIn) s
  | .adcReg _ sf rn rd rm => aluWrite sf rd (resAdc (s.opnd rn) (s.opnd rm) s.carryIn) s
  | .sbcImm _ sf rn rd rot imm8 => aluWrite sf rd (resSbc (s.opnd rn) (immOperand rot imm8) s.carryIn) s
  | .sbcReg _ sf rn rd rm => aluWrite sf rd (resSbc (s.opnd rn) (s.opnd rm) s.carryIn) s
  | .rscImm _ sf rn rd rot imm8 => aluWrite sf rd (resRsc (s.opnd rn) (immOperand rot imm8) s.carryIn) s
  | .rscReg _ sf rn rd rm => aluWrite sf rd (resRsc (s.opnd rn) (s.opnd rm) s.carryIn) s
  | .tstImm _ sf rn _ rot imm8 => aluTest sf (resTst (s.opnd rn) (immOperand rot imm8)) s
  | .tstReg _ sf rn _ rm => aluTest sf (resTst (s.opnd rn) (s.opnd rm)) s
  | .teqImm _ sf rn _ rot imm8 => aluTest sf (resTeq (s.opnd rn) (immOperand rot imm8)) s
  | .teqReg _ sf rn _ rm => aluTest sf (resTeq (s.opnd rn) (s.opnd rm)) s
  | .cmpImm _ sf rn _ rot imm8 => aluTest sf (resCmp (s.opnd rn) (immOperand rot imm8)) s
  | .cmpReg _ sf rn _ rm => aluTest sf (resCmp (s.opnd rn) (s.opnd rm)) s
  | .cmnImm _ sf rn _ rot imm8 => aluTest sf (resCmn (s.opnd rn) (immOperand rot imm8)) s
  | .cmnReg _ sf rn _ rm => aluTest sf (resCmn (s.opnd rn) (s.opnd rm)) s
  | .orrImm _ sf rn rd rot imm8 => aluWrite sf rd (resOrr (s.opnd rn) (immOperand rot imm8)) s
  | .orrReg _ sf rn rd rm => aluWrite sf rd (resOrr (s.opnd rn) (s.opnd rm)) s
  | .movImm _ sf _ rd rot imm8 => aluWrite sf rd (resMov (immOperand rot imm8)) s
  | .movReg _ sf _ rd rm => aluWrite sf rd (resMov (s.opnd rm)) s
  | .bicImm _ sf rn rd rot imm8 => aluWrite sf rd (resBic (s.opnd rn) (immOperand rot imm8)) s
  | .bicReg _ sf rn rd rm => aluWrite sf rd (resBic (s.opnd rn) (s.opnd rm)) s
  | .mvnImm _ sf _ rd rot imm8 => aluWrite sf rd (resMvn (immOperand rot imm8)) s
  | .mvnReg _ sf _ rd rm => aluWrite sf rd (resMvn (s.opnd rm)) s
  | .ldrImm _ p u w rn rd off12 => transfer p u w rn rd (.imm off12) (loadAccess p u w rn rd (.imm off12) s) s
  | .ldrReg _ p u w rn rd rm => transfer p u w rn rd (.reg rm) (loadAccess p u w rn rd (.reg rm) s) s
  | .strImm _ p u w rn rd off12 => transfer p u w rn rd (.imm off12) (storeAccess p u w rn rd (.imm off12) s) s
  | .strReg _ p u w rn rd rm => transfer p u w rn rd (.reg rm) (storeAccess p u w rn rd (.reg rm) s) s
  | .b _ imm24 => s.setPc (s.branchTarget imm24)
  | .bl _ imm24 => (s.writeReg lrReg (s.pc + 4#32)).setPc (s.branchTarget imm24)
  | .swi _ _ => s.takeInterrupt
  | .shiftedRegisterAlu _ _ _ _ _ _ _ => s.raiseUnsupported .shiftedRegister
  | .byteTransfer _ _ _ _ _ _ _ _ _ => s.raiseUnsupported .byteTransfer
  | .translatedTransfer _ _ _ _ _ _ _ => s.raiseUnsupported .translatedTransfer
  | .writebackConflict _ _ _ _ _ _ _ _ _ => s.raiseUnsupported .writebackConflict
  | .shiftedRegisterTransfer _ _ _ _ _ _ _ _ _ => s.raiseUnsupported .shiftedRegister
  | .pcOffsetRegister _ _ _ _ _ _ _ => s.raiseUnsupported .pcOffsetRegister
  | .blockTransfer _ _ => s.raiseUnsupported .blockTransfer
  | .coprocessor _ _ _ => s.raiseUnsupported .coprocessor

/-- Every instruction is its executor under its condition. -/
theorem exec_eq (i : Instr) (s : State) :
    exec i s = .next (if condHolds i.cond s.status then executed i s else s.advance) := by
  cases i <;> exact whenHolds_eq _ _ _

/-- An executing instruction answers what its executor gives. -/
theorem exec_of_holds {i : Instr} {s : State} (h : condHolds i.cond s.status = true) : exec i s = .next (executed i s) := by
  rw [exec_eq, if_pos h]

/-- A skipped instruction only advances the pc. -/
theorem exec_of_not_holds {i : Instr} {s : State} (h : condHolds i.cond s.status = false) : exec i s = .next s.advance := by
  rw [exec_eq, if_neg (by simp [h])]

/-- What exec answers: the executor's state if the condition holds, the advanced state if not. -/
theorem exec_eq_next {i : Instr} {s t : State} (h : exec i s = .next t) :
    (condHolds i.cond s.status = true ∧ t = executed i s) ∨ (condHolds i.cond s.status = false ∧ t = s.advance) := by
  rw [exec_eq] at h
  cases hc : condHolds i.cond s.status
  · right
    refine ⟨rfl, ?_⟩
    simpa [hc, eq_comm] using h
  · left
    refine ⟨rfl, ?_⟩
    simpa [hc, eq_comm] using h

/-! ### The state updates made of others -/

@[simp] theorem State.cfg_advance (s : State) : s.advance.cfg = s.cfg := rfl
@[simp] theorem State.status_advance (s : State) : s.advance.status = s.status := rfl
@[simp] theorem State.savedStatus_advance (s : State) : s.advance.savedStatus = s.savedStatus := rfl
@[simp] theorem State.store_advance (s : State) : s.advance.store = s.store := rfl
@[simp] theorem State.dmem_advance (s : State) : s.advance.dmem = s.dmem := rfl
@[simp] theorem State.runState_advance (s : State) : s.advance.runState = s.runState := rfl
@[simp] theorem State.pc_advance (s : State) : s.advance.pc = s.pc + 4#32 := State.pc_setPc s _
@[simp] theorem State.readReg_advance_of_ne (s : State) (j : Reg) (h : j ≠ pcReg) : s.advance.readReg j = s.readReg j :=
  State.readReg_setPc_of_ne s _ j h

@[simp] theorem State.cfg_writeBack (s : State) (p w : Bool) (rn : Reg) (v : Word) : (s.writeBack p w rn v).cfg = s.cfg := by
  unfold State.writeBack; split <;> rfl
@[simp] theorem State.status_writeBack (s : State) (p w : Bool) (rn : Reg) (v : Word) :
    (s.writeBack p w rn v).status = s.status := by
  unfold State.writeBack; split <;> rfl
@[simp] theorem State.savedStatus_writeBack (s : State) (p w : Bool) (rn : Reg) (v : Word) :
    (s.writeBack p w rn v).savedStatus = s.savedStatus := by
  unfold State.writeBack; split <;> rfl
@[simp] theorem State.store_writeBack (s : State) (p w : Bool) (rn : Reg) (v : Word) :
    (s.writeBack p w rn v).store = s.store := by
  unfold State.writeBack; split <;> rfl
@[simp] theorem State.dmem_writeBack (s : State) (p w : Bool) (rn : Reg) (v : Word) :
    (s.writeBack p w rn v).dmem = s.dmem := by
  unfold State.writeBack; split <;> rfl
@[simp] theorem State.runState_writeBack (s : State) (p w : Bool) (rn : Reg) (v : Word) :
    (s.writeBack p w rn v).runState = s.runState := by
  unfold State.writeBack; split <;> rfl

theorem State.readReg_writeBack (s : State) (p w : Bool) (rn j : Reg) (v : Word) :
    (s.writeBack p w rn v).readReg j = if writesBack p w = true ∧ j = rn then v else s.readReg j := by
  unfold State.writeBack
  by_cases h : writesBack p w = true <;> simp [h, State.readReg_writeReg]

/-! ### The ALU's common sequence -/

/-- An operation that writes Rd leaves what 41_alu R121 says, with the flags of its result. -/
theorem aluWrite_writesRd (sf : Bool) (rd : Reg) (r : AluResult) (s : State) :
    WritesRd sf rd r.res (fun s t => t.status = r.statusAfter s.status) s (aluWrite sf rd r s) := by
  unfold aluWrite WritesRd
  by_cases h : rd = pcReg
  · subst h
    cases sf <;> simp [State.returnTo, SameRegs, SameMemory, SameDriver] <;> intro j hj <;> simp [hj]
  · cases sf <;> simp [h, SameRegs, SameMemory, SameDriver] <;> intro j hj hr <;> simp [hj, hr]

/-- A test or compare leaves what 41_alu R121 says, with the flags of its result. -/
theorem aluTest_writesFlagsOnly (sf : Bool) (r : AluResult) (s : State) :
    WritesFlagsOnly sf (fun s t => t.status = r.statusAfter s.status) s (aluTest sf r s) := by
  unfold aluTest WritesFlagsOnly
  cases sf <;> simp [SameRegs, SameMemory, SameDriver, State.advance] <;> intro j hj <;> simp [hj]

/-- The status of a logical result has the flags of 41_alu R122 and R125. -/
theorem logicalFlags_of_status {res : Word} {s t : State} (h : t.status = (logical res).statusAfter s.status) :
    LogicalFlags res s t := by
  refine ⟨⟨?_, ?_⟩, ?_, ?_, ?_⟩
  · simp [h, logical]
  · simp [h, logical]
  · simp [h, logical]
  · simp [h, logical]
  · simp only [LowNibbleKept, h, lowNibble_statusAfter]

/-- The status of an arithmetic result has the flags of 41_alu R122 and R123. -/
theorem arithFlags_of_status {r : AluResult} {carry : Prop} {signed : Int} {s t : State} [Decidable carry]
    (hr : r.cv = some (decide carry, decide (OutOfRange signed))) (h : t.status = r.statusAfter s.status) :
    ArithFlags r.res carry signed s t := by
  refine ⟨⟨?_, ?_⟩, ?_, ?_, ?_⟩
  · simp [h]
  · simp [h]
  · simp [h, hr]
  · simp [h, hr, OutOfRange]
  · simp only [LowNibbleKept, h, lowNibble_statusAfter]

/-- Flags may be read through any consequence of the status. -/
theorem WritesRd.mono {sf : Bool} {rd : Reg} {res : Word} {f g : State → State → Prop} {s t : State}
    (h : WritesRd sf rd res f s t) (hfg : f s t → g s t) : WritesRd sf rd res g s t :=
  ⟨fun hr => ⟨(h.1 hr).1, (h.1 hr).2.1, fun hs => hfg ((h.1 hr).2.2.1 hs), (h.1 hr).2.2.2⟩, h.2⟩

theorem WritesFlagsOnly.mono {sf : Bool} {f g : State → State → Prop} {s t : State}
    (h : WritesFlagsOnly sf f s t) (hfg : f s t → g s t) : WritesFlagsOnly sf g s t :=
  ⟨h.1, fun hs => hfg (h.2.1 hs), h.2.2⟩

/-! ### Transfers -/

theorem isTranslated_iff (p w : Bool) : isTranslated p w = true ↔ Translated p w := by
  cases p <;> cases w <;> decide

theorem writesBack_iff (p w : Bool) : writesBack p w = true ↔ WritesBack p w := by
  cases p <;> cases w <;> decide

theorem isConflict_iff (p w : Bool) (rn rd : Reg) : isConflict p w rn rd = true ↔ Conflicts p w rn rd := by
  simp [isConflict, Conflicts, writesBack, WritesBack]

/-- The Unsupported checks let a transfer through exactly if its mode is admitted and its offset register is not R15. -/
theorem transferRefused_eq_none_iff (p w : Bool) (rn rd : Reg) (o : OffsetForm) :
    transferRefused p w rn rd o = none ↔ AdmittedMode p w rn rd ∧ o ≠ .reg pcReg := by
  unfold transferRefused AdmittedMode
  rw [← isTranslated_iff, ← isConflict_iff]
  cases isTranslated p w <;> cases isConflict p w rn rd <;> cases o <;> simp

theorem accessFault_eq_none_iff (cfg : Config) (a : Word) :
    accessFault cfg a = none ↔ a.toNat % 4 = 0 ∧ a.toNat + 4 ≤ cfg.dataMemBytes := by
  unfold accessFault
  split
  · next h => simp [h]
  · split <;> simp <;> omega

/-- A transfer whose checks pass does its access. -/
theorem transfer_of_ok {p u w : Bool} {rn rd : Reg} {o : OffsetForm} {access s : State} (hm : AdmittedMode p w rn rd)
    (ho : o ≠ .reg pcReg) (ha : (accessAddress p u rn o s).toNat % 4 = 0)
    (hr : (accessAddress p u rn o s).toNat + 4 ≤ s.cfg.dataMemBytes) : transfer p u w rn rd o access s = access := by
  unfold transfer
  rw [(transferRefused_eq_none_iff p w rn rd o).2 ⟨hm, ho⟩, (accessFault_eq_none_iff s.cfg _).2 ⟨ha, hr⟩]

/-- What a transfer can do: end the run with everything else as it was, or do its access at an aligned address in range. -/
theorem transfer_cases (p u w : Bool) (rn rd : Reg) (o : OffsetForm) (access s : State) :
    (∃ r, transfer p u w rn rd o access s = s.raiseUnsupported r) ∨ (∃ f, transfer p u w rn rd o access s = s.raiseFault f) ∨
    (transfer p u w rn rd o access s = access ∧ AdmittedMode p w rn rd ∧ o ≠ .reg pcReg ∧
      (accessAddress p u rn o s).toNat % 4 = 0 ∧ (accessAddress p u rn o s).toNat + 4 ≤ s.cfg.dataMemBytes) := by
  unfold transfer
  cases hr : transferRefused p w rn rd o with
  | some r => exact .inl ⟨r, rfl⟩
  | none =>
    cases hf : accessFault s.cfg (accessAddress p u rn o s) with
    | some f => exact .inr (.inl ⟨f, rfl⟩)
    | none =>
      obtain ⟨hm, ho⟩ := (transferRefused_eq_none_iff p w rn rd o).1 hr
      obtain ⟨ha, hb⟩ := (accessFault_eq_none_iff _ _).1 hf
      exact .inr (.inr ⟨rfl, hm, ho, ha, hb⟩)

/-! ### Addresses -/

/-- The low two bits of an address are its remainder by 4. -/
theorem lowTwo_eq_zero_iff (x : Word) : x.extractLsb' 0 2 = 0b00#2 ↔ x.toNat % 4 = 0 := by
  rw [← BitVec.toNat_inj]
  simp

/-- The branch offset is four times the signed offset field (30_encoding R80). -/
theorem branchOffset_eq (imm24 : BitVec 24) : branchOffset imm24 = BitVec.ofInt 32 (4 * imm24.toInt) := by
  have h : (imm24 ++ 0b00#2 : BitVec 26).toInt = 4 * imm24.toInt := by
    have := imm24.isLt
    have ht : (imm24 ++ 0b00#2 : BitVec 26).toNat = 4 * imm24.toNat := by
      rw [BitVec.toNat_append]
      simp [Nat.shiftLeft_eq]
      omega
    rw [BitVec.toInt_eq_toNat_cond, BitVec.toInt_eq_toNat_cond, ht]
    split <;> split <;> omega
  rw [branchOffset, BitVec.signExtend, h]

/-- A whole number of words away from an aligned address is aligned. -/
theorem aligned_branch {x : Word} (k : Int) (h : x.toNat % 4 = 0) :
    (x + 8#32 + BitVec.ofInt 32 (4 * k)).toNat % 4 = 0 := by
  simp [BitVec.toNat_add, BitVec.toNat_ofInt]
  omega

theorem State.carryIn_toNat (s : State) : s.carryIn.toNat = if s.status.getLsbD 5 then 1 else 0 := by
  simp only [State.carryIn, flagIsSet, Flag.bit]
  cases s.status.getLsbD 5 <;> rfl

/-! ### The step -/

/-- What fetch finds, in the terms of 45_driver R201. -/
theorem State.fetch_eq_word {s : State} {w : Word} (ha : s.pc.toNat % 4 = 0) (hw : s.store[s.pc.toNat / 4]? = some w) :
    s.fetch = .word w := by
  simp [State.fetch, State.fetchIndex, ha, hw]

theorem State.fetch_eq_exhausted {s : State} (ha : s.pc.toNat % 4 = 0) (hw : s.store.length ≤ s.pc.toNat / 4) :
    s.fetch = .exhausted := by
  simp [State.fetch, State.fetchIndex, ha, List.getElem?_eq_none hw]

theorem State.fetch_eq_misaligned {s : State} (ha : s.pc.toNat % 4 ≠ 0) : s.fetch = .misaligned := by
  simp [State.fetch, ha]

theorem step_word {s : State} {w : Word} (hr : s.runState = .running) (ha : s.pc.toNat % 4 = 0)
    (hw : s.store[s.pc.toNat / 4]? = some w) : step s = exec (decode w) s := by
  simp only [step, hr, State.fetch_eq_word ha hw]

theorem step_exhausted {s : State} (hr : s.runState = .running) (ha : s.pc.toNat % 4 = 0)
    (hw : s.store.length ≤ s.pc.toNat / 4) : step s = .next s.halt := by
  simp only [step, hr, State.fetch_eq_exhausted ha hw]

theorem step_misaligned {s : State} (hr : s.runState = .running) (ha : s.pc.toNat % 4 ≠ 0) :
    step s = .next (s.raiseFault .fetchMisaligned) := by
  simp only [step, hr, State.fetch_eq_misaligned ha]

/-- What a step can do. -/
theorem step_cases {s t : State} (h : step s = .next t) :
    t = s ∨ (s.runState = .running ∧ t = s.raiseFault .fetchMisaligned) ∨ (s.runState = .running ∧ t = s.halt) ∨
      (s.runState = .running ∧ ∃ w, s.fetch = .word w ∧ exec (decode w) s = .next t) := by
  cases hr : s.runState with
  | running =>
    simp only [step, hr] at h
    cases hf : s.fetch with
    | misaligned => simp only [hf] at h; cases h; exact .inr (.inl ⟨rfl, rfl⟩)
    | exhausted => simp only [hf] at h; cases h; exact .inr (.inr (.inl ⟨rfl, rfl⟩))
    | word w => simp only [hf] at h; exact .inr (.inr (.inr ⟨rfl, w, rfl, h⟩))
  | loading => simp only [step, hr] at h; cases h; exact .inl rfl
  | halted => simp only [step, hr] at h; cases h; exact .inl rfl
  | faulted f => simp only [step, hr] at h; cases h; exact .inl rfl
  | unsupported r => simp only [step, hr] at h; cases h; exact .inl rfl

end Sys2Proof.Machine
end

