-- ==== Sys2Proof/Laws/Cases.lean ====
section
/-! SUPPORT. What an executing instruction can do, by shape: eight shapes cover the 47 constructors. A proof over all instructions cites
`executed_effect` and treats each shape once. -/

namespace Sys2Proof.Machine

/-- The eight shapes of an executor's effect, each with what the instruction's syntax says about it. -/
inductive Effect (i : Instr) (s : State) : State → Prop where
  | write (sf : Bool) (rd : Reg) (r : AluResult) (hu : updatesStatus i = sf) (hr : restoresStatus i = (sf && rd == pcReg))
      (hm : mayWrite i = [rd]) (ht : isTransfer i = false) (hs : isStore i = false) (hi : isSwi i = false) :
      Effect i s (aluWrite sf rd r s)
  | test (sf : Bool) (r : AluResult) (hu : updatesStatus i = sf) (hr : restoresStatus i = false) (hm : mayWrite i = [])
      (ht : isTransfer i = false) (hs : isStore i = false) (hi : isSwi i = false) : Effect i s (aluTest sf r s)
  | load (p u w : Bool) (rn rd : Reg) (o : OffsetForm) (hu : updatesStatus i = false) (hr : restoresStatus i = false)
      (hm : mayWrite i = if writesBack p w then [rd, rn] else [rd]) (ht : isTransfer i = true) (hs : isStore i = false)
      (hi : isSwi i = false) : Effect i s (transfer p u w rn rd o (loadAccess p u w rn rd o s) s)
  | store (p u w : Bool) (rn rd : Reg) (o : OffsetForm) (hu : updatesStatus i = false) (hr : restoresStatus i = false)
      (hm : mayWrite i = if writesBack p w then [rn] else []) (ht : isTransfer i = true) (hs : isStore i = true)
      (hi : isSwi i = false) : Effect i s (transfer p u w rn rd o (storeAccess p u w rn rd o s) s)
  | branch (a : Word) (hu : updatesStatus i = false) (hr : restoresStatus i = false) (hm : mayWrite i = [])
      (ht : isTransfer i = false) (hs : isStore i = false) (hi : isSwi i = false) : Effect i s (s.setPc a)
  | link (a : Word) (hu : updatesStatus i = false) (hr : restoresStatus i = false) (hm : mayWrite i = [lrReg])
      (ht : isTransfer i = false) (hs : isStore i = false) (hi : isSwi i = false) :
      Effect i s ((s.writeReg lrReg (s.pc + 4#32)).setPc a)
  | interrupt (hu : updatesStatus i = false) (hr : restoresStatus i = false) (hm : mayWrite i = [lrReg])
      (ht : isTransfer i = false) (hs : isStore i = false) (hi : isSwi i = true) : Effect i s s.takeInterrupt
  | unsupported (r : UnsupportedReason) (hu : updatesStatus i = false) (hr : restoresStatus i = false) (hm : mayWrite i = [])
      (ht : isTransfer i = false) (hs : isStore i = false) (hi : isSwi i = false) : Effect i s (s.raiseUnsupported r)

/-- Every executor's effect has one of the eight shapes. -/
theorem executed_effect (i : Instr) (s : State) : Effect i s (executed i s) := by
  cases i with
  | andImm c sf rn rd rot imm8 => exact .write sf rd (resAnd (s.opnd rn) (immOperand rot imm8)) rfl rfl rfl rfl rfl rfl
  | andReg c sf rn rd rm => exact .write sf rd (resAnd (s.opnd rn) (s.opnd rm)) rfl rfl rfl rfl rfl rfl
  | eorImm c sf rn rd rot imm8 => exact .write sf rd (resEor (s.opnd rn) (immOperand rot imm8)) rfl rfl rfl rfl rfl rfl
  | eorReg c sf rn rd rm => exact .write sf rd (resEor (s.opnd rn) (s.opnd rm)) rfl rfl rfl rfl rfl rfl
  | subImm c sf rn rd rot imm8 => exact .write sf rd (resSub (s.opnd rn) (immOperand rot imm8)) rfl rfl rfl rfl rfl rfl
  | subReg c sf rn rd rm => exact .write sf rd (resSub (s.opnd rn) (s.opnd rm)) rfl rfl rfl rfl rfl rfl
  | rsbImm c sf rn rd rot imm8 => exact .write sf rd (resRsb (s.opnd rn) (immOperand rot imm8)) rfl rfl rfl rfl rfl rfl
  | rsbReg c sf rn rd rm => exact .write sf rd (resRsb (s.opnd rn) (s.opnd rm)) rfl rfl rfl rfl rfl rfl
  | addImm c sf rn rd rot imm8 => exact .write sf rd (resAdd (s.opnd rn) (immOperand rot imm8)) rfl rfl rfl rfl rfl rfl
  | addReg c sf rn rd rm => exact .write sf rd (resAdd (s.opnd rn) (s.opnd rm)) rfl rfl rfl rfl rfl rfl
  | adcImm c sf rn rd rot imm8 => exact .write sf rd (resAdc (s.opnd rn) (immOperand rot imm8) s.carryIn) rfl rfl rfl rfl rfl rfl
  | adcReg c sf rn rd rm => exact .write sf rd (resAdc (s.opnd rn) (s.opnd rm) s.carryIn) rfl rfl rfl rfl rfl rfl
  | sbcImm c sf rn rd rot imm8 => exact .write sf rd (resSbc (s.opnd rn) (immOperand rot imm8) s.carryIn) rfl rfl rfl rfl rfl rfl
  | sbcReg c sf rn rd rm => exact .write sf rd (resSbc (s.opnd rn) (s.opnd rm) s.carryIn) rfl rfl rfl rfl rfl rfl
  | rscImm c sf rn rd rot imm8 => exact .write sf rd (resRsc (s.opnd rn) (immOperand rot imm8) s.carryIn) rfl rfl rfl rfl rfl rfl
  | rscReg c sf rn rd rm => exact .write sf rd (resRsc (s.opnd rn) (s.opnd rm) s.carryIn) rfl rfl rfl rfl rfl rfl
  | tstImm c sf rn rd rot imm8 => exact .test sf (resTst (s.opnd rn) (immOperand rot imm8)) rfl rfl rfl rfl rfl rfl
  | tstReg c sf rn rd rm => exact .test sf (resTst (s.opnd rn) (s.opnd rm)) rfl rfl rfl rfl rfl rfl
  | teqImm c sf rn rd rot imm8 => exact .test sf (resTeq (s.opnd rn) (immOperand rot imm8)) rfl rfl rfl rfl rfl rfl
  | teqReg c sf rn rd rm => exact .test sf (resTeq (s.opnd rn) (s.opnd rm)) rfl rfl rfl rfl rfl rfl
  | cmpImm c sf rn rd rot imm8 => exact .test sf (resCmp (s.opnd rn) (immOperand rot imm8)) rfl rfl rfl rfl rfl rfl
  | cmpReg c sf rn rd rm => exact .test sf (resCmp (s.opnd rn) (s.opnd rm)) rfl rfl rfl rfl rfl rfl
  | cmnImm c sf rn rd rot imm8 => exact .test sf (resCmn (s.opnd rn) (immOperand rot imm8)) rfl rfl rfl rfl rfl rfl
  | cmnReg c sf rn rd rm => exact .test sf (resCmn (s.opnd rn) (s.opnd rm)) rfl rfl rfl rfl rfl rfl
  | orrImm c sf rn rd rot imm8 => exact .write sf rd (resOrr (s.opnd rn) (immOperand rot imm8)) rfl rfl rfl rfl rfl rfl
  | orrReg c sf rn rd rm => exact .write sf rd (resOrr (s.opnd rn) (s.opnd rm)) rfl rfl rfl rfl rfl rfl
  | movImm c sf rn rd rot imm8 => exact .write sf rd (resMov (immOperand rot imm8)) rfl rfl rfl rfl rfl rfl
  | movReg c sf rn rd rm => exact .write sf rd (resMov (s.opnd rm)) rfl rfl rfl rfl rfl rfl
  | bicImm c sf rn rd rot imm8 => exact .write sf rd (resBic (s.opnd rn) (immOperand rot imm8)) rfl rfl rfl rfl rfl rfl
  | bicReg c sf rn rd rm => exact .write sf rd (resBic (s.opnd rn) (s.opnd rm)) rfl rfl rfl rfl rfl rfl
  | mvnImm c sf rn rd rot imm8 => exact .write sf rd (resMvn (immOperand rot imm8)) rfl rfl rfl rfl rfl rfl
  | mvnReg c sf rn rd rm => exact .write sf rd (resMvn (s.opnd rm)) rfl rfl rfl rfl rfl rfl
  | ldrImm c p u w rn rd off12 => exact .load p u w rn rd (.imm off12) rfl rfl rfl rfl rfl rfl
  | ldrReg c p u w rn rd rm => exact .load p u w rn rd (.reg rm) rfl rfl rfl rfl rfl rfl
  | strImm c p u w rn rd off12 => exact .store p u w rn rd (.imm off12) rfl rfl rfl rfl rfl rfl
  | strReg c p u w rn rd rm => exact .store p u w rn rd (.reg rm) rfl rfl rfl rfl rfl rfl
  | b c imm24 => exact .branch (s.branchTarget imm24) rfl rfl rfl rfl rfl rfl
  | bl c imm24 => exact .link (s.branchTarget imm24) rfl rfl rfl rfl rfl rfl
  | swi c comment => exact .interrupt rfl rfl rfl rfl rfl rfl
  | shiftedRegisterAlu => exact .unsupported .shiftedRegister rfl rfl rfl rfl rfl rfl
  | byteTransfer => exact .unsupported .byteTransfer rfl rfl rfl rfl rfl rfl
  | translatedTransfer => exact .unsupported .translatedTransfer rfl rfl rfl rfl rfl rfl
  | writebackConflict => exact .unsupported .writebackConflict rfl rfl rfl rfl rfl rfl
  | shiftedRegisterTransfer => exact .unsupported .shiftedRegister rfl rfl rfl rfl rfl rfl
  | pcOffsetRegister => exact .unsupported .pcOffsetRegister rfl rfl rfl rfl rfl rfl
  | blockTransfer => exact .unsupported .blockTransfer rfl rfl rfl rfl rfl rfl
  | coprocessor => exact .unsupported .coprocessor rfl rfl rfl rfl rfl rfl

/-! ### What each shape leaves alone -/

theorem aluWrite_kept (sf : Bool) (rd : Reg) (r : AluResult) (s : State) :
    (aluWrite sf rd r s).cfg = s.cfg ∧ (aluWrite sf rd r s).store = s.store ∧ (aluWrite sf rd r s).dmem = s.dmem ∧
      (aluWrite sf rd r s).runState = s.runState ∧ (aluWrite sf rd r s).savedStatus = s.savedStatus := by
  unfold aluWrite
  split <;> [split; skip] <;> exact ⟨rfl, rfl, rfl, rfl, rfl⟩

/-- The status an ALU write leaves: as it was, restored, or with the flags of the result. -/
theorem aluWrite_status (sf : Bool) (rd : Reg) (r : AluResult) (s : State) : (aluWrite sf rd r s).status =
    if sf then (if rd = pcReg then s.savedStatus else r.statusAfter s.status) else s.status := by
  unfold aluWrite
  cases sf <;> by_cases h : rd = pcReg <;> simp [h, State.returnTo]

theorem aluTest_kept (sf : Bool) (r : AluResult) (s : State) :
    (aluTest sf r s).cfg = s.cfg ∧ (aluTest sf r s).store = s.store ∧ (aluTest sf r s).dmem = s.dmem ∧
      (aluTest sf r s).runState = s.runState ∧ (aluTest sf r s).savedStatus = s.savedStatus :=
  ⟨rfl, rfl, rfl, rfl, rfl⟩

theorem aluTest_status (sf : Bool) (r : AluResult) (s : State) : (aluTest sf r s).status =
    if sf then r.statusAfter s.status else s.status := rfl

theorem loadAccess_kept (p u w : Bool) (rn rd : Reg) (o : OffsetForm) (s : State) :
    (loadAccess p u w rn rd o s).cfg = s.cfg ∧ (loadAccess p u w rn rd o s).store = s.store ∧
      (loadAccess p u w rn rd o s).dmem = s.dmem ∧ (loadAccess p u w rn rd o s).runState = s.runState ∧
      (loadAccess p u w rn rd o s).savedStatus = s.savedStatus ∧ (loadAccess p u w rn rd o s).status = s.status := by
  unfold loadAccess
  dsimp only
  split <;> simp

theorem storeAccess_kept (p u w : Bool) (rn rd : Reg) (o : OffsetForm) (s : State) :
    (storeAccess p u w rn rd o s).cfg = s.cfg ∧ (storeAccess p u w rn rd o s).store = s.store ∧
      (storeAccess p u w rn rd o s).runState = s.runState ∧ (storeAccess p u w rn rd o s).savedStatus = s.savedStatus ∧
      (storeAccess p u w rn rd o s).status = s.status := by
  simp [storeAccess]

/-- What a load whose mode is admitted leaves in Rd, the pc and the base register. -/
theorem loadAccess_result {p w : Bool} {rn rd : Reg} (u : Bool) (o : OffsetForm) (s : State) (hm : AdmittedMode p w rn rd) :
    (rd ≠ pcReg → (loadAccess p u w rn rd o s).readReg rd = Memory.readWord s.dmem (accessAddress p u rn o s).toNat ∧
      (loadAccess p u w rn rd o s).pc = s.pc + 4#32) ∧
    (rd = pcReg → (loadAccess p u w rn rd o s).pc = Memory.readWord s.dmem (accessAddress p u rn o s).toNat) ∧
    (WritesBack p w → (loadAccess p u w rn rd o s).readReg rn = offsetAddress u rn o s) := by
  refine ⟨fun h => by simp [loadAccess, h], fun h => by simp [loadAccess, h], fun h => ?_⟩
  have hc := hm.2
  simp only [Conflicts] at hc
  have h1 : rn ≠ pcReg := by tauto
  have h2 : rn ≠ rd := by tauto
  by_cases hp : rd = pcReg
  · simp [loadAccess, hp, h1, State.readReg_writeBack, writesBack_iff, h]
  · simp [loadAccess, hp, h1, h2, State.readReg_writeBack, writesBack_iff, h]

/-- The data memory a store leaves. -/
theorem storeAccess_dmem (p u w : Bool) (rn rd : Reg) (o : OffsetForm) (s : State) :
    (storeAccess p u w rn rd o s).dmem = Memory.writeWord s.dmem (accessAddress p u rn o s).toNat (s.opnd rd) := by
  simp [storeAccess]

/-- What an access leaves alone, the transfer around it leaves alone, unless it is the run state. -/
theorem transfer_keeps {α : Type} (field : State → α) (hrun : ∀ (s : State) (r : RunState), field (s.setRun r) = field s)
    (p u w : Bool) (rn rd : Reg) (o : OffsetForm) {access s : State} (h : field access = field s) :
    field (transfer p u w rn rd o access s) = field s := by
  rcases transfer_cases p u w rn rd o access s with ⟨r, e⟩ | ⟨f, e⟩ | ⟨e, _⟩
  · rw [e]; exact hrun _ _
  · rw [e]; exact hrun _ _
  · rw [e]; exact h

/-- The registers an access may change, a transfer may change. -/
theorem loadAccess_regs (p u w : Bool) (rn rd : Reg) (o : OffsetForm) (s : State) :
    SameRegs (if writesBack p w then [rd, rn] else [rd]) s (loadAccess p u w rn rd o s) := by
  intro j hj hin
  by_cases hp : rd = pcReg <;> by_cases hw : writesBack p w = true <;>
    simp_all [loadAccess, State.readReg_writeBack]

theorem storeAccess_regs (p u w : Bool) (rn rd : Reg) (o : OffsetForm) (s : State) :
    SameRegs (if writesBack p w then [rn] else []) s (storeAccess p u w rn rd o s) := by
  intro j hj hin
  by_cases hw : writesBack p w = true <;> simp_all [storeAccess, State.readReg_writeBack]

theorem transfer_regs {p u w : Bool} {rn rd : Reg} {o : OffsetForm} {access s : State} {rs : List Reg}
    (h : SameRegs rs s access) : SameRegs rs s (transfer p u w rn rd o access s) := by
  rcases transfer_cases p u w rn rd o access s with ⟨r, e⟩ | ⟨f, e⟩ | ⟨e, _⟩
  · rw [e]; exact fun _ _ _ => rfl
  · rw [e]; exact fun _ _ _ => rfl
  · rw [e]; exact h

/-! ### What a run-ending transfer looks like -/

/-- A transfer whose access keeps the run state changes the run state only by ending the run with everything else as it was. -/
theorem transfer_ends {p u w : Bool} {rn rd : Reg} {o : OffsetForm} {access s : State} (h : access.runState = s.runState)
    (hne : (transfer p u w rn rd o access s).runState ≠ s.runState) :
    (∃ r, transfer p u w rn rd o access s = s.raiseUnsupported r) ∨ (∃ f, transfer p u w rn rd o access s = s.raiseFault f) := by
  rcases transfer_cases p u w rn rd o access s with h1 | h1 | ⟨e, _⟩
  · exact .inl h1
  · exact .inr h1
  · rw [e] at hne; exact absurd h hne

end Sys2Proof.Machine
end

