-- ==== Sys2Proof/Laws/Encoding.lean ====
section
/-! SUPPORT. Each field of a packed word is the field packed, and a word is the packing of its own fields. -/

namespace Sys2Proof

@[simp] theorem Cond.ofCode_code (c : Cond) : Cond.ofCode c.code = c := by cases c <;> rfl

@[simp] theorem Cond.code_ofCode (b : BitVec 4) : (Cond.ofCode b).code = b := by revert b; decide

@[simp] theorem AluOp.ofCode_code (o : AluOp) : AluOp.ofCode o.code = o := by cases o <;> rfl

@[simp] theorem AluOp.code_ofCode (b : BitVec 4) : (AluOp.ofCode b).code = b := by revert b; decide

/-! ### packAluImm -/

@[simp] theorem field_28_4_packAluImm (c : Cond) (op : AluOp) (sf : Bool) (rn rd : Reg) (rot : BitVec 4) (imm8 : Byte) : fieldOf (packAluImm c op sf rn rd rot imm8) 28 4 = c.code := by
  apply BitVec.eq_of_getLsbD_eq
  intro k hk
  simp only [fieldOf, packAluImm, place, flag]
  interval_cases k <;> simp

@[simp] theorem field_21_4_packAluImm (c : Cond) (op : AluOp) (sf : Bool) (rn rd : Reg) (rot : BitVec 4) (imm8 : Byte) : fieldOf (packAluImm c op sf rn rd rot imm8) 21 4 = op.code := by
  apply BitVec.eq_of_getLsbD_eq
  intro k hk
  simp only [fieldOf, packAluImm, place, flag]
  interval_cases k <;> simp

@[simp] theorem field_16_4_packAluImm (c : Cond) (op : AluOp) (sf : Bool) (rn rd : Reg) (rot : BitVec 4) (imm8 : Byte) : fieldOf (packAluImm c op sf rn rd rot imm8) 16 4 = rn := by
  apply BitVec.eq_of_getLsbD_eq
  intro k hk
  simp only [fieldOf, packAluImm, place, flag]
  interval_cases k <;> simp

@[simp] theorem field_12_4_packAluImm (c : Cond) (op : AluOp) (sf : Bool) (rn rd : Reg) (rot : BitVec 4) (imm8 : Byte) : fieldOf (packAluImm c op sf rn rd rot imm8) 12 4 = rd := by
  apply BitVec.eq_of_getLsbD_eq
  intro k hk
  simp only [fieldOf, packAluImm, place, flag]
  interval_cases k <;> simp

@[simp] theorem field_8_4_packAluImm (c : Cond) (op : AluOp) (sf : Bool) (rn rd : Reg) (rot : BitVec 4) (imm8 : Byte) : fieldOf (packAluImm c op sf rn rd rot imm8) 8 4 = rot := by
  apply BitVec.eq_of_getLsbD_eq
  intro k hk
  simp only [fieldOf, packAluImm, place, flag]
  interval_cases k <;> simp

@[simp] theorem field_0_8_packAluImm (c : Cond) (op : AluOp) (sf : Bool) (rn rd : Reg) (rot : BitVec 4) (imm8 : Byte) : fieldOf (packAluImm c op sf rn rd rot imm8) 0 8 = imm8 := by
  apply BitVec.eq_of_getLsbD_eq
  intro k hk
  simp only [fieldOf, packAluImm, place, flag]
  interval_cases k <;> simp

@[simp] theorem bit_27_packAluImm (c : Cond) (op : AluOp) (sf : Bool) (rn rd : Reg) (rot : BitVec 4) (imm8 : Byte) : bitOf (packAluImm c op sf rn rd rot imm8) 27 = false := by
  simp [bitOf, packAluImm, place, flag]

@[simp] theorem bit_26_packAluImm (c : Cond) (op : AluOp) (sf : Bool) (rn rd : Reg) (rot : BitVec 4) (imm8 : Byte) : bitOf (packAluImm c op sf rn rd rot imm8) 26 = false := by
  simp [bitOf, packAluImm, place, flag]

@[simp] theorem bit_25_packAluImm (c : Cond) (op : AluOp) (sf : Bool) (rn rd : Reg) (rot : BitVec 4) (imm8 : Byte) : bitOf (packAluImm c op sf rn rd rot imm8) 25 = true := by
  simp [bitOf, packAluImm, place, flag]

@[simp] theorem bit_20_packAluImm (c : Cond) (op : AluOp) (sf : Bool) (rn rd : Reg) (rot : BitVec 4) (imm8 : Byte) : bitOf (packAluImm c op sf rn rd rot imm8) 20 = sf := by
  simp [bitOf, packAluImm, place, flag]

/-! ### packAluReg -/

@[simp] theorem field_28_4_packAluReg (c : Cond) (op : AluOp) (sf : Bool) (rn rd : Reg) (sh : Byte) (rm : Reg) : fieldOf (packAluReg c op sf rn rd sh rm) 28 4 = c.code := by
  apply BitVec.eq_of_getLsbD_eq
  intro k hk
  simp only [fieldOf, packAluReg, place, flag]
  interval_cases k <;> simp

@[simp] theorem field_21_4_packAluReg (c : Cond) (op : AluOp) (sf : Bool) (rn rd : Reg) (sh : Byte) (rm : Reg) : fieldOf (packAluReg c op sf rn rd sh rm) 21 4 = op.code := by
  apply BitVec.eq_of_getLsbD_eq
  intro k hk
  simp only [fieldOf, packAluReg, place, flag]
  interval_cases k <;> simp

@[simp] theorem field_16_4_packAluReg (c : Cond) (op : AluOp) (sf : Bool) (rn rd : Reg) (sh : Byte) (rm : Reg) : fieldOf (packAluReg c op sf rn rd sh rm) 16 4 = rn := by
  apply BitVec.eq_of_getLsbD_eq
  intro k hk
  simp only [fieldOf, packAluReg, place, flag]
  interval_cases k <;> simp

@[simp] theorem field_12_4_packAluReg (c : Cond) (op : AluOp) (sf : Bool) (rn rd : Reg) (sh : Byte) (rm : Reg) : fieldOf (packAluReg c op sf rn rd sh rm) 12 4 = rd := by
  apply BitVec.eq_of_getLsbD_eq
  intro k hk
  simp only [fieldOf, packAluReg, place, flag]
  interval_cases k <;> simp

@[simp] theorem field_4_8_packAluReg (c : Cond) (op : AluOp) (sf : Bool) (rn rd : Reg) (sh : Byte) (rm : Reg) : fieldOf (packAluReg c op sf rn rd sh rm) 4 8 = sh := by
  apply BitVec.eq_of_getLsbD_eq
  intro k hk
  simp only [fieldOf, packAluReg, place, flag]
  interval_cases k <;> simp

@[simp] theorem field_0_4_packAluReg (c : Cond) (op : AluOp) (sf : Bool) (rn rd : Reg) (sh : Byte) (rm : Reg) : fieldOf (packAluReg c op sf rn rd sh rm) 0 4 = rm := by
  apply BitVec.eq_of_getLsbD_eq
  intro k hk
  simp only [fieldOf, packAluReg, place, flag]
  interval_cases k <;> simp

@[simp] theorem bit_27_packAluReg (c : Cond) (op : AluOp) (sf : Bool) (rn rd : Reg) (sh : Byte) (rm : Reg) : bitOf (packAluReg c op sf rn rd sh rm) 27 = false := by
  simp [bitOf, packAluReg, place, flag]

@[simp] theorem bit_26_packAluReg (c : Cond) (op : AluOp) (sf : Bool) (rn rd : Reg) (sh : Byte) (rm : Reg) : bitOf (packAluReg c op sf rn rd sh rm) 26 = false := by
  simp [bitOf, packAluReg, place, flag]

@[simp] theorem bit_25_packAluReg (c : Cond) (op : AluOp) (sf : Bool) (rn rd : Reg) (sh : Byte) (rm : Reg) : bitOf (packAluReg c op sf rn rd sh rm) 25 = false := by
  simp [bitOf, packAluReg, place, flag]

@[simp] theorem bit_20_packAluReg (c : Cond) (op : AluOp) (sf : Bool) (rn rd : Reg) (sh : Byte) (rm : Reg) : bitOf (packAluReg c op sf rn rd sh rm) 20 = sf := by
  simp [bitOf, packAluReg, place, flag]

/-! ### packTransfer -/

@[simp] theorem field_28_4_packTransfer (c : Cond) (i p u b w l : Bool) (rn rd : Reg) (off12 : BitVec 12) : fieldOf (packTransfer c i p u b w l rn rd off12) 28 4 = c.code := by
  apply BitVec.eq_of_getLsbD_eq
  intro k hk
  simp only [fieldOf, packTransfer, place, flag]
  interval_cases k <;> simp

@[simp] theorem field_16_4_packTransfer (c : Cond) (i p u b w l : Bool) (rn rd : Reg) (off12 : BitVec 12) : fieldOf (packTransfer c i p u b w l rn rd off12) 16 4 = rn := by
  apply BitVec.eq_of_getLsbD_eq
  intro k hk
  simp only [fieldOf, packTransfer, place, flag]
  interval_cases k <;> simp

@[simp] theorem field_12_4_packTransfer (c : Cond) (i p u b w l : Bool) (rn rd : Reg) (off12 : BitVec 12) : fieldOf (packTransfer c i p u b w l rn rd off12) 12 4 = rd := by
  apply BitVec.eq_of_getLsbD_eq
  intro k hk
  simp only [fieldOf, packTransfer, place, flag]
  interval_cases k <;> simp

@[simp] theorem field_0_12_packTransfer (c : Cond) (i p u b w l : Bool) (rn rd : Reg) (off12 : BitVec 12) : fieldOf (packTransfer c i p u b w l rn rd off12) 0 12 = off12 := by
  apply BitVec.eq_of_getLsbD_eq
  intro k hk
  simp only [fieldOf, packTransfer, place, flag]
  interval_cases k <;> simp

@[simp] theorem field_4_8_packTransfer (c : Cond) (i p u b w l : Bool) (rn rd : Reg) (off12 : BitVec 12) : fieldOf (packTransfer c i p u b w l rn rd off12) 4 8 = (off12.extractLsb' 4 8) := by
  apply BitVec.eq_of_getLsbD_eq
  intro k hk
  simp only [fieldOf, packTransfer, place, flag]
  interval_cases k <;> simp

@[simp] theorem field_0_4_packTransfer (c : Cond) (i p u b w l : Bool) (rn rd : Reg) (off12 : BitVec 12) : fieldOf (packTransfer c i p u b w l rn rd off12) 0 4 = (off12.extractLsb' 0 4) := by
  apply BitVec.eq_of_getLsbD_eq
  intro k hk
  simp only [fieldOf, packTransfer, place, flag]
  interval_cases k <;> simp

@[simp] theorem bit_27_packTransfer (c : Cond) (i p u b w l : Bool) (rn rd : Reg) (off12 : BitVec 12) : bitOf (packTransfer c i p u b w l rn rd off12) 27 = false := by
  simp [bitOf, packTransfer, place, flag]

@[simp] theorem bit_26_packTransfer (c : Cond) (i p u b w l : Bool) (rn rd : Reg) (off12 : BitVec 12) : bitOf (packTransfer c i p u b w l rn rd off12) 26 = true := by
  simp [bitOf, packTransfer, place, flag]

@[simp] theorem bit_25_packTransfer (c : Cond) (i p u b w l : Bool) (rn rd : Reg) (off12 : BitVec 12) : bitOf (packTransfer c i p u b w l rn rd off12) 25 = i := by
  simp [bitOf, packTransfer, place, flag]

@[simp] theorem bit_24_packTransfer (c : Cond) (i p u b w l : Bool) (rn rd : Reg) (off12 : BitVec 12) : bitOf (packTransfer c i p u b w l rn rd off12) 24 = p := by
  simp [bitOf, packTransfer, place, flag]

@[simp] theorem bit_23_packTransfer (c : Cond) (i p u b w l : Bool) (rn rd : Reg) (off12 : BitVec 12) : bitOf (packTransfer c i p u b w l rn rd off12) 23 = u := by
  simp [bitOf, packTransfer, place, flag]

@[simp] theorem bit_22_packTransfer (c : Cond) (i p u b w l : Bool) (rn rd : Reg) (off12 : BitVec 12) : bitOf (packTransfer c i p u b w l rn rd off12) 22 = b := by
  simp [bitOf, packTransfer, place, flag]

@[simp] theorem bit_21_packTransfer (c : Cond) (i p u b w l : Bool) (rn rd : Reg) (off12 : BitVec 12) : bitOf (packTransfer c i p u b w l rn rd off12) 21 = w := by
  simp [bitOf, packTransfer, place, flag]

@[simp] theorem bit_20_packTransfer (c : Cond) (i p u b w l : Bool) (rn rd : Reg) (off12 : BitVec 12) : bitOf (packTransfer c i p u b w l rn rd off12) 20 = l := by
  simp [bitOf, packTransfer, place, flag]

/-! ### packBranch -/

@[simp] theorem field_28_4_packBranch (c : Cond) (l : Bool) (imm24 : BitVec 24) : fieldOf (packBranch c l imm24) 28 4 = c.code := by
  apply BitVec.eq_of_getLsbD_eq
  intro k hk
  simp only [fieldOf, packBranch, place, flag]
  interval_cases k <;> simp

@[simp] theorem field_0_24_packBranch (c : Cond) (l : Bool) (imm24 : BitVec 24) : fieldOf (packBranch c l imm24) 0 24 = imm24 := by
  apply BitVec.eq_of_getLsbD_eq
  intro k hk
  simp only [fieldOf, packBranch, place, flag]
  interval_cases k <;> simp

@[simp] theorem bit_27_packBranch (c : Cond) (l : Bool) (imm24 : BitVec 24) : bitOf (packBranch c l imm24) 27 = true := by
  simp [bitOf, packBranch, place, flag]

@[simp] theorem bit_26_packBranch (c : Cond) (l : Bool) (imm24 : BitVec 24) : bitOf (packBranch c l imm24) 26 = false := by
  simp [bitOf, packBranch, place, flag]

@[simp] theorem bit_25_packBranch (c : Cond) (l : Bool) (imm24 : BitVec 24) : bitOf (packBranch c l imm24) 25 = true := by
  simp [bitOf, packBranch, place, flag]

@[simp] theorem bit_24_packBranch (c : Cond) (l : Bool) (imm24 : BitVec 24) : bitOf (packBranch c l imm24) 24 = l := by
  simp [bitOf, packBranch, place, flag]

/-! ### packBlock -/

@[simp] theorem field_28_4_packBlock (c : Cond) (rest : BitVec 25) : fieldOf (packBlock c rest) 28 4 = c.code := by
  apply BitVec.eq_of_getLsbD_eq
  intro k hk
  simp only [fieldOf, packBlock, place, flag]
  interval_cases k <;> simp

@[simp] theorem field_0_25_packBlock (c : Cond) (rest : BitVec 25) : fieldOf (packBlock c rest) 0 25 = rest := by
  apply BitVec.eq_of_getLsbD_eq
  intro k hk
  simp only [fieldOf, packBlock, place, flag]
  interval_cases k <;> simp

@[simp] theorem bit_27_packBlock (c : Cond) (rest : BitVec 25) : bitOf (packBlock c rest) 27 = true := by
  simp [bitOf, packBlock, place, flag]

@[simp] theorem bit_26_packBlock (c : Cond) (rest : BitVec 25) : bitOf (packBlock c rest) 26 = false := by
  simp [bitOf, packBlock, place, flag]

@[simp] theorem bit_25_packBlock (c : Cond) (rest : BitVec 25) : bitOf (packBlock c rest) 25 = false := by
  simp [bitOf, packBlock, place, flag]

/-! ### packInterrupt -/

@[simp] theorem field_28_4_packInterrupt (c : Cond) (sub : BitVec 2) (rest : BitVec 24) : fieldOf (packInterrupt c sub rest) 28 4 = c.code := by
  apply BitVec.eq_of_getLsbD_eq
  intro k hk
  simp only [fieldOf, packInterrupt, place]
  interval_cases k <;> simp

@[simp] theorem field_24_2_packInterrupt (c : Cond) (sub : BitVec 2) (rest : BitVec 24) : fieldOf (packInterrupt c sub rest) 24 2 = sub := by
  apply BitVec.eq_of_getLsbD_eq
  intro k hk
  simp only [fieldOf, packInterrupt, place]
  interval_cases k <;> simp

@[simp] theorem field_0_24_packInterrupt (c : Cond) (sub : BitVec 2) (rest : BitVec 24) : fieldOf (packInterrupt c sub rest) 0 24 = rest := by
  apply BitVec.eq_of_getLsbD_eq
  intro k hk
  simp only [fieldOf, packInterrupt, place]
  interval_cases k <;> simp

@[simp] theorem bit_27_packInterrupt (c : Cond) (sub : BitVec 2) (rest : BitVec 24) : bitOf (packInterrupt c sub rest) 27 = true := by
  simp [bitOf, packInterrupt, place]

@[simp] theorem bit_26_packInterrupt (c : Cond) (sub : BitVec 2) (rest : BitVec 24) : bitOf (packInterrupt c sub rest) 26 = true := by
  simp [bitOf, packInterrupt, place]

/-! ### A register offset -/

@[simp] theorem shift_regOffset (sh : Byte) (rm : Reg) : (regOffset sh rm).extractLsb' 4 8 = sh := by
  apply BitVec.eq_of_getLsbD_eq
  intro k hk
  simp only [regOffset]
  interval_cases k <;> simp

@[simp] theorem rm_regOffset (sh : Byte) (rm : Reg) : (regOffset sh rm).extractLsb' 0 4 = rm := by
  apply BitVec.eq_of_getLsbD_eq
  intro k hk
  simp only [regOffset]
  interval_cases k <;> simp

/-- The offset field of a word is its shift field and Rm. -/
@[simp] theorem regOffset_fields (w : Word) : regOffset (fieldOf w 4 8) (fieldOf w 0 4) = fieldOf w 0 12 := by
  apply BitVec.eq_of_getLsbD_eq
  intro k hk
  simp only [regOffset, fieldOf]
  interval_cases k <;> simp

/-! ### A word is the packing of its fields -/

theorem packAluImm_fields (w : Word) (h27 : bitOf w 27 = false) (h26 : bitOf w 26 = false) (h25 : bitOf w 25 = true) :
    packAluImm (Cond.ofCode (fieldOf w 28 4)) (AluOp.ofCode (fieldOf w 21 4)) (bitOf w 20) (fieldOf w 16 4) (fieldOf w 12 4)
      (fieldOf w 8 4) (fieldOf w 0 8) = w := by
  apply BitVec.eq_of_getLsbD_eq
  intro k hk
  simp only [packAluImm, place, flag, Cond.code_ofCode, AluOp.code_ofCode, fieldOf, bitOf] at *
  interval_cases k <;> simp_all

theorem packAluReg_fields (w : Word) (h27 : bitOf w 27 = false) (h26 : bitOf w 26 = false) (h25 : bitOf w 25 = false) :
    packAluReg (Cond.ofCode (fieldOf w 28 4)) (AluOp.ofCode (fieldOf w 21 4)) (bitOf w 20) (fieldOf w 16 4) (fieldOf w 12 4)
      (fieldOf w 4 8) (fieldOf w 0 4) = w := by
  apply BitVec.eq_of_getLsbD_eq
  intro k hk
  simp only [packAluReg, place, flag, Cond.code_ofCode, AluOp.code_ofCode, fieldOf, bitOf] at *
  interval_cases k <;> simp_all

theorem packTransfer_fields (w : Word) (h27 : bitOf w 27 = false) (h26 : bitOf w 26 = true) :
    packTransfer (Cond.ofCode (fieldOf w 28 4)) (bitOf w 25) (bitOf w 24) (bitOf w 23) (bitOf w 22) (bitOf w 21) (bitOf w 20)
      (fieldOf w 16 4) (fieldOf w 12 4) (fieldOf w 0 12) = w := by
  apply BitVec.eq_of_getLsbD_eq
  intro k hk
  simp only [packTransfer, place, flag, Cond.code_ofCode, fieldOf, bitOf] at *
  interval_cases k <;> simp_all

theorem packBranch_fields (w : Word) (h27 : bitOf w 27 = true) (h26 : bitOf w 26 = false) (h25 : bitOf w 25 = true) :
    packBranch (Cond.ofCode (fieldOf w 28 4)) (bitOf w 24) (fieldOf w 0 24) = w := by
  apply BitVec.eq_of_getLsbD_eq
  intro k hk
  simp only [packBranch, place, flag, Cond.code_ofCode, fieldOf, bitOf] at *
  interval_cases k <;> simp_all

theorem packBlock_fields (w : Word) (h27 : bitOf w 27 = true) (h26 : bitOf w 26 = false) (h25 : bitOf w 25 = false) :
    packBlock (Cond.ofCode (fieldOf w 28 4)) (fieldOf w 0 25) = w := by
  apply BitVec.eq_of_getLsbD_eq
  intro k hk
  simp only [packBlock, place, flag, Cond.code_ofCode, fieldOf, bitOf] at *
  interval_cases k <;> simp_all

theorem packInterrupt_fields (w : Word) (h27 : bitOf w 27 = true) (h26 : bitOf w 26 = true) :
    packInterrupt (Cond.ofCode (fieldOf w 28 4)) (fieldOf w 24 2) (fieldOf w 0 24) = w := by
  apply BitVec.eq_of_getLsbD_eq
  intro k hk
  simp only [packInterrupt, place, Cond.code_ofCode, fieldOf, bitOf] at *
  interval_cases k <;> simp_all

/-! ### What every word decodes to -/

/-- The two bits of the category (30_encoding R72). -/
theorem bits_of_category {w : Word} {b : BitVec 2} (h : w.extractLsb' 26 2 = b) :
    bitOf w 27 = b.getLsbD 1 ∧ bitOf w 26 = b.getLsbD 0 := by
  subst h
  simp [bitOf]

/-- Every row keeps the condition of its word (30_encoding R71). -/
theorem cond_decode (w : Word) : (decode w).cond = Cond.ofCode (fieldOf w 28 4) := by
  simp only [decode, decodeInterrupt, decodeBranch, decodeTransfer, decodeAlu]
  generalize AluOp.ofCode (fieldOf w 21 4) = op
  repeat' split
  all_goals first | rfl | (cases op <;> rfl)

theorem decode_of_transfer_category {w : Word} (h : w.extractLsb' 26 2 = 0b01#2) :
    decode w = decodeTransfer (Cond.ofCode (fieldOf w 28 4)) w := by
  obtain ⟨h27, h26⟩ := bits_of_category h
  simp [decode, h27, h26]

end Sys2Proof
end

