-- ==== Sys2Proof/Laws/PerInstr.lean ====
section
/-! SUPPORT. Two facts about the word of every instruction, one lemma per constructor: its condition field (30_encoding R71) and its category
(30_encoding R72). -/

namespace Sys2Proof.Laws

/-- Bits 31:28 of the word are the code of the condition (30_encoding R71). -/
def CondField.Statement (i : Instr) : Prop := fieldOf (encode i) 28 4 = i.cond.code

/-- The category of each row (30_encoding R72). -/
def categoryOf : Instr → BitVec 2
  | .andImm _ _ _ _ _ _ => 0b00#2
  | .andReg _ _ _ _ _ => 0b00#2
  | .eorImm _ _ _ _ _ _ => 0b00#2
  | .eorReg _ _ _ _ _ => 0b00#2
  | .subImm _ _ _ _ _ _ => 0b00#2
  | .subReg _ _ _ _ _ => 0b00#2
  | .rsbImm _ _ _ _ _ _ => 0b00#2
  | .rsbReg _ _ _ _ _ => 0b00#2
  | .addImm _ _ _ _ _ _ => 0b00#2
  | .addReg _ _ _ _ _ => 0b00#2
  | .adcImm _ _ _ _ _ _ => 0b00#2
  | .adcReg _ _ _ _ _ => 0b00#2
  | .sbcImm _ _ _ _ _ _ => 0b00#2
  | .sbcReg _ _ _ _ _ => 0b00#2
  | .rscImm _ _ _ _ _ _ => 0b00#2
  | .rscReg _ _ _ _ _ => 0b00#2
  | .tstImm _ _ _ _ _ _ => 0b00#2
  | .tstReg _ _ _ _ _ => 0b00#2
  | .teqImm _ _ _ _ _ _ => 0b00#2
  | .teqReg _ _ _ _ _ => 0b00#2
  | .cmpImm _ _ _ _ _ _ => 0b00#2
  | .cmpReg _ _ _ _ _ => 0b00#2
  | .cmnImm _ _ _ _ _ _ => 0b00#2
  | .cmnReg _ _ _ _ _ => 0b00#2
  | .orrImm _ _ _ _ _ _ => 0b00#2
  | .orrReg _ _ _ _ _ => 0b00#2
  | .movImm _ _ _ _ _ _ => 0b00#2
  | .movReg _ _ _ _ _ => 0b00#2
  | .bicImm _ _ _ _ _ _ => 0b00#2
  | .bicReg _ _ _ _ _ => 0b00#2
  | .mvnImm _ _ _ _ _ _ => 0b00#2
  | .mvnReg _ _ _ _ _ => 0b00#2
  | .ldrImm _ _ _ _ _ _ _ => 0b01#2
  | .ldrReg _ _ _ _ _ _ _ => 0b01#2
  | .strImm _ _ _ _ _ _ _ => 0b01#2
  | .strReg _ _ _ _ _ _ _ => 0b01#2
  | .b _ _ => 0b10#2
  | .bl _ _ => 0b10#2
  | .swi _ _ => 0b11#2
  | .shiftedRegisterAlu _ _ _ _ _ _ _ => 0b00#2
  | .byteTransfer _ _ _ _ _ _ _ _ _ => 0b01#2
  | .translatedTransfer _ _ _ _ _ _ _ => 0b01#2
  | .writebackConflict _ _ _ _ _ _ _ _ _ => 0b01#2
  | .shiftedRegisterTransfer _ _ _ _ _ _ _ _ _ => 0b01#2
  | .pcOffsetRegister _ _ _ _ _ _ _ => 0b01#2
  | .blockTransfer _ _ => 0b10#2
  | .coprocessor _ _ _ => 0b11#2

/-- Bits 27:26 of the word are the category of the row (30_encoding R72). -/
def WordCategory.Statement (i : Instr) : Prop := fieldOf (encode i) 26 2 = categoryOf i

/-- Two bits are a two-bit field. -/
theorem category_of_bits {w : Word} {b : BitVec 2} (h27 : bitOf w 27 = b.getLsbD 1) (h26 : bitOf w 26 = b.getLsbD 0) :
    fieldOf w 26 2 = b := by
  apply BitVec.eq_of_getLsbD_eq
  intro k hk
  interval_cases k
  · simpa [fieldOf, bitOf] using h26
  · simpa [fieldOf, bitOf] using h27

/-! ### The condition field -/

theorem CondField.andImm (c : Cond) (sf : Bool) (rn : Reg) (rd : Reg) (rot : BitVec 4) (imm8 : Byte) : CondField.Statement (.andImm c sf rn rd rot imm8) := by
  simp [CondField.Statement, encode, Instr.cond]

theorem CondField.andReg (c : Cond) (sf : Bool) (rn : Reg) (rd : Reg) (rm : Reg) : CondField.Statement (.andReg c sf rn rd rm) := by
  simp [CondField.Statement, encode, Instr.cond]

theorem CondField.eorImm (c : Cond) (sf : Bool) (rn : Reg) (rd : Reg) (rot : BitVec 4) (imm8 : Byte) : CondField.Statement (.eorImm c sf rn rd rot imm8) := by
  simp [CondField.Statement, encode, Instr.cond]

theorem CondField.eorReg (c : Cond) (sf : Bool) (rn : Reg) (rd : Reg) (rm : Reg) : CondField.Statement (.eorReg c sf rn rd rm) := by
  simp [CondField.Statement, encode, Instr.cond]

theorem CondField.subImm (c : Cond) (sf : Bool) (rn : Reg) (rd : Reg) (rot : BitVec 4) (imm8 : Byte) : CondField.Statement (.subImm c sf rn rd rot imm8) := by
  simp [CondField.Statement, encode, Instr.cond]

theorem CondField.subReg (c : Cond) (sf : Bool) (rn : Reg) (rd : Reg) (rm : Reg) : CondField.Statement (.subReg c sf rn rd rm) := by
  simp [CondField.Statement, encode, Instr.cond]

theorem CondField.rsbImm (c : Cond) (sf : Bool) (rn : Reg) (rd : Reg) (rot : BitVec 4) (imm8 : Byte) : CondField.Statement (.rsbImm c sf rn rd rot imm8) := by
  simp [CondField.Statement, encode, Instr.cond]

theorem CondField.rsbReg (c : Cond) (sf : Bool) (rn : Reg) (rd : Reg) (rm : Reg) : CondField.Statement (.rsbReg c sf rn rd rm) := by
  simp [CondField.Statement, encode, Instr.cond]

theorem CondField.addImm (c : Cond) (sf : Bool) (rn : Reg) (rd : Reg) (rot : BitVec 4) (imm8 : Byte) : CondField.Statement (.addImm c sf rn rd rot imm8) := by
  simp [CondField.Statement, encode, Instr.cond]

theorem CondField.addReg (c : Cond) (sf : Bool) (rn : Reg) (rd : Reg) (rm : Reg) : CondField.Statement (.addReg c sf rn rd rm) := by
  simp [CondField.Statement, encode, Instr.cond]

theorem CondField.adcImm (c : Cond) (sf : Bool) (rn : Reg) (rd : Reg) (rot : BitVec 4) (imm8 : Byte) : CondField.Statement (.adcImm c sf rn rd rot imm8) := by
  simp [CondField.Statement, encode, Instr.cond]

theorem CondField.adcReg (c : Cond) (sf : Bool) (rn : Reg) (rd : Reg) (rm : Reg) : CondField.Statement (.adcReg c sf rn rd rm) := by
  simp [CondField.Statement, encode, Instr.cond]

theorem CondField.sbcImm (c : Cond) (sf : Bool) (rn : Reg) (rd : Reg) (rot : BitVec 4) (imm8 : Byte) : CondField.Statement (.sbcImm c sf rn rd rot imm8) := by
  simp [CondField.Statement, encode, Instr.cond]

theorem CondField.sbcReg (c : Cond) (sf : Bool) (rn : Reg) (rd : Reg) (rm : Reg) : CondField.Statement (.sbcReg c sf rn rd rm) := by
  simp [CondField.Statement, encode, Instr.cond]

theorem CondField.rscImm (c : Cond) (sf : Bool) (rn : Reg) (rd : Reg) (rot : BitVec 4) (imm8 : Byte) : CondField.Statement (.rscImm c sf rn rd rot imm8) := by
  simp [CondField.Statement, encode, Instr.cond]

theorem CondField.rscReg (c : Cond) (sf : Bool) (rn : Reg) (rd : Reg) (rm : Reg) : CondField.Statement (.rscReg c sf rn rd rm) := by
  simp [CondField.Statement, encode, Instr.cond]

theorem CondField.tstImm (c : Cond) (sf : Bool) (rn : Reg) (rd : Reg) (rot : BitVec 4) (imm8 : Byte) : CondField.Statement (.tstImm c sf rn rd rot imm8) := by
  simp [CondField.Statement, encode, Instr.cond]

theorem CondField.tstReg (c : Cond) (sf : Bool) (rn : Reg) (rd : Reg) (rm : Reg) : CondField.Statement (.tstReg c sf rn rd rm) := by
  simp [CondField.Statement, encode, Instr.cond]

theorem CondField.teqImm (c : Cond) (sf : Bool) (rn : Reg) (rd : Reg) (rot : BitVec 4) (imm8 : Byte) : CondField.Statement (.teqImm c sf rn rd rot imm8) := by
  simp [CondField.Statement, encode, Instr.cond]

theorem CondField.teqReg (c : Cond) (sf : Bool) (rn : Reg) (rd : Reg) (rm : Reg) : CondField.Statement (.teqReg c sf rn rd rm) := by
  simp [CondField.Statement, encode, Instr.cond]

theorem CondField.cmpImm (c : Cond) (sf : Bool) (rn : Reg) (rd : Reg) (rot : BitVec 4) (imm8 : Byte) : CondField.Statement (.cmpImm c sf rn rd rot imm8) := by
  simp [CondField.Statement, encode, Instr.cond]

theorem CondField.cmpReg (c : Cond) (sf : Bool) (rn : Reg) (rd : Reg) (rm : Reg) : CondField.Statement (.cmpReg c sf rn rd rm) := by
  simp [CondField.Statement, encode, Instr.cond]

theorem CondField.cmnImm (c : Cond) (sf : Bool) (rn : Reg) (rd : Reg) (rot : BitVec 4) (imm8 : Byte) : CondField.Statement (.cmnImm c sf rn rd rot imm8) := by
  simp [CondField.Statement, encode, Instr.cond]

theorem CondField.cmnReg (c : Cond) (sf : Bool) (rn : Reg) (rd : Reg) (rm : Reg) : CondField.Statement (.cmnReg c sf rn rd rm) := by
  simp [CondField.Statement, encode, Instr.cond]

theorem CondField.orrImm (c : Cond) (sf : Bool) (rn : Reg) (rd : Reg) (rot : BitVec 4) (imm8 : Byte) : CondField.Statement (.orrImm c sf rn rd rot imm8) := by
  simp [CondField.Statement, encode, Instr.cond]

theorem CondField.orrReg (c : Cond) (sf : Bool) (rn : Reg) (rd : Reg) (rm : Reg) : CondField.Statement (.orrReg c sf rn rd rm) := by
  simp [CondField.Statement, encode, Instr.cond]

theorem CondField.movImm (c : Cond) (sf : Bool) (rn : Reg) (rd : Reg) (rot : BitVec 4) (imm8 : Byte) : CondField.Statement (.movImm c sf rn rd rot imm8) := by
  simp [CondField.Statement, encode, Instr.cond]

theorem CondField.movReg (c : Cond) (sf : Bool) (rn : Reg) (rd : Reg) (rm : Reg) : CondField.Statement (.movReg c sf rn rd rm) := by
  simp [CondField.Statement, encode, Instr.cond]

theorem CondField.bicImm (c : Cond) (sf : Bool) (rn : Reg) (rd : Reg) (rot : BitVec 4) (imm8 : Byte) : CondField.Statement (.bicImm c sf rn rd rot imm8) := by
  simp [CondField.Statement, encode, Instr.cond]

theorem CondField.bicReg (c : Cond) (sf : Bool) (rn : Reg) (rd : Reg) (rm : Reg) : CondField.Statement (.bicReg c sf rn rd rm) := by
  simp [CondField.Statement, encode, Instr.cond]

theorem CondField.mvnImm (c : Cond) (sf : Bool) (rn : Reg) (rd : Reg) (rot : BitVec 4) (imm8 : Byte) : CondField.Statement (.mvnImm c sf rn rd rot imm8) := by
  simp [CondField.Statement, encode, Instr.cond]

theorem CondField.mvnReg (c : Cond) (sf : Bool) (rn : Reg) (rd : Reg) (rm : Reg) : CondField.Statement (.mvnReg c sf rn rd rm) := by
  simp [CondField.Statement, encode, Instr.cond]

theorem CondField.ldrImm (c : Cond) (p : Bool) (u : Bool) (w : Bool) (rn : Reg) (rd : Reg) (off12 : BitVec 12) : CondField.Statement (.ldrImm c p u w rn rd off12) := by
  simp [CondField.Statement, encode, Instr.cond]

theorem CondField.ldrReg (c : Cond) (p : Bool) (u : Bool) (w : Bool) (rn : Reg) (rd : Reg) (rm : Reg) : CondField.Statement (.ldrReg c p u w rn rd rm) := by
  simp [CondField.Statement, encode, Instr.cond]

theorem CondField.strImm (c : Cond) (p : Bool) (u : Bool) (w : Bool) (rn : Reg) (rd : Reg) (off12 : BitVec 12) : CondField.Statement (.strImm c p u w rn rd off12) := by
  simp [CondField.Statement, encode, Instr.cond]

theorem CondField.strReg (c : Cond) (p : Bool) (u : Bool) (w : Bool) (rn : Reg) (rd : Reg) (rm : Reg) : CondField.Statement (.strReg c p u w rn rd rm) := by
  simp [CondField.Statement, encode, Instr.cond]

theorem CondField.b (c : Cond) (imm24 : BitVec 24) : CondField.Statement (.b c imm24) := by
  simp [CondField.Statement, encode, Instr.cond]

theorem CondField.bl (c : Cond) (imm24 : BitVec 24) : CondField.Statement (.bl c imm24) := by
  simp [CondField.Statement, encode, Instr.cond]

theorem CondField.swi (c : Cond) (comment : BitVec 24) : CondField.Statement (.swi c comment) := by
  simp [CondField.Statement, encode, Instr.cond]

theorem CondField.shiftedRegisterAlu (c : Cond) (op : AluOp) (sf : Bool) (rn : Reg) (rd : Reg) (sh : Byte) (rm : Reg) : CondField.Statement (.shiftedRegisterAlu c op sf rn rd sh rm) := by
  simp [CondField.Statement, encode, Instr.cond]

theorem CondField.byteTransfer (c : Cond) (i : Bool) (p : Bool) (u : Bool) (w : Bool) (l : Bool) (rn : Reg) (rd : Reg) (off12 : BitVec 12) : CondField.Statement (.byteTransfer c i p u w l rn rd off12) := by
  simp [CondField.Statement, encode, Instr.cond]

theorem CondField.translatedTransfer (c : Cond) (i : Bool) (u : Bool) (l : Bool) (rn : Reg) (rd : Reg) (off12 : BitVec 12) : CondField.Statement (.translatedTransfer c i u l rn rd off12) := by
  simp [CondField.Statement, encode, Instr.cond]

theorem CondField.writebackConflict (c : Cond) (i : Bool) (p : Bool) (u : Bool) (w : Bool) (l : Bool) (rn : Reg) (rd : Reg) (off12 : BitVec 12) : CondField.Statement (.writebackConflict c i p u w l rn rd off12) := by
  simp [CondField.Statement, encode, Instr.cond]

theorem CondField.shiftedRegisterTransfer (c : Cond) (p : Bool) (u : Bool) (w : Bool) (l : Bool) (rn : Reg) (rd : Reg) (sh : Byte) (rm : Reg) : CondField.Statement (.shiftedRegisterTransfer c p u w l rn rd sh rm) := by
  simp [CondField.Statement, encode, Instr.cond]

theorem CondField.pcOffsetRegister (c : Cond) (p : Bool) (u : Bool) (w : Bool) (l : Bool) (rn : Reg) (rd : Reg) : CondField.Statement (.pcOffsetRegister c p u w l rn rd) := by
  simp [CondField.Statement, encode, Instr.cond]

theorem CondField.blockTransfer (c : Cond) (rest : BitVec 25) : CondField.Statement (.blockTransfer c rest) := by
  simp [CondField.Statement, encode, Instr.cond]

theorem CondField.coprocessor (c : Cond) (sub : BitVec 2) (rest : BitVec 24) : CondField.Statement (.coprocessor c sub rest) := by
  simp [CondField.Statement, encode, Instr.cond]

/-! ### The category -/

theorem WordCategory.andImm (c : Cond) (sf : Bool) (rn : Reg) (rd : Reg) (rot : BitVec 4) (imm8 : Byte) : WordCategory.Statement (.andImm c sf rn rd rot imm8) :=
  category_of_bits (by simp [encode, categoryOf]) (by simp [encode, categoryOf])

theorem WordCategory.andReg (c : Cond) (sf : Bool) (rn : Reg) (rd : Reg) (rm : Reg) : WordCategory.Statement (.andReg c sf rn rd rm) :=
  category_of_bits (by simp [encode, categoryOf]) (by simp [encode, categoryOf])

theorem WordCategory.eorImm (c : Cond) (sf : Bool) (rn : Reg) (rd : Reg) (rot : BitVec 4) (imm8 : Byte) : WordCategory.Statement (.eorImm c sf rn rd rot imm8) :=
  category_of_bits (by simp [encode, categoryOf]) (by simp [encode, categoryOf])

theorem WordCategory.eorReg (c : Cond) (sf : Bool) (rn : Reg) (rd : Reg) (rm : Reg) : WordCategory.Statement (.eorReg c sf rn rd rm) :=
  category_of_bits (by simp [encode, categoryOf]) (by simp [encode, categoryOf])

theorem WordCategory.subImm (c : Cond) (sf : Bool) (rn : Reg) (rd : Reg) (rot : BitVec 4) (imm8 : Byte) : WordCategory.Statement (.subImm c sf rn rd rot imm8) :=
  category_of_bits (by simp [encode, categoryOf]) (by simp [encode, categoryOf])

theorem WordCategory.subReg (c : Cond) (sf : Bool) (rn : Reg) (rd : Reg) (rm : Reg) : WordCategory.Statement (.subReg c sf rn rd rm) :=
  category_of_bits (by simp [encode, categoryOf]) (by simp [encode, categoryOf])

theorem WordCategory.rsbImm (c : Cond) (sf : Bool) (rn : Reg) (rd : Reg) (rot : BitVec 4) (imm8 : Byte) : WordCategory.Statement (.rsbImm c sf rn rd rot imm8) :=
  category_of_bits (by simp [encode, categoryOf]) (by simp [encode, categoryOf])

theorem WordCategory.rsbReg (c : Cond) (sf : Bool) (rn : Reg) (rd : Reg) (rm : Reg) : WordCategory.Statement (.rsbReg c sf rn rd rm) :=
  category_of_bits (by simp [encode, categoryOf]) (by simp [encode, categoryOf])

theorem WordCategory.addImm (c : Cond) (sf : Bool) (rn : Reg) (rd : Reg) (rot : BitVec 4) (imm8 : Byte) : WordCategory.Statement (.addImm c sf rn rd rot imm8) :=
  category_of_bits (by simp [encode, categoryOf]) (by simp [encode, categoryOf])

theorem WordCategory.addReg (c : Cond) (sf : Bool) (rn : Reg) (rd : Reg) (rm : Reg) : WordCategory.Statement (.addReg c sf rn rd rm) :=
  category_of_bits (by simp [encode, categoryOf]) (by simp [encode, categoryOf])

theorem WordCategory.adcImm (c : Cond) (sf : Bool) (rn : Reg) (rd : Reg) (rot : BitVec 4) (imm8 : Byte) : WordCategory.Statement (.adcImm c sf rn rd rot imm8) :=
  category_of_bits (by simp [encode, categoryOf]) (by simp [encode, categoryOf])

theorem WordCategory.adcReg (c : Cond) (sf : Bool) (rn : Reg) (rd : Reg) (rm : Reg) : WordCategory.Statement (.adcReg c sf rn rd rm) :=
  category_of_bits (by simp [encode, categoryOf]) (by simp [encode, categoryOf])

theorem WordCategory.sbcImm (c : Cond) (sf : Bool) (rn : Reg) (rd : Reg) (rot : BitVec 4) (imm8 : Byte) : WordCategory.Statement (.sbcImm c sf rn rd rot imm8) :=
  category_of_bits (by simp [encode, categoryOf]) (by simp [encode, categoryOf])

theorem WordCategory.sbcReg (c : Cond) (sf : Bool) (rn : Reg) (rd : Reg) (rm : Reg) : WordCategory.Statement (.sbcReg c sf rn rd rm) :=
  category_of_bits (by simp [encode, categoryOf]) (by simp [encode, categoryOf])

theorem WordCategory.rscImm (c : Cond) (sf : Bool) (rn : Reg) (rd : Reg) (rot : BitVec 4) (imm8 : Byte) : WordCategory.Statement (.rscImm c sf rn rd rot imm8) :=
  category_of_bits (by simp [encode, categoryOf]) (by simp [encode, categoryOf])

theorem WordCategory.rscReg (c : Cond) (sf : Bool) (rn : Reg) (rd : Reg) (rm : Reg) : WordCategory.Statement (.rscReg c sf rn rd rm) :=
  category_of_bits (by simp [encode, categoryOf]) (by simp [encode, categoryOf])

theorem WordCategory.tstImm (c : Cond) (sf : Bool) (rn : Reg) (rd : Reg) (rot : BitVec 4) (imm8 : Byte) : WordCategory.Statement (.tstImm c sf rn rd rot imm8) :=
  category_of_bits (by simp [encode, categoryOf]) (by simp [encode, categoryOf])

theorem WordCategory.tstReg (c : Cond) (sf : Bool) (rn : Reg) (rd : Reg) (rm : Reg) : WordCategory.Statement (.tstReg c sf rn rd rm) :=
  category_of_bits (by simp [encode, categoryOf]) (by simp [encode, categoryOf])

theorem WordCategory.teqImm (c : Cond) (sf : Bool) (rn : Reg) (rd : Reg) (rot : BitVec 4) (imm8 : Byte) : WordCategory.Statement (.teqImm c sf rn rd rot imm8) :=
  category_of_bits (by simp [encode, categoryOf]) (by simp [encode, categoryOf])

theorem WordCategory.teqReg (c : Cond) (sf : Bool) (rn : Reg) (rd : Reg) (rm : Reg) : WordCategory.Statement (.teqReg c sf rn rd rm) :=
  category_of_bits (by simp [encode, categoryOf]) (by simp [encode, categoryOf])

theorem WordCategory.cmpImm (c : Cond) (sf : Bool) (rn : Reg) (rd : Reg) (rot : BitVec 4) (imm8 : Byte) : WordCategory.Statement (.cmpImm c sf rn rd rot imm8) :=
  category_of_bits (by simp [encode, categoryOf]) (by simp [encode, categoryOf])

theorem WordCategory.cmpReg (c : Cond) (sf : Bool) (rn : Reg) (rd : Reg) (rm : Reg) : WordCategory.Statement (.cmpReg c sf rn rd rm) :=
  category_of_bits (by simp [encode, categoryOf]) (by simp [encode, categoryOf])

theorem WordCategory.cmnImm (c : Cond) (sf : Bool) (rn : Reg) (rd : Reg) (rot : BitVec 4) (imm8 : Byte) : WordCategory.Statement (.cmnImm c sf rn rd rot imm8) :=
  category_of_bits (by simp [encode, categoryOf]) (by simp [encode, categoryOf])

theorem WordCategory.cmnReg (c : Cond) (sf : Bool) (rn : Reg) (rd : Reg) (rm : Reg) : WordCategory.Statement (.cmnReg c sf rn rd rm) :=
  category_of_bits (by simp [encode, categoryOf]) (by simp [encode, categoryOf])

theorem WordCategory.orrImm (c : Cond) (sf : Bool) (rn : Reg) (rd : Reg) (rot : BitVec 4) (imm8 : Byte) : WordCategory.Statement (.orrImm c sf rn rd rot imm8) :=
  category_of_bits (by simp [encode, categoryOf]) (by simp [encode, categoryOf])

theorem WordCategory.orrReg (c : Cond) (sf : Bool) (rn : Reg) (rd : Reg) (rm : Reg) : WordCategory.Statement (.orrReg c sf rn rd rm) :=
  category_of_bits (by simp [encode, categoryOf]) (by simp [encode, categoryOf])

theorem WordCategory.movImm (c : Cond) (sf : Bool) (rn : Reg) (rd : Reg) (rot : BitVec 4) (imm8 : Byte) : WordCategory.Statement (.movImm c sf rn rd rot imm8) :=
  category_of_bits (by simp [encode, categoryOf]) (by simp [encode, categoryOf])

theorem WordCategory.movReg (c : Cond) (sf : Bool) (rn : Reg) (rd : Reg) (rm : Reg) : WordCategory.Statement (.movReg c sf rn rd rm) :=
  category_of_bits (by simp [encode, categoryOf]) (by simp [encode, categoryOf])

theorem WordCategory.bicImm (c : Cond) (sf : Bool) (rn : Reg) (rd : Reg) (rot : BitVec 4) (imm8 : Byte) : WordCategory.Statement (.bicImm c sf rn rd rot imm8) :=
  category_of_bits (by simp [encode, categoryOf]) (by simp [encode, categoryOf])

theorem WordCategory.bicReg (c : Cond) (sf : Bool) (rn : Reg) (rd : Reg) (rm : Reg) : WordCategory.Statement (.bicReg c sf rn rd rm) :=
  category_of_bits (by simp [encode, categoryOf]) (by simp [encode, categoryOf])

theorem WordCategory.mvnImm (c : Cond) (sf : Bool) (rn : Reg) (rd : Reg) (rot : BitVec 4) (imm8 : Byte) : WordCategory.Statement (.mvnImm c sf rn rd rot imm8) :=
  category_of_bits (by simp [encode, categoryOf]) (by simp [encode, categoryOf])

theorem WordCategory.mvnReg (c : Cond) (sf : Bool) (rn : Reg) (rd : Reg) (rm : Reg) : WordCategory.Statement (.mvnReg c sf rn rd rm) :=
  category_of_bits (by simp [encode, categoryOf]) (by simp [encode, categoryOf])

theorem WordCategory.ldrImm (c : Cond) (p : Bool) (u : Bool) (w : Bool) (rn : Reg) (rd : Reg) (off12 : BitVec 12) : WordCategory.Statement (.ldrImm c p u w rn rd off12) :=
  category_of_bits (by simp [encode, categoryOf]) (by simp [encode, categoryOf])

theorem WordCategory.ldrReg (c : Cond) (p : Bool) (u : Bool) (w : Bool) (rn : Reg) (rd : Reg) (rm : Reg) : WordCategory.Statement (.ldrReg c p u w rn rd rm) :=
  category_of_bits (by simp [encode, categoryOf]) (by simp [encode, categoryOf])

theorem WordCategory.strImm (c : Cond) (p : Bool) (u : Bool) (w : Bool) (rn : Reg) (rd : Reg) (off12 : BitVec 12) : WordCategory.Statement (.strImm c p u w rn rd off12) :=
  category_of_bits (by simp [encode, categoryOf]) (by simp [encode, categoryOf])

theorem WordCategory.strReg (c : Cond) (p : Bool) (u : Bool) (w : Bool) (rn : Reg) (rd : Reg) (rm : Reg) : WordCategory.Statement (.strReg c p u w rn rd rm) :=
  category_of_bits (by simp [encode, categoryOf]) (by simp [encode, categoryOf])

theorem WordCategory.b (c : Cond) (imm24 : BitVec 24) : WordCategory.Statement (.b c imm24) :=
  category_of_bits (by simp [encode, categoryOf]) (by simp [encode, categoryOf])

theorem WordCategory.bl (c : Cond) (imm24 : BitVec 24) : WordCategory.Statement (.bl c imm24) :=
  category_of_bits (by simp [encode, categoryOf]) (by simp [encode, categoryOf])

theorem WordCategory.swi (c : Cond) (comment : BitVec 24) : WordCategory.Statement (.swi c comment) :=
  category_of_bits (by simp [encode, categoryOf]) (by simp [encode, categoryOf])

theorem WordCategory.shiftedRegisterAlu (c : Cond) (op : AluOp) (sf : Bool) (rn : Reg) (rd : Reg) (sh : Byte) (rm : Reg) : WordCategory.Statement (.shiftedRegisterAlu c op sf rn rd sh rm) :=
  category_of_bits (by simp [encode, categoryOf]) (by simp [encode, categoryOf])

theorem WordCategory.byteTransfer (c : Cond) (i : Bool) (p : Bool) (u : Bool) (w : Bool) (l : Bool) (rn : Reg) (rd : Reg) (off12 : BitVec 12) : WordCategory.Statement (.byteTransfer c i p u w l rn rd off12) :=
  category_of_bits (by simp [encode, categoryOf]) (by simp [encode, categoryOf])

theorem WordCategory.translatedTransfer (c : Cond) (i : Bool) (u : Bool) (l : Bool) (rn : Reg) (rd : Reg) (off12 : BitVec 12) : WordCategory.Statement (.translatedTransfer c i u l rn rd off12) :=
  category_of_bits (by simp [encode, categoryOf]) (by simp [encode, categoryOf])

theorem WordCategory.writebackConflict (c : Cond) (i : Bool) (p : Bool) (u : Bool) (w : Bool) (l : Bool) (rn : Reg) (rd : Reg) (off12 : BitVec 12) : WordCategory.Statement (.writebackConflict c i p u w l rn rd off12) :=
  category_of_bits (by simp [encode, categoryOf]) (by simp [encode, categoryOf])

theorem WordCategory.shiftedRegisterTransfer (c : Cond) (p : Bool) (u : Bool) (w : Bool) (l : Bool) (rn : Reg) (rd : Reg) (sh : Byte) (rm : Reg) : WordCategory.Statement (.shiftedRegisterTransfer c p u w l rn rd sh rm) :=
  category_of_bits (by simp [encode, categoryOf]) (by simp [encode, categoryOf])

theorem WordCategory.pcOffsetRegister (c : Cond) (p : Bool) (u : Bool) (w : Bool) (l : Bool) (rn : Reg) (rd : Reg) : WordCategory.Statement (.pcOffsetRegister c p u w l rn rd) :=
  category_of_bits (by simp [encode, categoryOf]) (by simp [encode, categoryOf])

theorem WordCategory.blockTransfer (c : Cond) (rest : BitVec 25) : WordCategory.Statement (.blockTransfer c rest) :=
  category_of_bits (by simp [encode, categoryOf]) (by simp [encode, categoryOf])

theorem WordCategory.coprocessor (c : Cond) (sub : BitVec 2) (rest : BitVec 24) : WordCategory.Statement (.coprocessor c sub rest) :=
  category_of_bits (by simp [encode, categoryOf]) (by simp [encode, categoryOf])

end Sys2Proof.Laws
end

