-- ==== Sys2Proof/Tests/Slice0.lean ====
section
/-! SUPPORT. Tests: ill-formed terms refused, one word of every row decoded, one step on the spec's own vectors (95_test_vectors.md), and
a witness for the hypotheses of every statement. Vector ids (A-ADD-2, T-5 and so on) are those of 95_test_vectors.md. -/

namespace Sys2Proof.Tests

open Sys2Proof Sys2Proof.Machine

/-! ## WellFormed: each check refuses an ill-formed term (30_encoding R85, 43_transfer R170) -/

theorem test_illFormed_ldrImm_translated : (Instr.ldrImm .al false true true 0#4 1#4 0#12).wellFormed = false := by decide
theorem test_illFormed_ldrImm_base_pc : (Instr.ldrImm .al false true false 15#4 1#4 4#12).wellFormed = false := by decide
theorem test_illFormed_ldrImm_base_rd : (Instr.ldrImm .al true true true 1#4 1#4 4#12).wellFormed = false := by decide
theorem test_illFormed_ldrReg_translated : (Instr.ldrReg .al false true true 0#4 1#4 2#4).wellFormed = false := by decide
theorem test_illFormed_ldrReg_base_rd : (Instr.ldrReg .al false true false 1#4 1#4 2#4).wellFormed = false := by decide
theorem test_illFormed_ldrReg_offset_pc : (Instr.ldrReg .al true true false 0#4 1#4 15#4).wellFormed = false := by decide
theorem test_illFormed_strImm_translated : (Instr.strImm .al false true true 0#4 1#4 0#12).wellFormed = false := by decide
theorem test_illFormed_strImm_base_pc : (Instr.strImm .al false true false 15#4 1#4 4#12).wellFormed = false := by decide
theorem test_illFormed_strReg_base_pc : (Instr.strReg .al true true true 15#4 1#4 2#4).wellFormed = false := by decide
theorem test_illFormed_strReg_offset_pc : (Instr.strReg .al true true false 0#4 1#4 15#4).wellFormed = false := by decide
theorem test_illFormed_shiftedRegisterAlu_no_shift : (Instr.shiftedRegisterAlu .al .add false 0#4 1#4 0#8 2#4).wellFormed = false := by decide
theorem test_illFormed_writebackConflict_none : (Instr.writebackConflict .al false true true true true 0#4 1#4 0#12).wellFormed = false := by decide
theorem test_illFormed_writebackConflict_translated : (Instr.writebackConflict .al false false true true true 1#4 1#4 0#12).wellFormed = false := by decide
theorem test_illFormed_shiftedRegisterTransfer_no_shift : (Instr.shiftedRegisterTransfer .al true true false true 0#4 1#4 0#8 2#4).wellFormed = false := by decide
theorem test_illFormed_shiftedRegisterTransfer_conflict : (Instr.shiftedRegisterTransfer .al true true true true 1#4 1#4 8#8 2#4).wellFormed = false := by decide
theorem test_illFormed_pcOffsetRegister_conflict : (Instr.pcOffsetRegister .al false true false true 15#4 1#4).wellFormed = false := by decide
theorem test_illFormed_coprocessor_is_swi : (Instr.coprocessor .al 0b11#2 0#24).wellFormed = false := by decide

/-! ## Decode: a word of every row, its fields laid out as 30_encoding R71 to R81 say

ALU words have Rn = 1, Rd = 2 and S = 1; an immediate operand has rot = 3 and imm8 = 0x45, a register operand has Rm = 3. -/

theorem test_decode_andImm : decode 0xE2112345#32 = .andImm .al true 1#4 2#4 3#4 0x45#8 := by decide
theorem test_decode_andReg : decode 0xE0112003#32 = .andReg .al true 1#4 2#4 3#4 := by decide
theorem test_decode_eorImm : decode 0xE2312345#32 = .eorImm .al true 1#4 2#4 3#4 0x45#8 := by decide
theorem test_decode_eorReg : decode 0xE0312003#32 = .eorReg .al true 1#4 2#4 3#4 := by decide
theorem test_decode_subImm : decode 0xE2512345#32 = .subImm .al true 1#4 2#4 3#4 0x45#8 := by decide
theorem test_decode_subReg : decode 0xE0512003#32 = .subReg .al true 1#4 2#4 3#4 := by decide
theorem test_decode_rsbImm : decode 0xE2712345#32 = .rsbImm .al true 1#4 2#4 3#4 0x45#8 := by decide
theorem test_decode_rsbReg : decode 0xE0712003#32 = .rsbReg .al true 1#4 2#4 3#4 := by decide
theorem test_decode_addImm : decode 0xE2912345#32 = .addImm .al true 1#4 2#4 3#4 0x45#8 := by decide
theorem test_decode_addReg : decode 0xE0912003#32 = .addReg .al true 1#4 2#4 3#4 := by decide
theorem test_decode_adcImm : decode 0xE2B12345#32 = .adcImm .al true 1#4 2#4 3#4 0x45#8 := by decide
theorem test_decode_adcReg : decode 0xE0B12003#32 = .adcReg .al true 1#4 2#4 3#4 := by decide
theorem test_decode_sbcImm : decode 0xE2D12345#32 = .sbcImm .al true 1#4 2#4 3#4 0x45#8 := by decide
theorem test_decode_sbcReg : decode 0xE0D12003#32 = .sbcReg .al true 1#4 2#4 3#4 := by decide
theorem test_decode_rscImm : decode 0xE2F12345#32 = .rscImm .al true 1#4 2#4 3#4 0x45#8 := by decide
theorem test_decode_rscReg : decode 0xE0F12003#32 = .rscReg .al true 1#4 2#4 3#4 := by decide
theorem test_decode_tstImm : decode 0xE3112345#32 = .tstImm .al true 1#4 2#4 3#4 0x45#8 := by decide
theorem test_decode_tstReg : decode 0xE1112003#32 = .tstReg .al true 1#4 2#4 3#4 := by decide
theorem test_decode_teqImm : decode 0xE3312345#32 = .teqImm .al true 1#4 2#4 3#4 0x45#8 := by decide
theorem test_decode_teqReg : decode 0xE1312003#32 = .teqReg .al true 1#4 2#4 3#4 := by decide
theorem test_decode_cmpImm : decode 0xE3512345#32 = .cmpImm .al true 1#4 2#4 3#4 0x45#8 := by decide
theorem test_decode_cmpReg : decode 0xE1512003#32 = .cmpReg .al true 1#4 2#4 3#4 := by decide
theorem test_decode_cmnImm : decode 0xE3712345#32 = .cmnImm .al true 1#4 2#4 3#4 0x45#8 := by decide
theorem test_decode_cmnReg : decode 0xE1712003#32 = .cmnReg .al true 1#4 2#4 3#4 := by decide
theorem test_decode_orrImm : decode 0xE3912345#32 = .orrImm .al true 1#4 2#4 3#4 0x45#8 := by decide
theorem test_decode_orrReg : decode 0xE1912003#32 = .orrReg .al true 1#4 2#4 3#4 := by decide
theorem test_decode_movImm : decode 0xE3B12345#32 = .movImm .al true 1#4 2#4 3#4 0x45#8 := by decide
theorem test_decode_movReg : decode 0xE1B12003#32 = .movReg .al true 1#4 2#4 3#4 := by decide
theorem test_decode_bicImm : decode 0xE3D12345#32 = .bicImm .al true 1#4 2#4 3#4 0x45#8 := by decide
theorem test_decode_bicReg : decode 0xE1D12003#32 = .bicReg .al true 1#4 2#4 3#4 := by decide
theorem test_decode_mvnImm : decode 0xE3F12345#32 = .mvnImm .al true 1#4 2#4 3#4 0x45#8 := by decide
theorem test_decode_mvnReg : decode 0xE1F12003#32 = .mvnReg .al true 1#4 2#4 3#4 := by decide
/-- 95_test_vectors.md 2.1. -/
theorem test_decode_ldrImm : decode 0xE5901004#32 = .ldrImm .al true true false 0#4 1#4 0x004#12 := by decide
/-- 95_test_vectors.md 2.1. -/
theorem test_decode_ldrReg : decode 0xE7903001#32 = .ldrReg .al true true false 0#4 3#4 1#4 := by decide
/-- 95_test_vectors.md 2.1. -/
theorem test_decode_strImm : decode 0xE5201008#32 = .strImm .al true false true 0#4 1#4 0x008#12 := by decide
/-- R77, R78. -/
theorem test_decode_strReg : decode 0xE7801002#32 = .strReg .al true true false 0#4 1#4 2#4 := by decide
/-- 95_test_vectors.md 2.1. -/
theorem test_decode_b : decode 0x1AFFFFFC#32 = .b .ne 0xFFFFFC#24 := by decide
/-- 95_test_vectors.md 2.1. -/
theorem test_decode_bl : decode 0xEB000001#32 = .bl .al 0x000001#24 := by decide
/-- S-2. -/
theorem test_decode_swi : decode 0xEF123456#32 = .swi .al 0x123456#24 := by decide
/-- 95_test_vectors.md 2.1. -/
theorem test_decode_shiftedRegisterAlu : decode 0xE0801080#32 = .shiftedRegisterAlu .al .add false 0#4 1#4 0x08#8 0#4 := by decide
/-- T-15. -/
theorem test_decode_byteTransfer : decode 0xE5D01000#32 = .byteTransfer .al false true true false true 0#4 1#4 0x000#12 := by decide
/-- T-16. -/
theorem test_decode_translatedTransfer : decode 0xE4B01000#32 = .translatedTransfer .al false true true 0#4 1#4 0x000#12 := by decide
/-- T-17. -/
theorem test_decode_writebackConflict : decode 0xE5B00004#32 = .writebackConflict .al false true true true true 0#4 0#4 0x004#12 := by decide
/-- T-19. -/
theorem test_decode_shiftedRegisterTransfer : decode 0xE7901082#32 = .shiftedRegisterTransfer .al true true false true 0#4 1#4 0x08#8 2#4 := by decide
/-- T-20. -/
theorem test_decode_pcOffsetRegister : decode 0xE790100F#32 = .pcOffsetRegister .al true true false true 0#4 1#4 := by decide
/-- 95_test_vectors.md 2.1. -/
theorem test_decode_blockTransfer : decode 0xE8900003#32 = .blockTransfer .al 0x0900003#25 := by decide
/-- S-5. -/
theorem test_decode_coprocessor : decode 0xEC000000#32 = .coprocessor .al 0b00#2 0x000000#24 := by decide
/-- The B check comes before the others (T-21). -/
theorem test_decode_order : decode 0xE4F01001#32 = .byteTransfer .al false false true true true 0#4 1#4 0x001#12 := by decide

/-- The bytes of a word, least significant first (20_memory R55), and one byte too few. -/
theorem test_decodeBytes : decodeBytes [0x08#8, 0x10#8, 0x20#8, 0xE5#8, 0x77#8] =
    .ok (.strImm .al true false true 0#4 1#4 0x008#12, [0x77#8]) ∧
    decodeBytes [0x08#8, 0x10#8, 0x20#8] = .error .truncated := ⟨by rfl, by rfl⟩

/-- The table of 95_test_vectors.md 2.2. -/
theorem test_immOperand : immOperand 0#4 0x01#8 = 0x00000001#32 ∧ immOperand 1#4 0x01#8 = 0x40000000#32 ∧
    immOperand 4#4 0xFF#8 = 0xFF000000#32 ∧ immOperand 15#4 0xFF#8 = 0x000003FC#32 ∧ immOperand 8#4 0x3F#8 = 0x003F0000#32 ∧
    immOperand 12#4 0x02#8 = 0x00000200#32 := by decide

/-- The rows HI, GE and LE of 95_test_vectors.md 1.5, over the 16 values of NZCV. -/
theorem test_conditions :
    (List.range 16).map (fun n => (condHolds .hi (BitVec.ofNat 8 (16 * n))).toNat) = [0,0,1,1,0,0,0,0,0,0,1,1,0,0,0,0] ∧
    (List.range 16).map (fun n => (condHolds .ge (BitVec.ofNat 8 (16 * n))).toNat) = [1,0,1,0,1,0,1,0,0,1,0,1,0,1,0,1] ∧
    (List.range 16).map (fun n => (condHolds .le (BitVec.ofNat 8 (16 * n))).toNat) = [0,1,0,1,1,1,1,1,1,0,1,0,1,1,1,1] := by
  decide

/-! ## One step on the spec's vectors -/

/-- The start state of a single-step vector at address `a` with some registers, status values and data words set. -/
def start (a : Word) (rs : List (Reg × Word)) (st saved : Byte) (mem : List (Nat × Word)) : State :=
  let s := rs.foldl (fun s x => s.writeReg x.1 x.2) (State.create Config.ofVectors)
  (((s.setPc a).setStatus st).setSaved saved).setMem (mem.foldl (fun m x => Memory.writeWord m x.1 x.2) [])

/-- One step on the word `w` placed at the pc. -/
def oneStep (w : Nat) (s : State) : State :=
  match step (s.withFetchWord 32 w) with
  | .next t => t
  | .fault _ => s
  | .refused _ => s

/-- Some registers, the pc, both status registers and the run state. -/
def view (rs : List Reg) (t : State) : List Word × Word × Byte × Byte × RunState :=
  (rs.map t.readReg, t.pc, t.status, t.savedStatus, t.runState)

/-- A-AND-1. -/
theorem test_andReg :
    view [2#4] (oneStep 0xE0102001 (start 0#32 [(0#4, 0xF0F0F0F0#32), (1#4, 0x0FF00FF0#32)] 0x30#8 0#8 [])) =
      ([0x00F000F0#32], 4#32, 0x30#8, 0#8, .running) := by decide

/-- A-AND-2. -/
theorem test_andImm :
    view [2#4] (oneStep 0xE2102000 (start 0#32 [(0#4, 0xFFFFFFFF#32)] 0x30#8 0#8 [])) =
      ([0x00000000#32], 4#32, 0x70#8, 0#8, .running) := by decide

/-- A-EOR-1, X-12. -/
theorem test_eorReg :
    view [2#4] (oneStep 0xE0302001 (start 0#32 [(0#4, 0xFFFF0000#32), (1#4, 0x0F0F0F0F#32)] 0x00#8 0#8 [])) =
      ([0xF0F00F0F#32], 4#32, 0x80#8, 0#8, .running) ∧
    view [0#4] (oneStep 0xE0300000 (start 0x0#32 [(0#4, 0x1234#32)] 0x30#8 0x00#8 [])) =
      ([0x0#32], 0x4#32, 0x70#8, 0x00#8, .running) := by decide

/-- 41_alu R141 by hand. -/
theorem test_eorImm :
    view [2#4] (oneStep 0xE230200F (start 0#32 [(0#4, 0x0000000F#32)] 0x00#8 0#8 [])) =
      ([0x00000000#32], 4#32, 0x40#8, 0#8, .running) := by decide

/-- A-SUB-1, X-13. -/
theorem test_subReg :
    view [2#4] (oneStep 0xE0502001 (start 0#32 [(0#4, 0x00000000#32), (1#4, 0x80000000#32)] 0x00#8 0#8 [])) =
      ([0x80000000#32], 4#32, 0x90#8, 0#8, .running) ∧
    view [2#4] (oneStep 0xE0402001 (start 0x0#32 [(0#4, 0x5#32), (1#4, 0x7#32)] 0xF0#8 0x00#8 [])) =
      ([0xFFFFFFFE#32], 0x4#32, 0xF0#8, 0x00#8, .running) := by decide

/-- A-SUB-3, S-8. -/
theorem test_subImm :
    view [2#4] (oneStep 0xE2502007 (start 0#32 [(0#4, 0x00000005#32)] 0x00#8 0#8 [])) =
      ([0xFFFFFFFE#32], 4#32, 0x80#8, 0#8, .running) ∧
    view [14#4] (oneStep 0xE25EF004 (start 0xC#32 [(14#4, 0x14#32)] 0x68#8 0x90#8 [])) =
      ([0x14#32], 0x10#32, 0x90#8, 0x90#8, .running) := by decide

/-- A-RSB-1. -/
theorem test_rsbReg :
    view [2#4] (oneStep 0xE0702001 (start 0#32 [(0#4, 0x00000005#32), (1#4, 0x00000007#32)] 0x00#8 0#8 [])) =
      ([0x00000002#32], 4#32, 0x20#8, 0#8, .running) := by decide

/-- A-RSB-2. -/
theorem test_rsbImm :
    view [2#4] (oneStep 0xE2702000 (start 0#32 [(0#4, 0x80000000#32)] 0x00#8 0#8 [])) =
      ([0x80000000#32], 4#32, 0x90#8, 0#8, .running) := by decide

/-- A-ADD-5, X-8, X-11. -/
theorem test_addReg :
    view [2#4] (oneStep 0xE0902001 (start 0#32 [(0#4, 0xFFFFFFFF#32), (1#4, 0xFFFFFFFF#32)] 0x00#8 0#8 [])) =
      ([0xFFFFFFFE#32], 4#32, 0xA0#8, 0#8, .running) ∧
    view [1#4] (oneStep 0xE0911001 (start 0x0#32 [(1#4, 0x80000000#32)] 0x00#8 0x00#8 [])) =
      ([0x0#32], 0x4#32, 0x70#8, 0x00#8, .running) ∧
    view [2#4] (oneStep 0xE0902001 (start 0x0#32 [(0#4, 0xFFFFFFFF#32), (1#4, 0x1#32)] 0x18#8 0x00#8 [])) =
      ([0x0#32], 0x4#32, 0x68#8, 0x00#8, .running) := by decide

/-- A-ADD-3, X-2. -/
theorem test_addImm :
    view [2#4] (oneStep 0xE2902001 (start 0#32 [(0#4, 0x7FFFFFFF#32)] 0x00#8 0#8 [])) =
      ([0x80000000#32], 4#32, 0x90#8, 0#8, .running) ∧
    view [0#4] (oneStep 0xE28F0004 (start 0x10#32 [] 0x00#8 0x00#8 [])) =
      ([0x1C#32], 0x14#32, 0x00#8, 0x00#8, .running) := by decide

/-- A-ADC-3. -/
theorem test_adcReg :
    view [2#4] (oneStep 0xE0B02001 (start 0#32 [(0#4, 0x00000001#32), (1#4, 0x00000001#32)] 0x00#8 0#8 [])) =
      ([0x00000002#32], 4#32, 0x00#8, 0#8, .running) := by decide

/-- A-ADC-2. -/
theorem test_adcImm :
    view [2#4] (oneStep 0xE2B02000 (start 0#32 [(0#4, 0x7FFFFFFF#32)] 0x20#8 0#8 [])) =
      ([0x80000000#32], 4#32, 0x90#8, 0#8, .running) := by decide

/-- A-SBC-1, A-SBC-2. -/
theorem test_sbcReg :
    view [2#4] (oneStep 0xE0D02001 (start 0#32 [(0#4, 0x00000005#32), (1#4, 0x00000005#32)] 0x00#8 0#8 [])) =
      ([0xFFFFFFFF#32], 4#32, 0x80#8, 0#8, .running) ∧
    view [2#4] (oneStep 0xE0D02001 (start 0#32 [(0#4, 0x00000005#32), (1#4, 0x00000005#32)] 0x20#8 0#8 [])) =
      ([0x00000000#32], 4#32, 0x60#8, 0#8, .running) := by decide

/-- A-SBC-4. -/
theorem test_sbcImm :
    view [2#4] (oneStep 0xE2D02000 (start 0#32 [(0#4, 0x80000000#32)] 0x00#8 0#8 [])) =
      ([0x7FFFFFFF#32], 4#32, 0x30#8, 0#8, .running) := by decide

/-- A-RSC-2. -/
theorem test_rscReg :
    view [2#4] (oneStep 0xE0F02001 (start 0#32 [(0#4, 0x00000005#32), (1#4, 0x00000005#32)] 0x00#8 0#8 [])) =
      ([0xFFFFFFFF#32], 4#32, 0x80#8, 0#8, .running) := by decide

/-- A-RSC-3. -/
theorem test_rscImm :
    view [2#4] (oneStep 0xE2F02000 (start 0#32 [(0#4, 0x00000001#32)] 0x20#8 0#8 [])) =
      ([0xFFFFFFFF#32], 4#32, 0x80#8, 0#8, .running) := by decide

/-- A-TST-1, X-5. -/
theorem test_tstReg :
    view [2#4] (oneStep 0xE1102001 (start 0#32 [(0#4, 0x80000000#32), (1#4, 0x80000001#32)] 0x00#8 0#8 [])) =
      ([0x00000000#32], 4#32, 0x80#8, 0#8, .running) ∧
    view [0#4] (oneStep 0xE1010002 (start 0x0#32 [] 0x00#8 0x00#8 [])) =
      ([0x0#32], 0x4#32, 0x00#8, 0x00#8, .running) := by decide

/-- A-TST-2. -/
theorem test_tstImm :
    view [2#4] (oneStep 0xE3102002 (start 0#32 [(0#4, 0x00000001#32)] 0x30#8 0#8 [])) =
      ([0x00000000#32], 4#32, 0x70#8, 0#8, .running) := by decide

/-- A-TEQ-1. -/
theorem test_teqReg :
    view [2#4] (oneStep 0xE1302001 (start 0#32 [(0#4, 0x12345678#32), (1#4, 0x12345678#32)] 0x00#8 0#8 [])) =
      ([0x00000000#32], 4#32, 0x40#8, 0#8, .running) := by decide

/-- A-TEQ-2. -/
theorem test_teqImm :
    view [2#4] (oneStep 0xE3302000 (start 0#32 [(0#4, 0x80000000#32)] 0x20#8 0#8 [])) =
      ([0x00000000#32], 4#32, 0xA0#8, 0#8, .running) := by decide

/-- A-CMP-4, X-6. -/
theorem test_cmpReg :
    view [2#4] (oneStep 0xE1502001 (start 0#32 [(0#4, 0x00000001#32), (1#4, 0xFFFFFFFF#32)] 0x00#8 0#8 [])) =
      ([0x00000000#32], 4#32, 0x00#8, 0#8, .running) ∧
    view [1#4, 2#4] (oneStep 0xE151F002 (start 0x0#32 [(1#4, 0x3#32), (2#4, 0x3#32)] 0x00#8 0x00#8 [])) =
      ([0x3#32, 0x3#32], 0x4#32, 0x60#8, 0x00#8, .running) := by decide

/-- A-CMP-3. -/
theorem test_cmpImm :
    view [2#4] (oneStep 0xE3502001 (start 0#32 [(0#4, 0x80000000#32)] 0x00#8 0#8 [])) =
      ([0x00000000#32], 4#32, 0x30#8, 0#8, .running) := by decide

/-- A-CMN-3. -/
theorem test_cmnReg :
    view [2#4] (oneStep 0xE1702001 (start 0#32 [(0#4, 0x00000005#32), (1#4, 0x00000000#32)] 0x30#8 0#8 [])) =
      ([0x00000000#32], 4#32, 0x00#8, 0#8, .running) := by decide

/-- A-CMN-2. -/
theorem test_cmnImm :
    view [2#4] (oneStep 0xE3702001 (start 0#32 [(0#4, 0x7FFFFFFF#32)] 0x00#8 0#8 [])) =
      ([0x00000000#32], 4#32, 0x90#8, 0#8, .running) := by decide

/-- A-ORR-2. -/
theorem test_orrReg :
    view [2#4] (oneStep 0xE1902001 (start 0#32 [(0#4, 0x00000000#32), (1#4, 0x00000000#32)] 0x30#8 0#8 [])) =
      ([0x00000000#32], 4#32, 0x70#8, 0#8, .running) := by decide

/-- A-ORR-1. -/
theorem test_orrImm :
    view [2#4] (oneStep 0xE3902001 (start 0#32 [(0#4, 0x80000000#32)] 0x00#8 0#8 [])) =
      ([0x80000001#32], 4#32, 0x80#8, 0#8, .running) := by decide

/-- X-1, S-6, S-7. -/
theorem test_movReg :
    view [0#4] (oneStep 0xE1A0000F (start 0x10#32 [] 0x00#8 0x00#8 [])) =
      ([0x18#32], 0x14#32, 0x00#8, 0x00#8, .running) ∧
    view [14#4] (oneStep 0xE1B0F00E (start 0xC#32 [(14#4, 0x10#32)] 0x68#8 0x60#8 [])) =
      ([0x10#32], 0x10#32, 0x60#8, 0x60#8, .running) ∧
    view [14#4] (oneStep 0xE1A0F00E (start 0xC#32 [(14#4, 0x10#32)] 0x68#8 0x60#8 [])) =
      ([0x10#32], 0x10#32, 0x68#8, 0x60#8, .running) := by decide

/-- A-MOV-2, X-3, K-2. -/
theorem test_movImm :
    view [2#4] (oneStep 0xE3B02102 (start 0#32 [(0#4, 0x00000000#32)] 0x00#8 0#8 [])) =
      ([0x80000000#32], 4#32, 0x80#8, 0#8, .running) ∧
    view [0#4] (oneStep 0xE3A0F002 (start 0x0#32 [] 0x00#8 0x00#8 [])) =
      ([0x0#32], 0x2#32, 0x00#8, 0x00#8, .running) ∧
    view [0#4] (oneStep 0x03A00001 (start 0x0#32 [] 0x00#8 0x00#8 [])) =
      ([0x0#32], 0x4#32, 0x00#8, 0x00#8, .running) := by decide

/-- A-BIC-2. -/
theorem test_bicReg :
    view [2#4] (oneStep 0xE1D02001 (start 0#32 [(0#4, 0x0000000F#32), (1#4, 0x0000000F#32)] 0x30#8 0#8 [])) =
      ([0x00000000#32], 4#32, 0x70#8, 0#8, .running) := by decide

/-- A-BIC-1. -/
theorem test_bicImm :
    view [2#4] (oneStep 0xE3D020FF (start 0#32 [(0#4, 0xFFFFFFFF#32)] 0x00#8 0#8 [])) =
      ([0xFFFFFF00#32], 4#32, 0x80#8, 0#8, .running) := by decide

/-- A-MVN-2. -/
theorem test_mvnReg :
    view [2#4] (oneStep 0xE1F02001 (start 0#32 [(0#4, 0x00000000#32), (1#4, 0xFFFFFFFF#32)] 0x30#8 0#8 [])) =
      ([0x00000000#32], 4#32, 0x70#8, 0#8, .running) := by decide

/-- A-MVN-1. -/
theorem test_mvnImm :
    view [2#4] (oneStep 0xE3F02000 (start 0#32 [(0#4, 0x00000000#32)] 0x00#8 0#8 [])) =
      ([0xFFFFFFFF#32], 4#32, 0x80#8, 0#8, .running) := by decide

/-- T-1, T-6, T-7, T-22. -/
theorem test_ldrImm :
    view [1#4] (oneStep 0xE5901004 (start 0x0#32 [(0#4, 0x10#32)] 0x00#8 0x00#8 [(20, 0xDEADBEEF#32)])) =
      ([0xDEADBEEF#32], 0x4#32, 0x00#8, 0x00#8, .running) ∧
    view [0#4] (oneStep 0xE59F0000 (start 0x0#32 [] 0x00#8 0x00#8 [(8, 0x77#32)])) =
      ([0x77#32], 0x4#32, 0x00#8, 0x00#8, .running) ∧
    view [0#4] (oneStep 0xE590F000 (start 0x0#32 [(0#4, 0x40#32)] 0x00#8 0x00#8 [(64, 0x24#32)])) =
      ([0x40#32], 0x24#32, 0x00#8, 0x00#8, .running) ∧
    view [0#4] (oneStep 0xE5B01003 (start 0x0#32 [(0#4, 0x41#32)] 0x00#8 0x00#8 [])) =
      ([0x44#32], 0x4#32, 0x00#8, 0x00#8, .running) := by decide

/-- T-12, T-13, T-14, T-23. -/
theorem test_ldrImm_edges :
    view [1#4] (oneStep 0xE5901000 (start 0x0#32 [(0#4, 0xFC#32)] 0x00#8 0x00#8 [])) =
      ([0x0#32], 0x4#32, 0x00#8, 0x00#8, .running) ∧
    view [0#4] (oneStep 0xE5901000 (start 0x0#32 [(0#4, 0x100#32)] 0x00#8 0x00#8 [])) =
      ([0x100#32], 0x0#32, 0x00#8, 0x00#8, .faulted .dataOutOfRange) ∧
    view [0#4] (oneStep 0xE5101004 (start 0x0#32 [] 0x00#8 0x00#8 [])) =
      ([0x0#32], 0x0#32, 0x00#8, 0x00#8, .faulted .dataOutOfRange) ∧
    view [0#4] (oneStep 0xE4901004 (start 0x0#32 [(0#4, 0x42#32)] 0x00#8 0x00#8 [])) =
      ([0x42#32], 0x0#32, 0x00#8, 0x00#8, .faulted .dataMisaligned) := by decide

/-- T-4, T-5. -/
theorem test_ldrReg :
    view [3#4] (oneStep 0xE7903001 (start 0x0#32 [(0#4, 0x20#32), (1#4, 0x8#32)] 0x00#8 0x00#8 [(40, 0x55#32)])) =
      ([0x55#32], 0x4#32, 0x00#8, 0x00#8, .running) ∧
    view [3#4] (oneStep 0xE7103001 (start 0x0#32 [(0#4, 0x20#32), (1#4, 0x8#32)] 0x00#8 0x00#8 [(24, 0x66#32)])) =
      ([0x66#32], 0x4#32, 0x00#8, 0x00#8, .running) := by decide

/-- T-2, T-3, T-8. -/
theorem test_strImm :
    view [0#4] (oneStep 0xE5201008 (start 0x0#32 [(0#4, 0x20#32), (1#4, 0x11223344#32)] 0x00#8 0x00#8 [])) =
      ([0x18#32], 0x4#32, 0x00#8, 0x00#8, .running) ∧
    (oneStep 0xE5201008 (start 0x0#32 [(0#4, 0x20#32), (1#4, 0x11223344#32)] 0x00#8 0x00#8 [])).dmem.map (fun c => (c.1, c.2.toNat)) = [(0x18, 0x44), (0x19, 0x33), (0x1A, 0x22), (0x1B, 0x11)] ∧
    view [0#4] (oneStep 0xE4802004 (start 0x0#32 [(0#4, 0x20#32), (2#4, 0xCAFEF00D#32)] 0x00#8 0x00#8 [])) =
      ([0x24#32], 0x4#32, 0x00#8, 0x00#8, .running) ∧
    (oneStep 0xE4802004 (start 0x0#32 [(0#4, 0x20#32), (2#4, 0xCAFEF00D#32)] 0x00#8 0x00#8 [])).dmem.map (fun c => (c.1, c.2.toNat)) = [(0x20, 0x0D), (0x21, 0xF0), (0x22, 0xFE), (0x23, 0xCA)] ∧
    view [0#4] (oneStep 0xE580F000 (start 0x8#32 [(0#4, 0x40#32)] 0x00#8 0x00#8 [])) =
      ([0x40#32], 0xC#32, 0x00#8, 0x00#8, .running) ∧
    (oneStep 0xE580F000 (start 0x8#32 [(0#4, 0x40#32)] 0x00#8 0x00#8 [])).dmem.map (fun c => (c.1, c.2.toNat)) = [(0x40, 0x10)] := by decide

/-- 43_transfer R172 by hand. -/
theorem test_strReg :
    view [0#4] (oneStep 0xE7801002 (start 0x0#32 [(0#4, 0x20#32), (1#4, 0x80000001#32), (2#4, 0x8#32)] 0x00#8 0x00#8 [])) =
      ([0x20#32], 0x4#32, 0x00#8, 0x00#8, .running) ∧
    (oneStep 0xE7801002 (start 0x0#32 [(0#4, 0x20#32), (1#4, 0x80000001#32), (2#4, 0x8#32)] 0x00#8 0x00#8 [])).dmem.map (fun c => (c.1, c.2.toNat)) = [(0x28, 0x01), (0x2B, 0x80)] := by decide

/-- B-3, B-7, B-8. -/
theorem test_b :
    view [] (oneStep 0xEAFFFFFC (start 0x10#32 [] 0x00#8 0x00#8 [])) =
      ([], 0x8#32, 0x00#8, 0x00#8, .running) ∧
    view [] (oneStep 0xEA7FFFFF (start 0x0#32 [] 0x00#8 0x00#8 [])) =
      ([], 0x2000004#32, 0x00#8, 0x00#8, .running) ∧
    view [] (oneStep 0xEAFFFFFD (start 0x0#32 [] 0x00#8 0x00#8 [])) =
      ([], 0xFFFFFFFC#32, 0x00#8, 0x00#8, .running) := by decide

/-- B-4, B-5. -/
theorem test_bl :
    view [14#4] (oneStep 0xEB000001 (start 0x4#32 [] 0x00#8 0x00#8 [])) =
      ([0x8#32], 0x10#32, 0x00#8, 0x00#8, .running) ∧
    view [14#4] (oneStep 0x0B000001 (start 0x4#32 [] 0x00#8 0x00#8 [])) =
      ([0x0#32], 0x8#32, 0x00#8, 0x00#8, .running) := by decide

/-- S-1, S-2, S-3. -/
theorem test_swi :
    view [14#4] (oneStep 0xEF000000 (start 0xC#32 [] 0x60#8 0x00#8 [])) =
      ([0x10#32], 0x8#32, 0x68#8, 0x60#8, .running) ∧
    view [14#4] (oneStep 0xEF123456 (start 0x0#32 [] 0x08#8 0x90#8 [])) =
      ([0x4#32], 0x8#32, 0x08#8, 0x08#8, .running) ∧
    view [14#4] (oneStep 0x0F000000 (start 0x0#32 [] 0x00#8 0x00#8 [])) =
      ([0x0#32], 0x4#32, 0x00#8, 0x00#8, .running) := by decide

/-- X-4. -/
theorem test_shiftedRegisterAlu :
    view [0#4, 1#4] (oneStep 0xE0801080 (start 0x0#32 [(0#4, 0x1#32)] 0x00#8 0x00#8 [])) =
      ([0x1#32, 0x0#32], 0x0#32, 0x00#8, 0x00#8, .unsupported .shiftedRegister) := by decide

/-- T-21, K-9. -/
theorem test_byteTransfer :
    view [0#4, 1#4] (oneStep 0xE4F01001 (start 0x0#32 [(0#4, 0x41#32)] 0x00#8 0x00#8 [])) =
      ([0x41#32, 0x0#32], 0x0#32, 0x00#8, 0x00#8, .unsupported .byteTransfer) ∧
    view [1#4] (oneStep 0x15D01000 (start 0x4#32 [] 0x40#8 0x00#8 [])) =
      ([0x0#32], 0x8#32, 0x40#8, 0x00#8, .running) := by decide

/-- T-16. -/
theorem test_translatedTransfer :
    view [0#4] (oneStep 0xE4B01000 (start 0x0#32 [(0#4, 0x40#32)] 0x00#8 0x00#8 [])) =
      ([0x40#32], 0x0#32, 0x00#8, 0x00#8, .unsupported .translatedTransfer) := by decide

/-- T-17, T-18. -/
theorem test_writebackConflict :
    view [0#4] (oneStep 0xE5B00004 (start 0x0#32 [(0#4, 0x40#32)] 0x00#8 0x00#8 [])) =
      ([0x40#32], 0x0#32, 0x00#8, 0x00#8, .unsupported .writebackConflict) ∧
    view [1#4] (oneStep 0xE48F1004 (start 0x0#32 [] 0x00#8 0x00#8 [])) =
      ([0x0#32], 0x0#32, 0x00#8, 0x00#8, .unsupported .writebackConflict) := by decide

/-- T-19. -/
theorem test_shiftedRegisterTransfer :
    view [1#4] (oneStep 0xE7901082 (start 0x0#32 [(0#4, 0x40#32)] 0x00#8 0x00#8 [])) =
      ([0x0#32], 0x0#32, 0x00#8, 0x00#8, .unsupported .shiftedRegister) := by decide

/-- T-20. -/
theorem test_pcOffsetRegister :
    view [1#4] (oneStep 0xE790100F (start 0x0#32 [(0#4, 0x40#32)] 0x00#8 0x00#8 [])) =
      ([0x0#32], 0x0#32, 0x00#8, 0x00#8, .unsupported .pcOffsetRegister) := by decide

/-- B-9, B-10. -/
theorem test_blockTransfer :
    view [0#4] (oneStep 0xE8900003 (start 0x0#32 [] 0x00#8 0x00#8 [])) =
      ([0x0#32], 0x0#32, 0x00#8, 0x00#8, .unsupported .blockTransfer) ∧
    view [0#4] (oneStep 0x08900003 (start 0x0#32 [] 0x00#8 0x00#8 [])) =
      ([0x0#32], 0x4#32, 0x00#8, 0x00#8, .running) := by decide

/-- S-4. -/
theorem test_coprocessor :
    view [0#4] (oneStep 0xEE000000 (start 0x0#32 [] 0x00#8 0x00#8 [])) =
      ([0x0#32], 0x0#32, 0x00#8, 0x00#8, .unsupported .coprocessor) := by decide

/-! ## The driver and the host (95_test_vectors.md 2.9) -/

/-- H-1: an empty store halts at the first fetch. -/
theorem test_run_empty : step (State.create Config.ofVectors).hostRun =
    .next { State.create Config.ofVectors with runState := .halted } := rfl

/-- H-3: the 65th load faults and the store keeps 64 words. -/
theorem test_load_overflow :
    ((State.create Config.ofVectors).hostLoadAll (List.replicate 65 0xE1A00000#32)).runState = .faulted .storeOverflow ∧
    ((State.create Config.ofVectors).hostLoadAll (List.replicate 65 0xE1A00000#32)).count = 64 := by decide

/-- H-5: a load after the run faults and the registers keep their values. -/
theorem test_load_after_run :
    (({ start 4#32 [(0#4, 1#32)] 0#8 0#8 [] with store := [0xE3A00001#32], runState := .halted }).hostLoad 0xE3A00001#32).runState =
      .faulted .loadAfterRun ∧
    (({ start 4#32 [(0#4, 1#32)] 0#8 0#8 [] with store := [0xE3A00001#32], runState := .halted }).hostLoad 0xE3A00001#32).readReg 0#4 =
      1#32 := by decide

/-- H-7: the pc stays at the misaligned fetch address. -/
theorem test_fetch_misaligned :
    step { start 2#32 [] 0#8 0#8 [] with store := [0xE3A0F002#32], runState := .running } =
      .next { start 2#32 [] 0#8 0#8 [] with store := [0xE3A0F002#32], runState := .faulted .fetchMisaligned } := rfl

/-- 45_driver R210: no result before the end of the run, and the registers at its end. -/
theorem test_result : (start 0#32 [] 0#8 0#8 []).result? = none ∧
    ((((start 4#32 [(0#4, 1#32)] 0x60#8 0#8 []).setRun .halted).result?).map (fun r => (r.regs[0], r.status)) : Option (Word × Byte)) =
      some (1#32, 0x60#8) := by decide

/-- Writing 0 back removes the entry (log entry 10), so equal memories are equal data. -/
theorem test_memory_canonical : Memory.writeWord (Memory.writeWord [] 8 0x00AB0001#32) 8 0#32 = [] := by decide

/-! ## Witnesses: the hypotheses of each statement, met by a concrete state and operands -/

/-- A running state at address 0 with one word in the store. -/
def at0 (w : Word) : State := { start 0#32 [(1#4, 7#32)] 0#8 0#8 [] with store := [w], runState := .running }

/-- The same with C set. -/
def at0Carry (w : Word) : State := (at0 w).setStatus 0x20#8

/-- The hypothesis of an ALU statement on its instruction and second operand. -/
def AluForm (imm : BitVec 4 → Byte → Instr) (reg : Reg → Instr) (y : Word) (i : Instr) (s : State) : Prop :=
  (∃ rot imm8, i = imm rot imm8 ∧ y = (imm8.setWidth 32).rotateRight (2 * rot.toNat)) ∨ (∃ rm, i = reg rm ∧ y = s.opnd rm)

/-- The immediate form to R2 and the register form to R15. -/
theorem witness_AndResult :
    AluForm (.andImm .al true 1#4 2#4) (.andReg .al true 1#4 2#4) 0xFF000000#32 (.andImm .al true 1#4 2#4 4#4 0xFF#8) (at0 0#32) ∧
    AluForm (.andImm .al true 1#4 15#4) (.andReg .al true 1#4 15#4) 7#32 (.andReg .al true 1#4 15#4 1#4) (at0 0#32) ∧
    condHolds .al (at0 0#32).status = true :=
  ⟨.inl ⟨4#4, 0xFF#8, rfl, by decide⟩, .inr ⟨1#4, rfl, by decide⟩, rfl⟩

/-- The immediate form to R2 and the register form to R15. -/
theorem witness_EorResult :
    AluForm (.eorImm .al true 1#4 2#4) (.eorReg .al true 1#4 2#4) 0xFF000000#32 (.eorImm .al true 1#4 2#4 4#4 0xFF#8) (at0 0#32) ∧
    AluForm (.eorImm .al true 1#4 15#4) (.eorReg .al true 1#4 15#4) 7#32 (.eorReg .al true 1#4 15#4 1#4) (at0 0#32) ∧
    condHolds .al (at0 0#32).status = true :=
  ⟨.inl ⟨4#4, 0xFF#8, rfl, by decide⟩, .inr ⟨1#4, rfl, by decide⟩, rfl⟩

/-- The immediate form to R2 and the register form to R15. -/
theorem witness_SubResult :
    AluForm (.subImm .al true 1#4 2#4) (.subReg .al true 1#4 2#4) 0xFF000000#32 (.subImm .al true 1#4 2#4 4#4 0xFF#8) (at0 0#32) ∧
    AluForm (.subImm .al true 1#4 15#4) (.subReg .al true 1#4 15#4) 7#32 (.subReg .al true 1#4 15#4 1#4) (at0 0#32) ∧
    condHolds .al (at0 0#32).status = true :=
  ⟨.inl ⟨4#4, 0xFF#8, rfl, by decide⟩, .inr ⟨1#4, rfl, by decide⟩, rfl⟩

/-- The immediate form to R2 and the register form to R15. -/
theorem witness_RsbResult :
    AluForm (.rsbImm .al true 1#4 2#4) (.rsbReg .al true 1#4 2#4) 0xFF000000#32 (.rsbImm .al true 1#4 2#4 4#4 0xFF#8) (at0 0#32) ∧
    AluForm (.rsbImm .al true 1#4 15#4) (.rsbReg .al true 1#4 15#4) 7#32 (.rsbReg .al true 1#4 15#4 1#4) (at0 0#32) ∧
    condHolds .al (at0 0#32).status = true :=
  ⟨.inl ⟨4#4, 0xFF#8, rfl, by decide⟩, .inr ⟨1#4, rfl, by decide⟩, rfl⟩

/-- The immediate form to R2 and the register form to R15. -/
theorem witness_AddResult :
    AluForm (.addImm .al true 1#4 2#4) (.addReg .al true 1#4 2#4) 0xFF000000#32 (.addImm .al true 1#4 2#4 4#4 0xFF#8) (at0 0#32) ∧
    AluForm (.addImm .al true 1#4 15#4) (.addReg .al true 1#4 15#4) 7#32 (.addReg .al true 1#4 15#4 1#4) (at0 0#32) ∧
    condHolds .al (at0 0#32).status = true :=
  ⟨.inl ⟨4#4, 0xFF#8, rfl, by decide⟩, .inr ⟨1#4, rfl, by decide⟩, rfl⟩

/-- The immediate form to R2 and the register form to R15. -/
theorem witness_AdcResult :
    AluForm (.adcImm .al true 1#4 2#4) (.adcReg .al true 1#4 2#4) 0xFF000000#32 (.adcImm .al true 1#4 2#4 4#4 0xFF#8) (at0 0#32) ∧
    AluForm (.adcImm .al true 1#4 15#4) (.adcReg .al true 1#4 15#4) 7#32 (.adcReg .al true 1#4 15#4 1#4) (at0 0#32) ∧
    condHolds .al (at0 0#32).status = true ∧
    0 = (if (at0 0#32).status.getLsbD 5 then 1 else 0) ∧ 1 = (if (at0Carry 0#32).status.getLsbD 5 then 1 else 0) ∧
    condHolds .al (at0Carry 0#32).status = true :=
  ⟨.inl ⟨4#4, 0xFF#8, rfl, by decide⟩, .inr ⟨1#4, rfl, by decide⟩, rfl, rfl, rfl, rfl⟩

/-- The immediate form to R2 and the register form to R15. -/
theorem witness_SbcResult :
    AluForm (.sbcImm .al true 1#4 2#4) (.sbcReg .al true 1#4 2#4) 0xFF000000#32 (.sbcImm .al true 1#4 2#4 4#4 0xFF#8) (at0 0#32) ∧
    AluForm (.sbcImm .al true 1#4 15#4) (.sbcReg .al true 1#4 15#4) 7#32 (.sbcReg .al true 1#4 15#4 1#4) (at0 0#32) ∧
    condHolds .al (at0 0#32).status = true ∧
    0 = (if (at0 0#32).status.getLsbD 5 then 1 else 0) ∧ 1 = (if (at0Carry 0#32).status.getLsbD 5 then 1 else 0) ∧
    condHolds .al (at0Carry 0#32).status = true :=
  ⟨.inl ⟨4#4, 0xFF#8, rfl, by decide⟩, .inr ⟨1#4, rfl, by decide⟩, rfl, rfl, rfl, rfl⟩

/-- The immediate form to R2 and the register form to R15. -/
theorem witness_RscResult :
    AluForm (.rscImm .al true 1#4 2#4) (.rscReg .al true 1#4 2#4) 0xFF000000#32 (.rscImm .al true 1#4 2#4 4#4 0xFF#8) (at0 0#32) ∧
    AluForm (.rscImm .al true 1#4 15#4) (.rscReg .al true 1#4 15#4) 7#32 (.rscReg .al true 1#4 15#4 1#4) (at0 0#32) ∧
    condHolds .al (at0 0#32).status = true ∧
    0 = (if (at0 0#32).status.getLsbD 5 then 1 else 0) ∧ 1 = (if (at0Carry 0#32).status.getLsbD 5 then 1 else 0) ∧
    condHolds .al (at0Carry 0#32).status = true :=
  ⟨.inl ⟨4#4, 0xFF#8, rfl, by decide⟩, .inr ⟨1#4, rfl, by decide⟩, rfl, rfl, rfl, rfl⟩

/-- The immediate form to R2 and the register form to R15. -/
theorem witness_TstResult :
    AluForm (.tstImm .al true 1#4 2#4) (.tstReg .al true 1#4 2#4) 0xFF000000#32 (.tstImm .al true 1#4 2#4 4#4 0xFF#8) (at0 0#32) ∧
    AluForm (.tstImm .al true 1#4 15#4) (.tstReg .al true 1#4 15#4) 7#32 (.tstReg .al true 1#4 15#4 1#4) (at0 0#32) ∧
    condHolds .al (at0 0#32).status = true :=
  ⟨.inl ⟨4#4, 0xFF#8, rfl, by decide⟩, .inr ⟨1#4, rfl, by decide⟩, rfl⟩

/-- The immediate form to R2 and the register form to R15. -/
theorem witness_TeqResult :
    AluForm (.teqImm .al true 1#4 2#4) (.teqReg .al true 1#4 2#4) 0xFF000000#32 (.teqImm .al true 1#4 2#4 4#4 0xFF#8) (at0 0#32) ∧
    AluForm (.teqImm .al true 1#4 15#4) (.teqReg .al true 1#4 15#4) 7#32 (.teqReg .al true 1#4 15#4 1#4) (at0 0#32) ∧
    condHolds .al (at0 0#32).status = true :=
  ⟨.inl ⟨4#4, 0xFF#8, rfl, by decide⟩, .inr ⟨1#4, rfl, by decide⟩, rfl⟩

/-- The immediate form to R2 and the register form to R15. -/
theorem witness_CmpResult :
    AluForm (.cmpImm .al true 1#4 2#4) (.cmpReg .al true 1#4 2#4) 0xFF000000#32 (.cmpImm .al true 1#4 2#4 4#4 0xFF#8) (at0 0#32) ∧
    AluForm (.cmpImm .al true 1#4 15#4) (.cmpReg .al true 1#4 15#4) 7#32 (.cmpReg .al true 1#4 15#4 1#4) (at0 0#32) ∧
    condHolds .al (at0 0#32).status = true :=
  ⟨.inl ⟨4#4, 0xFF#8, rfl, by decide⟩, .inr ⟨1#4, rfl, by decide⟩, rfl⟩

/-- The immediate form to R2 and the register form to R15. -/
theorem witness_CmnResult :
    AluForm (.cmnImm .al true 1#4 2#4) (.cmnReg .al true 1#4 2#4) 0xFF000000#32 (.cmnImm .al true 1#4 2#4 4#4 0xFF#8) (at0 0#32) ∧
    AluForm (.cmnImm .al true 1#4 15#4) (.cmnReg .al true 1#4 15#4) 7#32 (.cmnReg .al true 1#4 15#4 1#4) (at0 0#32) ∧
    condHolds .al (at0 0#32).status = true :=
  ⟨.inl ⟨4#4, 0xFF#8, rfl, by decide⟩, .inr ⟨1#4, rfl, by decide⟩, rfl⟩

/-- The immediate form to R2 and the register form to R15. -/
theorem witness_OrrResult :
    AluForm (.orrImm .al true 1#4 2#4) (.orrReg .al true 1#4 2#4) 0xFF000000#32 (.orrImm .al true 1#4 2#4 4#4 0xFF#8) (at0 0#32) ∧
    AluForm (.orrImm .al true 1#4 15#4) (.orrReg .al true 1#4 15#4) 7#32 (.orrReg .al true 1#4 15#4 1#4) (at0 0#32) ∧
    condHolds .al (at0 0#32).status = true :=
  ⟨.inl ⟨4#4, 0xFF#8, rfl, by decide⟩, .inr ⟨1#4, rfl, by decide⟩, rfl⟩

/-- The immediate form to R2 and the register form to R15. -/
theorem witness_MovResult :
    AluForm (.movImm .al true 1#4 2#4) (.movReg .al true 1#4 2#4) 0xFF000000#32 (.movImm .al true 1#4 2#4 4#4 0xFF#8) (at0 0#32) ∧
    AluForm (.movImm .al true 1#4 15#4) (.movReg .al true 1#4 15#4) 7#32 (.movReg .al true 1#4 15#4 1#4) (at0 0#32) ∧
    condHolds .al (at0 0#32).status = true :=
  ⟨.inl ⟨4#4, 0xFF#8, rfl, by decide⟩, .inr ⟨1#4, rfl, by decide⟩, rfl⟩

/-- The immediate form to R2 and the register form to R15. -/
theorem witness_BicResult :
    AluForm (.bicImm .al true 1#4 2#4) (.bicReg .al true 1#4 2#4) 0xFF000000#32 (.bicImm .al true 1#4 2#4 4#4 0xFF#8) (at0 0#32) ∧
    AluForm (.bicImm .al true 1#4 15#4) (.bicReg .al true 1#4 15#4) 7#32 (.bicReg .al true 1#4 15#4 1#4) (at0 0#32) ∧
    condHolds .al (at0 0#32).status = true :=
  ⟨.inl ⟨4#4, 0xFF#8, rfl, by decide⟩, .inr ⟨1#4, rfl, by decide⟩, rfl⟩

/-- The immediate form to R2 and the register form to R15. -/
theorem witness_MvnResult :
    AluForm (.mvnImm .al true 1#4 2#4) (.mvnReg .al true 1#4 2#4) 0xFF000000#32 (.mvnImm .al true 1#4 2#4 4#4 0xFF#8) (at0 0#32) ∧
    AluForm (.mvnImm .al true 1#4 15#4) (.mvnReg .al true 1#4 15#4) 7#32 (.mvnReg .al true 1#4 15#4 1#4) (at0 0#32) ∧
    condHolds .al (at0 0#32).status = true :=
  ⟨.inl ⟨4#4, 0xFF#8, rfl, by decide⟩, .inr ⟨1#4, rfl, by decide⟩, rfl⟩

theorem witness_DecodeOfEncodeIsTheInstruction :
    (Instr.ldrImm .al false true false 0#4 1#4 4#12).WellFormed ∧
    (Instr.coprocessor .al 0b10#2 0#24).WellFormed := by decide

/-- X-4. -/
theorem witness_UnsupportedWordsEndTheRun_shiftedRegisterAlu :
    condHolds (Cond.ofCode ((0xE0801080#32).extractLsb' 28 4)) (at0 0#32).status = true ∧
    (0xE0801080#32).extractLsb' 26 2 = 0b00#2 ∧
    (0xE0801080#32).getLsbD 25 = false ∧
    (0xE0801080#32).extractLsb' 4 8 ≠ 0#8 := by decide

/-- T-21. -/
theorem witness_UnsupportedWordsEndTheRun_byteTransfer :
    condHolds (Cond.ofCode ((0xE4F01001#32).extractLsb' 28 4)) (at0 0#32).status = true ∧
    (0xE4F01001#32).extractLsb' 26 2 = 0b01#2 ∧
    (0xE4F01001#32).getLsbD 22 = true := by decide

/-- T-16. -/
theorem witness_UnsupportedWordsEndTheRun_translatedTransfer :
    condHolds (Cond.ofCode ((0xE4B01000#32).extractLsb' 28 4)) (at0 0#32).status = true ∧
    (0xE4B01000#32).extractLsb' 26 2 = 0b01#2 ∧
    (0xE4B01000#32).getLsbD 22 = false ∧
    (0xE4B01000#32).getLsbD 24 = false ∧ (0xE4B01000#32).getLsbD 21 = true := by decide

/-- T-17. -/
theorem witness_UnsupportedWordsEndTheRun_writebackConflict :
    condHolds (Cond.ofCode ((0xE5B00004#32).extractLsb' 28 4)) (at0 0#32).status = true ∧
    (0xE5B00004#32).extractLsb' 26 2 = 0b01#2 ∧
    (0xE5B00004#32).getLsbD 22 = false ∧
    ¬ ((0xE5B00004#32).getLsbD 24 = false ∧ (0xE5B00004#32).getLsbD 21 = true) ∧
    (((0xE5B00004#32).getLsbD 24 = false ∨ (0xE5B00004#32).getLsbD 21 = true) ∧ ((0xE5B00004#32).extractLsb' 16 4 = 15#4 ∨ (0xE5B00004#32).extractLsb' 16 4 = (0xE5B00004#32).extractLsb' 12 4)) := by decide

/-- T-18. -/
theorem witness_UnsupportedWordsEndTheRun_writebackConflict_pc :
    condHolds (Cond.ofCode ((0xE48F1004#32).extractLsb' 28 4)) (at0 0#32).status = true ∧
    (0xE48F1004#32).extractLsb' 26 2 = 0b01#2 ∧
    (0xE48F1004#32).getLsbD 22 = false ∧
    ¬ ((0xE48F1004#32).getLsbD 24 = false ∧ (0xE48F1004#32).getLsbD 21 = true) ∧
    (((0xE48F1004#32).getLsbD 24 = false ∨ (0xE48F1004#32).getLsbD 21 = true) ∧ ((0xE48F1004#32).extractLsb' 16 4 = 15#4 ∨ (0xE48F1004#32).extractLsb' 16 4 = (0xE48F1004#32).extractLsb' 12 4)) := by decide

/-- T-19. -/
theorem witness_UnsupportedWordsEndTheRun_shiftedRegisterTransfer :
    condHolds (Cond.ofCode ((0xE7901082#32).extractLsb' 28 4)) (at0 0#32).status = true ∧
    (0xE7901082#32).extractLsb' 26 2 = 0b01#2 ∧
    (0xE7901082#32).getLsbD 22 = false ∧
    ¬ ((0xE7901082#32).getLsbD 24 = false ∧ (0xE7901082#32).getLsbD 21 = true) ∧
    ¬ (((0xE7901082#32).getLsbD 24 = false ∨ (0xE7901082#32).getLsbD 21 = true) ∧ ((0xE7901082#32).extractLsb' 16 4 = 15#4 ∨ (0xE7901082#32).extractLsb' 16 4 = (0xE7901082#32).extractLsb' 12 4)) ∧
    (0xE7901082#32).getLsbD 25 = true ∧
    (0xE7901082#32).extractLsb' 4 8 ≠ 0#8 := by decide

/-- T-20. -/
theorem witness_UnsupportedWordsEndTheRun_pcOffsetRegister :
    condHolds (Cond.ofCode ((0xE790100F#32).extractLsb' 28 4)) (at0 0#32).status = true ∧
    (0xE790100F#32).extractLsb' 26 2 = 0b01#2 ∧
    (0xE790100F#32).getLsbD 22 = false ∧
    ¬ ((0xE790100F#32).getLsbD 24 = false ∧ (0xE790100F#32).getLsbD 21 = true) ∧
    ¬ (((0xE790100F#32).getLsbD 24 = false ∨ (0xE790100F#32).getLsbD 21 = true) ∧ ((0xE790100F#32).extractLsb' 16 4 = 15#4 ∨ (0xE790100F#32).extractLsb' 16 4 = (0xE790100F#32).extractLsb' 12 4)) ∧
    (0xE790100F#32).getLsbD 25 = true ∧
    (0xE790100F#32).extractLsb' 4 8 = 0#8 ∧
    (0xE790100F#32).extractLsb' 0 4 = 15#4 := by decide

/-- B-9. -/
theorem witness_UnsupportedWordsEndTheRun_blockTransfer :
    condHolds (Cond.ofCode ((0xE8900003#32).extractLsb' 28 4)) (at0 0#32).status = true ∧
    (0xE8900003#32).extractLsb' 26 2 = 0b10#2 ∧
    (0xE8900003#32).getLsbD 25 = false := by decide

/-- S-4. -/
theorem witness_UnsupportedWordsEndTheRun_coprocessor :
    condHolds (Cond.ofCode ((0xEE000000#32).extractLsb' 28 4)) (at0 0#32).status = true ∧
    (0xEE000000#32).extractLsb' 26 2 = 0b11#2 ∧
    (0xEE000000#32).extractLsb' 24 2 ≠ 0b11#2 := by decide

theorem witness_UnsupportedFormsComplete :
    condHolds .al (at0 0#32).status = true := by decide

/-- S-3. -/
theorem witness_SkippedInstructionOnlyAdvances :
    condHolds (Instr.swi .eq 0#24).cond (at0 0#32).status = false := by decide

/-- X-10. -/
theorem witness_NvWordsNeverExecute :
    (at0 0xF3A00001#32).runState = .running ∧ (at0 0xF3A00001#32).pc.toNat % 4 = 0 ∧
    (at0 0xF3A00001#32).store[(at0 0xF3A00001#32).pc.toNat / 4]? = some 0xF3A00001#32 ∧
    (0xF3A00001#32).extractLsb' 28 4 = 0b1111#4 := by decide

/-- All eight forms. -/
theorem witness_TestsWithoutUpdateOnlyAdvance :
    ∀ i ∈ [Instr.tstImm .al false 1#4 2#4 3#4 4#8, .tstReg .al false 1#4 2#4 5#4, .teqImm .al false 1#4 2#4 3#4 4#8,
        .teqReg .al false 1#4 2#4 5#4, .cmpImm .al false 1#4 2#4 3#4 4#8, .cmpReg .al false 1#4 2#4 5#4,
        .cmnImm .al false 1#4 2#4 3#4 4#8, .cmnReg .al false 1#4 2#4 5#4],
      (i = .tstImm .al false 1#4 2#4 3#4 4#8 ∨ i = .tstReg .al false 1#4 2#4 5#4 ∨ i = .teqImm .al false 1#4 2#4 3#4 4#8 ∨
        i = .teqReg .al false 1#4 2#4 5#4 ∨ i = .cmpImm .al false 1#4 2#4 3#4 4#8 ∨ i = .cmpReg .al false 1#4 2#4 5#4 ∨
        i = .cmnImm .al false 1#4 2#4 3#4 4#8 ∨ i = .cmnReg .al false 1#4 2#4 5#4) ∧
      condHolds .al (at0 0#32).status = true := by decide

/-- A base R15 and a base R1, and the last word of the data memory. -/
theorem witness_PcReadsAsAPlusEight : ∃ v : Reg → Word,
    (∀ r, v r = if r = pcReg then (at0 0#32).pc + 8#32 else (at0 0#32).readReg r) ∧ (2#4 : Reg) ≠ pcReg ∧
    (v 15#4 + (0xF4#12).setWidth 32).toNat % 4 = 0 ∧ (v 15#4 + (0xF4#12).setWidth 32).toNat + 4 = (at0 0#32).cfg.dataMemBytes ∧
    (v 1#4 + (1#12).setWidth 32).toNat % 4 = 0 ∧ (v 1#4 + (1#12).setWidth 32).toNat + 4 ≤ (at0 0#32).cfg.dataMemBytes ∧
    Memory.wf (at0 0#32).dmem = true :=
  ⟨fun r => if r = pcReg then (at0 0#32).pc + 8#32 else (at0 0#32).readReg r, fun _ => rfl, by decide, by decide, by decide,
    by decide, by decide, by decide⟩

/-- A branch past the end halts next (H-9), and the two special offsets. -/
theorem witness_BranchResult : condHolds .al (at0 0#32).status = true ∧
    (∃ t, exec (.b .al 0x000000#24) (at0 0xEA000000#32) = .next t ∧ (at0 0xEA000000#32).runState = .running ∧
      (at0 0xEA000000#32).pc.toNat % 4 = 0 ∧ (at0 0xEA000000#32).count ≤ t.pc.toNat / 4) ∧
    (∃ t, exec (.b .al 0xFFFFFE#24) (at0 0#32) = .next t ∧ t.pc = 0#32) ∧
    (∃ t, exec (.b .al 0xFFFFFF#24) (at0 0#32) = .next t ∧ t.pc = 4#32 ∧ (at0 0#32).count = t.pc.toNat / 4) :=
  ⟨rfl, ⟨_, rfl, by decide⟩, ⟨_, rfl, by decide⟩, ⟨_, rfl, by decide⟩⟩

theorem witness_BranchWithLinkResult : condHolds .al (at0 0#32).status = true ∧
    (∃ t, exec (.bl .al 0xFFFFFF#24) (at0 0#32) = .next t ∧ (at0 0#32).runState = .running ∧ (at0 0#32).pc.toNat % 4 = 0 ∧
      (at0 0#32).count = t.pc.toNat / 4) :=
  ⟨rfl, ⟨_, rfl, by decide⟩⟩

/-- Loads of the last word (T-12), without and with writeback, to a register and to the pc. -/
theorem witness_LoadWordResult :
    ((∃ off12, Instr.ldrImm .al true true false 1#4 2#4 0xF5#12 = .ldrImm .al true true false 1#4 2#4 off12 ∧
        0xF5#32 = off12.setWidth 32) ∧ AdmittedMode true false 1#4 2#4 ∧
      ((at0 0#32).opnd 1#4 + 0xF5#32).toNat % 4 = 0 ∧ ((at0 0#32).opnd 1#4 + 0xF5#32).toNat + 4 = (at0 0#32).cfg.dataMemBytes) ∧
    ((∃ rm, rm ≠ pcReg ∧ Instr.ldrReg .al false false false 0#4 15#4 1#4 = .ldrReg .al false false false 0#4 15#4 rm ∧
        7#32 = (at0 0#32).readReg rm) ∧ AdmittedMode false false 0#4 15#4 ∧ WritesBack false false ∧
      ((at0 0#32).opnd 0#4).toNat % 4 = 0 ∧ ((at0 0#32).opnd 0#4).toNat + 4 ≤ (at0 0#32).cfg.dataMemBytes) ∧
    condHolds .al (at0 0#32).status = true :=
  ⟨⟨⟨0xF5#12, rfl, by decide⟩, by decide, by decide, by decide⟩,
    ⟨⟨1#4, by decide, rfl, by decide⟩, by decide, by decide, by decide, by decide⟩, rfl⟩

/-- Stores of the last word without writeback, and of R1 with a post-indexed base. -/
theorem witness_StoreWordResult :
    ((∃ off12, Instr.strImm .al true true false 1#4 1#4 0xF5#12 = .strImm .al true true false 1#4 1#4 off12 ∧
        0xF5#32 = off12.setWidth 32) ∧ AdmittedMode true false 1#4 1#4 ∧
      ((at0 0#32).opnd 1#4 + 0xF5#32).toNat % 4 = 0 ∧ ((at0 0#32).opnd 1#4 + 0xF5#32).toNat + 4 = (at0 0#32).cfg.dataMemBytes) ∧
    ((∃ rm, rm ≠ pcReg ∧ Instr.strReg .al false false false 0#4 15#4 1#4 = .strReg .al false false false 0#4 15#4 rm ∧
        7#32 = (at0 0#32).readReg rm) ∧ AdmittedMode false false 0#4 15#4 ∧ WritesBack false false ∧
      ((at0 0#32).opnd 0#4).toNat % 4 = 0 ∧ ((at0 0#32).opnd 0#4).toNat + 4 ≤ (at0 0#32).cfg.dataMemBytes) ∧
    condHolds .al (at0 0#32).status = true ∧ Memory.wf (at0 0#32).dmem = true :=
  ⟨⟨⟨0xF5#12, rfl, by decide⟩, by decide, by decide, by decide⟩,
    ⟨⟨1#4, by decide, rfl, by decide⟩, by decide, by decide, by decide, by decide⟩, rfl, by decide⟩

/-- The base R1 = 7 of a load and, in its register form, of a store. -/
theorem witness_MisalignedTransferFaults :
    (∃ off12, (Instr.ldrImm .al true true false 1#4 2#4 0#12 = .ldrImm .al true true false 1#4 2#4 off12 ∨
        Instr.ldrImm .al true true false 1#4 2#4 0#12 = .strImm .al true true false 1#4 2#4 off12) ∧ 0#32 = off12.setWidth 32) ∧
    (∃ rm, rm ≠ pcReg ∧ (Instr.strReg .al true true false 1#4 2#4 0#4 = .ldrReg .al true true false 1#4 2#4 rm ∨
        Instr.strReg .al true true false 1#4 2#4 0#4 = .strReg .al true true false 1#4 2#4 rm) ∧ 0#32 = (at0 0#32).readReg rm) ∧
    AdmittedMode true false 1#4 2#4 ∧ condHolds .al (at0 0#32).status = true ∧
    ((at0 0#32).opnd 1#4 + 0#32).extractLsb' 0 2 ≠ 0b00#2 :=
  ⟨⟨0#12, .inl rfl, rfl⟩, ⟨0#4, by decide, .inr rfl, by decide⟩, by decide, rfl, by decide⟩

/-- The first word past the data memory (T-13). -/
theorem witness_OutOfRangeTransferFaults :
    (∃ off12, (Instr.ldrImm .al true true false 1#4 2#4 0xF9#12 = .ldrImm .al true true false 1#4 2#4 off12 ∨
        Instr.ldrImm .al true true false 1#4 2#4 0xF9#12 = .strImm .al true true false 1#4 2#4 off12) ∧ 0xF9#32 = off12.setWidth 32) ∧
    AdmittedMode true false 1#4 2#4 ∧ condHolds .al (at0 0#32).status = true ∧
    ((at0 0#32).opnd 1#4 + 0xF9#32).extractLsb' 0 2 = 0b00#2 ∧ ((at0 0#32).opnd 1#4 + 0xF9#32).toNat = (at0 0#32).cfg.dataMemBytes ∧
    ((at0 0#32).opnd 1#4 + 0xF9#32).toNat + 4 > (at0 0#32).cfg.dataMemBytes :=
  ⟨⟨0xF9#12, .inl rfl, by decide⟩, by decide, rfl, by decide, by decide, by decide⟩

theorem witness_StoreThenLoadReturnsTheWord : Memory.wf (at0 0#32).dmem = true ∧ (0#4 : Reg) ≠ pcReg ∧ (2#4 : Reg) ≠ pcReg ∧
    ((at0 0#32).readReg 0#4).toNat % 4 = 0 ∧ ((at0 0#32).readReg 0#4).toNat + 4 ≤ (at0 0#32).cfg.dataMemBytes := by decide

/-- A machine whose INT_VECTOR is past the store, and one whose INT_VECTOR is misaligned. -/
theorem witness_SwiEntersTheHandler : condHolds .al (at0 0#32).status = true ∧
    ((at0 0#32).runState = .running ∧ (at0 0#32).cfg.intVector.toNat % 4 = 0 ∧ (at0 0#32).count ≤ (at0 0#32).cfg.intVector.toNat / 4) ∧
    (∃ s : State, s.runState = .running ∧ condHolds .al s.status = true ∧ s.cfg.intVector.toNat % 4 ≠ 0) :=
  ⟨by decide, by decide, { at0 0#32 with cfg := { Config.ofVectors with intVector := 6#32 } }, by decide⟩

/-- pc 2 with a loaded word, and pc 4 with exactly one loaded word. -/
theorem witness_FetchFaultsOrHalts :
    (((at0 0#32).setPc 2#32).runState = .running ∧ ((at0 0#32).setPc 2#32).pc.extractLsb' 0 2 ≠ 0b00#2) ∧
    (((at0 0#32).setPc 4#32).runState = .running ∧ ((at0 0#32).setPc 4#32).pc.extractLsb' 0 2 = 0b00#2 ∧
      ((at0 0#32).setPc 4#32).store.length = ((at0 0#32).setPc 4#32).pc.toNat / 4) := by decide

theorem witness_StepRunsTheDecodedInstruction : (at0 0xE3A00001#32).runState = .running ∧ (at0 0xE3A00001#32).pc.toNat % 4 = 0 ∧
    (at0 0xE3A00001#32).store[(at0 0xE3A00001#32).pc.toNat / 4]? = some 0xE3A00001#32 ∧
    decode 0xE3A00001#32 = .movImm .al false 0#4 0#4 0#4 1#8 ∧ (Instr.movImm .al false 0#4 0#4 0#4 1#8).WellFormed := by decide

theorem witness_TerminalStatesStay : ((at0 0#32).setRun .halted).runState = .halted ∧
    ((at0 0#32).setRun (.faulted .dataMisaligned)).runState = .faulted .dataMisaligned ∧
    ((at0 0#32).setRun (.unsupported .coprocessor)).runState = .unsupported .coprocessor := by decide

/-- An instruction that faults, one that is Unsupported, and a step that halts. -/
theorem witness_FaultsAndUnsupportedArePrecise :
    (∃ t, exec (.ldrImm .al true true false 1#4 2#4 0#12) (at0 0#32) = .next t ∧ t.runState ≠ (at0 0#32).runState) ∧
    (∃ t, exec (.coprocessor .al 0b10#2 0#24) (at0 0#32) = .next t ∧ t.runState ≠ (at0 0#32).runState) ∧
    (∃ t, step ((at0 0#32).setPc 4#32) = .next t ∧ t.runState ≠ ((at0 0#32).setPc 4#32).runState) :=
  ⟨⟨_, rfl, by decide⟩, ⟨_, rfl, by decide⟩, ⟨_, rfl, by decide⟩⟩

theorem witness_InstructionStoreIsReadOnly : (∃ t, exec (.strImm .al true true false 0#4 1#4 0#12) (at0 0#32) = .next t) ∧
    (∃ t, step (at0 0xE5801000#32) = .next t) := ⟨⟨_, rfl⟩, ⟨_, rfl⟩⟩

theorem witness_OnlyTransfersReachDataMemory : isTransfer (.addImm .al true 1#4 2#4 0#4 1#8) = false ∧
    isStore (.ldrImm .al true true false 0#4 1#4 0#12) = false ∧
    (∃ t, exec (.ldrImm .al true true false 0#4 1#4 0#12) (at0 0#32) = .next t) := ⟨rfl, rfl, _, rfl⟩

/-- One instruction for each clause. -/
theorem witness_FlagsChangeOnlyWithUpdateBit :
    (updatesStatus (.subReg .al false 0#4 2#4 1#4) = false ∧ isSwi (.subReg .al false 0#4 2#4 1#4) = false ∧
      ∃ t, exec (.subReg .al false 0#4 2#4 1#4) (at0 0#32) = .next t) ∧
    (condHolds (Instr.subReg .eq true 0#4 2#4 1#4).cond (at0 0#32).status = false ∧
      ∃ t, exec (.subReg .eq true 0#4 2#4 1#4) (at0 0#32) = .next t) ∧
    (∃ t, exec (.coprocessor .al 0b10#2 0#24) (at0 0#32) = .next t ∧ t.runState ≠ (at0 0#32).runState) ∧
    (isSwi (.swi .al 0#24) = true ∧ ∃ t, exec (.swi .al 0#24) (at0 0#32) = .next t) :=
  ⟨⟨rfl, rfl, _, rfl⟩, ⟨by decide, _, rfl⟩, ⟨_, rfl, by decide⟩, rfl, _, rfl⟩

/-- One instruction for each clause. -/
theorem witness_SavedStatusIsTheInterrupts :
    (isSwi (.movReg .al true 0#4 15#4 14#4) = false ∧ ∃ t, exec (.movReg .al true 0#4 15#4 14#4) (at0 0#32) = .next t) ∧
    (condHolds (Instr.swi .eq 0#24).cond (at0 0#32).status = false ∧ ∃ t, exec (.swi .eq 0#24) (at0 0#32) = .next t) ∧
    (isSwi (.swi .al 0#24) = true ∧ condHolds (Instr.swi .al 0#24).cond (at0 0#32).status = true ∧
      ∃ t, exec (.swi .al 0#24) (at0 0#32) = .next t) ∧
    restoresStatus (.movReg .al true 0#4 14#4 1#4) = false ∧ restoresStatus (.movReg .al false 0#4 15#4 14#4) = false :=
  ⟨⟨rfl, _, rfl⟩, ⟨by decide, _, rfl⟩, ⟨rfl, rfl, _, rfl⟩, rfl, rfl⟩

theorem witness_OnlyNamedRegistersAreWritten : ∃ t, exec (.bl .al 1#24) (at0 0#32) = .next t := ⟨_, rfl⟩

theorem witness_StepKeepsTheInvariant : Inv (at0 0xE5801000#32) ∧ ∃ t, step (at0 0xE5801000#32) = .next t :=
  ⟨by decide, _, rfl⟩

/-- The least and the greatest legal parameters. -/
theorem witness_CreationMeetsTheInvariant :
    Config.Legal { storeCapacity := 1, dataMemBytes := 4, intVector := 0#32 } ∧
    Config.Legal { storeCapacity := 2 ^ 30, dataMemBytes := 2 ^ 32, intVector := 0xFFFFFFFC#32 } := by decide

theorem witness_HostCallsKeepTheInvariant : Inv (at0 0#32) ∧ Inv State.reset := by decide

theorem witness_ReachableStatesKeepFAndMClear : Reachable ((State.reset.hostLoad 0xEF000000#32).hostRun) ∧
    (∃ t, exec (.swi .al 0#24) (at0 0#32) = .next t) ∧ (0x0F#8 : Byte).extractLsb' 4 4 = (at0 0#32).status.extractLsb' 4 4 :=
  ⟨.run _ (.load _ _ (.create _ (by decide))), ⟨_, rfl⟩, by decide⟩

/-- One state for each clause: faulted; running, halted, unsupported; loading with a full store (capacity 1, one word); loading with room
(capacity 1, no word). -/
theorem witness_LoadAppendsOrFaults :
    ((at0 0#32).setRun (.faulted .storeOverflow)).runState = .faulted .storeOverflow ∧ (at0 0#32).runState = .running ∧
    ((at0 0#32).setRun .halted).runState = .halted ∧
    ((at0 0#32).setRun (.unsupported .blockTransfer)).runState = .unsupported .blockTransfer ∧
    ((State.create { Config.ofVectors with storeCapacity := 1 }).hostLoad 0#32).runState = .loading ∧
    ((State.create { Config.ofVectors with storeCapacity := 1 }).hostLoad 0#32).count = 1 ∧
    (State.create { Config.ofVectors with storeCapacity := 1 }).runState = .loading ∧
    (State.create { Config.ofVectors with storeCapacity := 1 }).count ≠ 1 := by decide

theorem witness_RunEntersRunningOnce : State.reset.runState = .loading ∧ (at0 0#32).runState ≠ .loading := by decide

/-- A program that fills the store. -/
theorem witness_LoadedProgramStandsInOrder :
    [0xE3A00001#32, 0xE3A01002#32].length = ({ Config.ofVectors with storeCapacity := 2 } : Config).storeCapacity := by decide

/-- A program of one word, and none. -/
theorem witness_RunStartsAtTheFirstWord :
    ([0xE3A00001#32].length ≤ Config.ofVectors.storeCapacity ∧ ∃ w rest, [0xE3A00001#32] = w :: rest) ∧
    ([] : List Word).length ≤ Config.ofVectors.storeCapacity := ⟨⟨by decide, _, _, rfl⟩, by decide⟩

end Sys2Proof.Tests
end

section
/-! SUPPORT. A branch word's condition field and category (30_encoding R71, R72), as an `example`: Lean elaborates it before it goes on,
so the equations of `encode`, `Instr.cond` and `categoryOf` exist before the many lemmas above that are elaborated in parallel ask for
them. Where each of those finds them missing, each waits in a thread of its own, and their stacks exceed the check's memory limit. -/

namespace Sys2Proof.Laws

example (c : Cond) (imm24 : BitVec 24) : CondField.Statement (.b c imm24) ∧ WordCategory.Statement (.b c imm24) := by
  constructor
  · simp [CondField.Statement, encode, Instr.cond]
  · exact category_of_bits (by simp [encode, categoryOf]) (by simp [encode, categoryOf])

end Sys2Proof.Laws
end

section
/-! SUPPORT. One step keeps `Inv`: what each state update does to it, then one lemma per shape of an instruction's effect, then
every instruction and every step. -/

namespace Sys2Proof.Machine

variable {s t : State}

/-! ### What keeps the invariant -/

/-- A state with the same configuration, store and data memory meets the invariant if F and M are clear in its status registers. -/
theorem Inv.of_status (h : Inv s) (hcfg : t.cfg = s.cfg) (hstore : t.store = s.store) (hmem : t.dmem = s.dmem)
    (hst : FAndModeClear t.status) (hsaved : FAndModeClear t.savedStatus) : Inv t := by
  obtain ⟨hlegal, hcount, hwf, hbelow, -, -⟩ := h
  refine ⟨hcfg ▸ hlegal, ?_, hmem ▸ hwf, ?_, hst, hsaved⟩
  · simpa only [State.count, hstore, hcfg] using hcount
  · simpa only [hmem, hcfg] using hbelow

/-- Setting N, Z, C and V from a result leaves F and M clear. -/
theorem fAndModeClear_statusAfter (r : AluResult) {st : Byte} (h : FAndModeClear st) : FAndModeClear (r.statusAfter st) :=
  (fAndModeClear_of_lowNibble (lowNibble_statusAfter r st)).2 h

theorem inv_setRun (h : Inv s) (r : RunState) : Inv (s.setRun r) := h

theorem inv_setPc (h : Inv s) (a : Word) : Inv (s.setPc a) := h

theorem inv_writeReg (h : Inv s) (i : Reg) (v : Word) : Inv (s.writeReg i v) := h

theorem inv_advance (h : Inv s) : Inv s.advance := inv_setPc h _

/-! ### The shapes of an instruction's effect -/

/-- An ALU write leaves the status, restores the saved one or sets flags: F and M stay clear in each case. -/
theorem inv_aluWrite (h : Inv s) (sf : Bool) (rd : Reg) (r : AluResult) : Inv (aluWrite sf rd r s) := by
  obtain ⟨hcfg, hstore, hmem, -, hsaved⟩ := aluWrite_kept sf rd r s
  have ⟨_, _, _, _, hst, hsv⟩ := h
  refine h.of_status hcfg hstore hmem ?_ (hsaved ▸ hsv)
  rw [aluWrite_status]
  split
  · split
    · exact hsv
    · exact fAndModeClear_statusAfter r hst
  · exact hst

theorem inv_aluTest (h : Inv s) (sf : Bool) (r : AluResult) : Inv (aluTest sf r s) := by
  obtain ⟨hcfg, hstore, hmem, -, hsaved⟩ := aluTest_kept sf r s
  have ⟨_, _, _, _, hst, hsv⟩ := h
  refine h.of_status hcfg hstore hmem ?_ (hsaved ▸ hsv)
  rw [aluTest_status]
  split
  · exact fAndModeClear_statusAfter r hst
  · exact hst

theorem inv_loadAccess (h : Inv s) (p u w : Bool) (rn rd : Reg) (o : OffsetForm) : Inv (loadAccess p u w rn rd o s) := by
  obtain ⟨hcfg, hstore, hmem, -, hsaved, hstatus⟩ := loadAccess_kept p u w rn rd o s
  have ⟨_, _, _, _, hst, hsv⟩ := h
  exact h.of_status hcfg hstore hmem (hstatus ▸ hst) (hsaved ▸ hsv)

/-- A word stored within the data memory leaves it canonical and within its bounds (20_memory R50, R54). -/
theorem inv_storeAccess (h : Inv s) (p u w : Bool) (rn rd : Reg) (o : OffsetForm)
    (hrange : (accessAddress p u rn o s).toNat + 4 ≤ s.cfg.dataMemBytes) : Inv (storeAccess p u w rn rd o s) := by
  obtain ⟨hlegal, hcount, hwf, hbelow, hst, hsv⟩ := h
  have hmem : Inv (s.setMem (Memory.writeWord s.dmem (accessAddress p u rn o s).toNat (s.opnd rd))) :=
    ⟨hlegal, hcount, Memory.wf_writeWord hwf _ _, Memory.below_writeWord hbelow hrange _, hst, hsv⟩
  obtain ⟨hcfg, hstore, -, hsaved, hstatus⟩ := storeAccess_kept p u w rn rd o s
  exact hmem.of_status hcfg hstore (storeAccess_dmem p u w rn rd o s) (hstatus ▸ hst) (hsaved ▸ hsv)

/-- A transfer keeps the invariant if its access does at an address within the data memory; a refused or faulting one does no access. -/
theorem inv_transfer (h : Inv s) (p u w : Bool) (rn rd : Reg) (o : OffsetForm) {access : State}
    (haccess : (accessAddress p u rn o s).toNat + 4 ≤ s.cfg.dataMemBytes → Inv access) :
    Inv (transfer p u w rn rd o access s) := by
  rcases transfer_cases p u w rn rd o access s with ⟨r, e⟩ | ⟨f, e⟩ | ⟨e, -, -, -, hrange⟩
  · rw [e]; exact inv_setRun h _
  · rw [e]; exact inv_setRun h _
  · rw [e]; exact haccess hrange

/-- SWI saves a status with F and M clear and sets I alone (44_interrupt R190). -/
theorem inv_takeInterrupt (h : Inv s) : Inv s.takeInterrupt := by
  have ⟨_, _, _, _, hst, _⟩ := h
  exact h.of_status rfl rfl rfl (fAndModeClear_interruptDisable hst) hst

/-! ### Every instruction and every step -/

theorem Effect.inv {i : Instr} (e : Effect i s t) (h : Inv s) : Inv t := by
  cases e with
  | write sf rd r => exact inv_aluWrite h sf rd r
  | test sf r => exact inv_aluTest h sf r
  | load p u w rn rd o => exact inv_transfer h p u w rn rd o fun _ => inv_loadAccess h p u w rn rd o
  | store p u w rn rd o => exact inv_transfer h p u w rn rd o (inv_storeAccess h p u w rn rd o)
  | branch a => exact inv_setPc h a
  | link a => exact inv_setPc (inv_writeReg h _ _) a
  | interrupt => exact inv_takeInterrupt h
  | unsupported r => exact inv_setRun h _

theorem exec_keeps_inv (h : Inv s) {i : Instr} (he : exec i s = .next t) : Inv t := by
  rcases exec_eq_next he with ⟨-, rfl⟩ | ⟨-, rfl⟩
  · exact (executed_effect i s).inv h
  · exact inv_advance h

/-- Settles O50, by what a step can do: stay, end the run, or execute the fetched word. -/
theorem stepKeepsTheInvariant : Obligations.StepKeepsTheInvariant := by
  intro s t h hstep
  rcases step_cases hstep with rfl | ⟨-, rfl⟩ | ⟨-, rfl⟩ | ⟨-, w, -, he⟩
  · exact h
  · exact inv_setRun h _
  · exact inv_setRun h _
  · exact exec_keeps_inv h he

end Sys2Proof.Machine
end

section
/-! SUPPORT. What an instruction leaves alone: the store and the configuration, the registers it does not name, the status registers; and
which sources it reads. Each is a lemma over the eight shapes of `Effect`, from which the statement over all instructions follows. -/

namespace Sys2Proof.Machine

variable {i : Instr} {s t : State}

/-- An instruction executes with one of the eight effects, or is skipped (45_driver R203, R204). -/
theorem exec_cases (he : exec i s = .next t) :
    (condHolds i.cond s.status = true ∧ Effect i s t) ∨ (condHolds i.cond s.status = false ∧ t = s.advance) := by
  rcases exec_eq_next he with ⟨hc, rfl⟩ | hskip
  · exact .inl ⟨hc, executed_effect i s⟩
  · exact .inr hskip

/-! ### The Instruction Store and the configuration (10_state R31) -/

theorem Effect.store_cfg (e : Effect i s t) : t.store = s.store ∧ t.cfg = s.cfg := by
  cases e with
  | write sf rd r =>
    obtain ⟨hcfg, hstore, -⟩ := aluWrite_kept sf rd r s
    exact ⟨hstore, hcfg⟩
  | load p u w rn rd o =>
    obtain ⟨hcfg, hstore, -⟩ := loadAccess_kept p u w rn rd o s
    exact ⟨transfer_keeps State.store State.store_setRun p u w rn rd o hstore,
      transfer_keeps State.cfg State.cfg_setRun p u w rn rd o hcfg⟩
  | store p u w rn rd o =>
    obtain ⟨hcfg, hstore, -⟩ := storeAccess_kept p u w rn rd o s
    exact ⟨transfer_keeps State.store State.store_setRun p u w rn rd o hstore,
      transfer_keeps State.cfg State.cfg_setRun p u w rn rd o hcfg⟩
  | test | branch | link | interrupt | unsupported => exact ⟨rfl, rfl⟩

theorem exec_store_cfg (he : exec i s = .next t) : t.store = s.store ∧ t.cfg = s.cfg := by
  rcases exec_cases he with ⟨-, e⟩ | ⟨-, rfl⟩
  · exact e.store_cfg
  · exact ⟨rfl, rfl⟩

theorem step_store_cfg (hstep : step s = .next t) : t.store = s.store ∧ t.cfg = s.cfg := by
  rcases step_cases hstep with rfl | ⟨-, rfl⟩ | ⟨-, rfl⟩ | ⟨-, w, -, he⟩
  · exact ⟨rfl, rfl⟩
  · exact ⟨rfl, rfl⟩
  · exact ⟨rfl, rfl⟩
  · exact exec_store_cfg he

theorem State.count_eq_of_store (h : t.store = s.store) : t.count = s.count := congrArg List.length h

/-- Settles O45: each shape of an effect keeps the store and the configuration, and so does each thing a step can do. -/
theorem instructionStoreIsReadOnly : Obligations.InstructionStoreIsReadOnly := by
  refine ⟨fun i s t he => ?_, fun s t hstep => ?_⟩
  · obtain ⟨hstore, hcfg⟩ := exec_store_cfg he
    exact ⟨hstore, State.count_eq_of_store hstore, hcfg⟩
  · obtain ⟨hstore, hcfg⟩ := step_store_cfg hstep
    exact ⟨hstore, State.count_eq_of_store hstore, hcfg⟩

/-! ### The registers (10_state R21, R22) -/

theorem Effect.sameRegs (e : Effect i s t) : SameRegs (mayWrite i) s t := by
  cases e with
  | write sf rd r _ _ hm =>
    obtain ⟨-, -, hregs, -⟩ := aluWrite_writesRd sf rd r s
    exact hm ▸ hregs
  | test sf r _ _ hm =>
    obtain ⟨-, -, -, hregs, -⟩ := aluTest_writesFlagsOnly sf r s
    exact hm ▸ hregs
  | load p u w rn rd o _ _ hm => exact hm ▸ transfer_regs (loadAccess_regs p u w rn rd o s)
  | store p u w rn rd o _ _ hm => exact hm ▸ transfer_regs (storeAccess_regs p u w rn rd o s)
  | branch a => exact fun j hpc _ => State.readReg_setPc_of_ne s a j hpc
  | link a _ _ hm =>
    intro j hpc hin
    have hlr : j ≠ lrReg := by simpa [hm] using hin
    simp [hpc, hlr]
  | interrupt _ _ hm =>
    intro j hpc hin
    have hlr : j ≠ lrReg := by simpa [hm] using hin
    simp [State.takeInterrupt, hpc, hlr]
  | unsupported r => exact fun _ _ _ => rfl

/-- Settles O49: each shape of an effect changes the registers its instruction names, and a skipped instruction only the pc. -/
theorem onlyNamedRegistersAreWritten : Obligations.OnlyNamedRegistersAreWritten := by
  intro i s t he
  rcases exec_cases he with ⟨-, e⟩ | ⟨-, rfl⟩
  · exact e.sameRegs
  · exact fun j hpc _ => State.readReg_advance_of_ne s j hpc

/-! ### Effects that stand out: the interrupt, and the end of a run -/

/-- Only an SWI takes the interrupt, and it does nothing else. -/
theorem Effect.eq_takeInterrupt (e : Effect i s t) (hi : isSwi i = true) : t = s.takeInterrupt := by
  cases e with
  | interrupt => rfl
  | write | test | load | store | branch | link | unsupported => simp_all

/-- An effect that changes the run state is an Unsupported outcome or a fault, with everything else as it was (45_driver R205, R206). -/
theorem Effect.ends (e : Effect i s t) (hne : t.runState ≠ s.runState) :
    (∃ r, t = s.raiseUnsupported r) ∨ ∃ f, t = s.raiseFault f := by
  cases e with
  | write sf rd r =>
    obtain ⟨-, -, -, hrun, -⟩ := aluWrite_kept sf rd r s
    exact absurd hrun hne
  | load p u w rn rd o =>
    obtain ⟨-, -, -, hrun, -⟩ := loadAccess_kept p u w rn rd o s
    exact transfer_ends hrun hne
  | store p u w rn rd o =>
    obtain ⟨-, -, hrun, -⟩ := storeAccess_kept p u w rn rd o s
    exact transfer_ends hrun hne
  | unsupported r => exact .inl ⟨r, rfl⟩
  | test | branch | link | interrupt => exact absurd rfl hne

/-! ### Status (10_state R26) -/

/-- An effect without an S bit leaves Status, unless it is an SWI's. -/
theorem Effect.status_kept (e : Effect i s t) (hu : updatesStatus i = false) (hi : isSwi i = false) : t.status = s.status := by
  cases e with
  | write sf rd r hsf =>
    obtain rfl : sf = false := hsf.symm.trans hu
    exact aluWrite_status false rd r s
  | test sf r hsf =>
    obtain rfl : sf = false := hsf.symm.trans hu
    rfl
  | load p u w rn rd o =>
    obtain ⟨-, -, -, -, -, hstatus⟩ := loadAccess_kept p u w rn rd o s
    exact transfer_keeps State.status State.status_setRun p u w rn rd o hstatus
  | store p u w rn rd o =>
    obtain ⟨-, -, -, -, hstatus⟩ := storeAccess_kept p u w rn rd o s
    exact transfer_keeps State.status State.status_setRun p u w rn rd o hstatus
  | interrupt _ _ _ _ _ hi' => simp [hi] at hi'
  | branch | link | unsupported => rfl

theorem Effect.status_of_ends (e : Effect i s t) (hne : t.runState ≠ s.runState) : t.status = s.status := by
  rcases e.ends hne with ⟨r, rfl⟩ | ⟨f, rfl⟩ <;> rfl

/-- The mask of I has no bit but I's (10_state R24). -/
theorem getLsbD_interruptDisable {n : Nat} (hn : n ≠ 3) : interruptDisable.getLsbD n = false := by
  have : interruptDisable = BitVec.twoPow 8 3 := by decide
  simp [this, BitVec.getLsbD_twoPow, Ne.symm hn]

/-- The interrupt changes I alone in Status (44_interrupt R190). -/
theorem State.getLsbD_status_takeInterrupt (s : State) {n : Nat} (hn : n ≠ 3) :
    s.takeInterrupt.status.getLsbD n = s.status.getLsbD n := by
  simp [State.takeInterrupt, getLsbD_interruptDisable hn]

/-- Settles O47: a skipped instruction leaves Status, and so does each shape of an effect but an ALU word with S = 1 and the interrupt. -/
theorem flagsChangeOnlyWithUpdateBit : Obligations.FlagsChangeOnlyWithUpdateBit := by
  intro i s t he
  rcases exec_cases he with ⟨hc, e⟩ | ⟨-, rfl⟩
  · refine ⟨e.status_kept, fun hn => absurd (hc.symm.trans hn) (by decide), e.status_of_ends, fun hi n _ hn => ?_⟩
    rw [e.eq_takeInterrupt hi, State.getLsbD_status_takeInterrupt s hn]
  · exact ⟨fun _ _ => rfl, fun _ => rfl, fun _ => rfl, fun _ _ _ _ => rfl⟩

/-! ### SavedStatus (10_state R28) -/

theorem Effect.savedStatus_kept (e : Effect i s t) (hi : isSwi i = false) : t.savedStatus = s.savedStatus := by
  cases e with
  | write sf rd r =>
    obtain ⟨-, -, -, -, hsaved⟩ := aluWrite_kept sf rd r s
    exact hsaved
  | load p u w rn rd o =>
    obtain ⟨-, -, -, -, hsaved, -⟩ := loadAccess_kept p u w rn rd o s
    exact transfer_keeps State.savedStatus State.savedStatus_setRun p u w rn rd o hsaved
  | store p u w rn rd o =>
    obtain ⟨-, -, -, hsaved, -⟩ := storeAccess_kept p u w rn rd o s
    exact transfer_keeps State.savedStatus State.savedStatus_setRun p u w rn rd o hsaved
  | interrupt _ _ _ _ _ hi' => simp [hi] at hi'
  | test | branch | link | unsupported => rfl

/-- An ALU write that does not return reads no SavedStatus. -/
theorem aluWrite_setSaved {sf : Bool} {rd : Reg} (hr : (sf && rd == pcReg) = false) (r : AluResult) (s : State) (x : Byte) :
    aluWrite sf rd r (s.setSaved x) = (aluWrite sf rd r s).setSaved x := by
  by_cases h : rd = pcReg
  · obtain rfl : sf = false := by simpa [h] using hr
    simp only [aluWrite, h, if_true]
    rfl
  · simp only [aluWrite, h, if_false]
    rfl

theorem writeBack_setSaved (s : State) (x : Byte) (p w : Bool) (rn : Reg) (v : Word) :
    (s.setSaved x).writeBack p w rn v = (s.writeBack p w rn v).setSaved x := by
  unfold State.writeBack
  split <;> rfl

theorem loadAccess_setSaved (p u w : Bool) (rn rd : Reg) (o : OffsetForm) (s : State) (x : Byte) :
    loadAccess p u w rn rd o (s.setSaved x) = (loadAccess p u w rn rd o s).setSaved x := by
  simp only [loadAccess, writeBack_setSaved]
  split <;> rfl

theorem storeAccess_setSaved (p u w : Bool) (rn rd : Reg) (o : OffsetForm) (s : State) (x : Byte) :
    storeAccess p u w rn rd o (s.setSaved x) = (storeAccess p u w rn rd o s).setSaved x := by
  have hmem (m : List Host.Cell) : (s.setSaved x).setMem m = (s.setMem m).setSaved x := rfl
  simp only [storeAccess, hmem, writeBack_setSaved]
  rfl

/-- The checks of a transfer read no SavedStatus. -/
theorem transfer_setSaved (p u w : Bool) (rn rd : Reg) (o : OffsetForm) (access s : State) (x : Byte) :
    transfer p u w rn rd o (access.setSaved x) (s.setSaved x) = (transfer p u w rn rd o access s).setSaved x := by
  have haddr : accessAddress p u rn o (s.setSaved x) = accessAddress p u rn o s := rfl
  simp only [transfer, haddr, State.cfg_setSaved]
  split
  · rfl
  · split <;> rfl

/-- An instruction other than a return and an SWI, which saves over it, carries SavedStatus through unread. -/
theorem executed_setSaved (i : Instr) (hr : restoresStatus i = false) (hi : isSwi i = false) (s : State) (x : Byte) :
    executed i (s.setSaved x) = (executed i s).setSaved x := by
  cases i with
  | andImm | andReg | eorImm | eorReg | subImm | subReg | rsbImm | rsbReg | addImm | addReg | adcImm | adcReg | sbcImm | sbcReg
  | rscImm | rscReg | orrImm | orrReg | movImm | movReg | bicImm | bicReg | mvnImm | mvnReg => exact aluWrite_setSaved hr _ s x
  | tstImm | tstReg | teqImm | teqReg | cmpImm | cmpReg | cmnImm | cmnReg => rfl
  | ldrImm | ldrReg =>
    simp only [executed, loadAccess_setSaved]
    exact transfer_setSaved _ _ _ _ _ _ _ s x
  | strImm | strReg =>
    simp only [executed, storeAccess_setSaved]
    exact transfer_setSaved _ _ _ _ _ _ _ s x
  | swi => cases hi
  | b | bl | shiftedRegisterAlu | byteTransfer | translatedTransfer | writebackConflict | shiftedRegisterTransfer | pcOffsetRegister
  | blockTransfer | coprocessor => rfl

/-- A skipped instruction and one that does not restore the status read no SavedStatus. -/
theorem exec_setSaved (he : exec i s = .next t) (hr : restoresStatus i = false) (x : Byte) :
    ∃ y, exec i (s.setSaved x) = .next (t.setSaved y) := by
  rcases exec_eq_next he with ⟨hc, rfl⟩ | ⟨hc, rfl⟩
  · rw [exec_of_holds (s := s.setSaved x) hc]
    cases hi : isSwi i with
    | false => exact ⟨x, congrArg _ (executed_setSaved i hr hi s x)⟩
    | true =>
      refine ⟨s.status, ?_⟩
      rw [(executed_effect i s).eq_takeInterrupt hi, (executed_effect i (s.setSaved x)).eq_takeInterrupt hi]
      rfl
  · exact ⟨x, exec_of_not_holds (s := s.setSaved x) hc⟩

/-- Settles O48: who writes SavedStatus by the shapes of an effect, who reads it by what replacing it changes. -/
theorem savedStatusIsTheInterrupts : Obligations.SavedStatusIsTheInterrupts := by
  intro i s t he
  have hread : restoresStatus i = false → ∀ x : Byte, ∃ u, exec i { s with savedStatus := x } = .next u ∧
      u.regs = t.regs ∧ u.status = t.status ∧ u.dmem = t.dmem ∧ u.runState = t.runState := by
    intro hr x
    obtain ⟨y, hy⟩ := exec_setSaved he hr x
    exact ⟨t.setSaved y, hy, rfl, rfl, rfl, rfl⟩
  rcases exec_cases he with ⟨hc, e⟩ | ⟨hc, rfl⟩
  · refine ⟨fun h => e.savedStatus_kept (h.resolve_right (by simp [hc])), fun hi _ => ?_, hread⟩
    rw [e.eq_takeInterrupt hi]
    rfl
  · exact ⟨fun _ => rfl, fun _ h => absurd (hc.symm.trans h) (by decide), hread⟩

/-! ### The sources (10_state R23) -/

/-- Byte `k` of a word written to memory is read at `a + k` (20_memory R54). -/
theorem Memory.readByte_writeWord_inside {m : List Host.Cell} (hm : Memory.wf m = true) (a : Nat) (v : Word) {k : Nat}
    (hk : k < 4) : Memory.readByte (Memory.writeWord m a v) (a + k) = byteOfWord v k := by
  rw [Memory.readByte_writeWord hm]
  interval_cases k <;> simp

/-- A pre-indexed transfer without writeback passes the checks of its mode whatever its registers. -/
theorem admittedMode_preIndex (rn rd : Reg) : AdmittedMode true false rn rd := by
  simp [AdmittedMode, Translated, Conflicts, WritesBack]

/-- Such a transfer with an added immediate offset accesses the address it names, if that is aligned and in range. -/
theorem transfer_preIndex_imm (rn rd : Reg) (off12 : BitVec 12) (access : State)
    (ha : (s.opnd rn + off12.setWidth 32).toNat % 4 = 0)
    (hb : (s.opnd rn + off12.setWidth 32).toNat + 4 ≤ s.cfg.dataMemBytes) :
    transfer true true false rn rd (.imm off12) access s = access :=
  transfer_of_ok (admittedMode_preIndex rn rd) (by simp) ha hb

/-- Settles O29: the sources are read through `State.opnd`, which is the value named. -/
theorem pcReadsAsAPlusEight : Obligations.PcReadsAsAPlusEight := by
  intro s v hv
  obtain rfl : v = s.opnd := funext hv
  refine ⟨fun rn rd rm hrd => ?_, fun rn rd off12 ha hb hwf => ?_⟩
  · obtain ⟨hwrite, -⟩ := aluWrite_writesRd false rd (resOrr (s.opnd rn) (s.opnd rm)) s
    obtain ⟨hresult, -⟩ := hwrite hrd
    exact ⟨_, exec_of_holds rfl, hresult⟩
  · have haccess (access : State) := transfer_preIndex_imm rn rd off12 access ha hb
    refine ⟨⟨_, exec_of_holds rfl, fun k hk => ?_⟩, fun hrd => ⟨_, exec_of_holds rfl, fun k hk => ?_⟩⟩
    · simp only [executed, haccess, storeAccess_dmem]
      exact Memory.readByte_writeWord_inside hwf _ _ hk
    · obtain ⟨hload, -⟩ := loadAccess_result true (.imm off12) s (admittedMode_preIndex rn rd)
      obtain ⟨hword, -⟩ := hload hrd
      simp only [executed, haccess, hword]
      exact Memory.byteOfWord_readWord s.dmem _ k hk

end Sys2Proof.Machine
end

section
/-! SUPPORT. The state at creation (10_state R35), and a program loaded into it (70_reset_and_hazards R252, R255). -/

namespace Sys2Proof.Machine

variable {s : State}

/-- Settles O54: each field of `State.create` is the reset value. -/
theorem creationValues : Obligations.CreationValues := fun cfg =>
  ⟨State.readReg_create cfg, State.pc_create cfg, rfl, rfl, rfl, Memory.readByte_nil, rfl, rfl⟩

theorem inv_create {cfg : Config} (h : cfg.Legal) : Inv (State.create cfg) := by
  have hclear : FAndModeClear 0#8 := by decide
  exact ⟨h, Nat.zero_le _, Memory.wf_create cfg, List.forall_mem_nil _, hclear, hclear⟩

theorem legal_ofVectors : Config.ofVectors.Legal := by decide

/-- Settles O51: an empty store and memory and clear status registers meet `Inv`, and the vectors' parameters are legal (log entry 1). -/
theorem creationMeetsTheInvariant : Obligations.CreationMeetsTheInvariant :=
  ⟨fun _ => inv_create, inv_create legal_ofVectors⟩

/-- In `Loading` a word is appended while there is room (70_reset_and_hazards R252). -/
theorem hostLoad_of_room (hl : s.runState = .loading) (hroom : s.count < s.cfg.storeCapacity) (w : Word) :
    s.hostLoad w = { s with store := s.store ++ [w] } := by
  simp only [State.hostLoad, hl, if_neg hroom.ne]

/-- In `Loading` a program is appended in order if there is room for all of it. -/
theorem hostLoadAll_of_room (ws : List Word) (hl : s.runState = .loading) (hroom : s.count + ws.length ≤ s.cfg.storeCapacity) :
    s.hostLoadAll ws = { s with store := s.store ++ ws } := by
  induction ws generalizing s with
  | nil => simp [State.hostLoadAll]
  | cons w ws ih =>
    rw [List.length_cons] at hroom
    rw [State.hostLoadAll, hostLoad_of_room hl (by omega)]
    refine (ih (s := { s with store := s.store ++ [w] }) hl ?_).trans (by simp)
    simp only [State.count, List.length_append, List.length_singleton] at hroom ⊢
    omega

/-- Settles O57: creation leaves the machine in `Loading` with an empty store. -/
theorem loadedProgramStandsInOrder : Obligations.LoadedProgramStandsInOrder := by
  intro cfg ws hfit
  exact hostLoadAll_of_room (s := State.create cfg) ws rfl (by simpa [State.count, State.create] using hfit)

end Sys2Proof.Machine
end

section
/-! SUPPORT. Who reaches the data memory and what an access does there (20_memory): the faults of LDR and STR, a word stored and loaded
again, and what every other instruction and the host leave alone. -/

namespace Sys2Proof.Machine

variable {c : Cond} {p u w : Bool} {rn rd : Reg} {off addr : Word} {i : Instr} {s t : State} {f : Fault}

/-! ### Faulting transfers (20_memory R57, R58) -/

/-- `i` is an LDR or STR with these fields whose offset is `off` in state `s`, an offset register other than R15 (30_encoding R78). -/
def IsTransferBy (c : Cond) (p u w : Bool) (rn rd : Reg) (off : Word) (i : Instr) (s : State) : Prop :=
  (∃ off12, (i = .ldrImm c p u w rn rd off12 ∨ i = .strImm c p u w rn rd off12) ∧ off = off12.setWidth 32) ∨
    (∃ rm, rm ≠ pcReg ∧ (i = .ldrReg c p u w rn rd rm ∨ i = .strReg c p u w rn rd rm) ∧ off = s.readReg rm)

/-- Loads and stores of either form share the checks of `transfer` around their accesses. -/
theorem IsTransferBy.executed_eq (h : IsTransferBy c p u w rn rd off i s) :
    i.cond = c ∧ ∃ o access, o ≠ .reg pcReg ∧ o.value s = off ∧ executed i s = transfer p u w rn rd o access s := by
  rcases h with ⟨off12, rfl | rfl, rfl⟩ | ⟨rm, hrm, rfl | rfl, rfl⟩
  · exact ⟨rfl, .imm off12, loadAccess p u w rn rd (.imm off12) s, by simp, rfl, rfl⟩
  · exact ⟨rfl, .imm off12, storeAccess p u w rn rd (.imm off12) s, by simp, rfl, rfl⟩
  · exact ⟨rfl, .reg rm, loadAccess p u w rn rd (.reg rm) s, by simpa using hrm, rfl, rfl⟩
  · exact ⟨rfl, .reg rm, storeAccess p u w rn rd (.reg rm) s, by simpa using hrm, rfl, rfl⟩

/-- A transfer in an admitted mode whose address faults ends the run with that fault, whatever its access would have done. -/
theorem transfer_of_fault {o : OffsetForm} {access : State} (hm : AdmittedMode p w rn rd) (ho : o ≠ .reg pcReg)
    (hf : accessFault s.cfg (accessAddress p u rn o s) = some f) : transfer p u w rn rd o access s = s.raiseFault f := by
  unfold transfer
  rw [(transferRefused_eq_none_iff p w rn rd o).2 ⟨hm, ho⟩, hf]

theorem IsTransferBy.exec_of_fault (h : IsTransferBy c p u w rn rd off i s) (hm : AdmittedMode p w rn rd)
    (haddr : addr = if p then (if u then s.opnd rn + off else s.opnd rn - off) else s.opnd rn)
    (hc : condHolds c s.status = true) (hf : accessFault s.cfg addr = some f) : exec i s = .next (s.raiseFault f) := by
  obtain ⟨rfl, o, access, ho, rfl, he⟩ := h.executed_eq
  have hacc : addr = accessAddress p u rn o s := haddr
  rw [exec_of_holds hc, he, transfer_of_fault hm ho (hacc ▸ hf)]

theorem accessFault_of_misaligned (cfg : Config) (ha : addr.extractLsb' 0 2 ≠ 0b00#2) :
    accessFault cfg addr = some .dataMisaligned :=
  if_pos (mt (lowTwo_eq_zero_iff addr).2 ha)

theorem accessFault_of_outOfRange {cfg : Config} (ha : addr.extractLsb' 0 2 = 0b00#2)
    (hr : cfg.dataMemBytes < addr.toNat + 4) : accessFault cfg addr = some .dataOutOfRange := by
  have haligned := (lowTwo_eq_zero_iff addr).1 ha
  simp [accessFault, haligned, hr]

/-- Settles O34: the alignment check of a transfer comes first, and its fault leaves the access undone. -/
theorem misalignedTransferFaults : Obligations.MisalignedTransferFaults := by
  intro c p u w rn rd off addr i s hi hm haddr hc ha
  have ht : IsTransferBy c p u w rn rd off i s := hi
  exact ht.exec_of_fault hm haddr hc (accessFault_of_misaligned s.cfg ha)

/-- Settles O35: an aligned address goes on to the range check, and its fault leaves the access undone. -/
theorem outOfRangeTransferFaults : Obligations.OutOfRangeTransferFaults := by
  intro c p u w rn rd off addr i s hi hm haddr hc ha hr
  have ht : IsTransferBy c p u w rn rd off i s := hi
  exact ht.exec_of_fault hm haddr hc (accessFault_of_outOfRange ha hr)

/-! ### A word stored and loaded again (20_memory R56) -/

theorem State.opnd_of_ne (hn : rn ≠ pcReg) : s.opnd rn = s.readReg rn := if_neg hn

/-- With P = 1, W = 0 and a zero offset the address accessed is the base register's value. -/
theorem accessAddress_zeroOffset (hn : rn ≠ pcReg) : accessAddress true true rn (.imm 0#12) s = s.readReg rn := by
  simp [accessAddress, offsetAddress, OffsetForm.value, State.opnd_of_ne hn]

/-- Such a transfer does its access if the base register is aligned and in range. -/
theorem transfer_zeroOffset (hn : rn ≠ pcReg) (ha : (s.readReg rn).toNat % 4 = 0)
    (hr : (s.readReg rn).toNat + 4 ≤ s.cfg.dataMemBytes) (rd : Reg) (access : State) :
    transfer true true false rn rd (.imm 0#12) access s = access :=
  transfer_of_ok (admittedMode_preIndex rn rd) (by simp) (by rwa [accessAddress_zeroOffset hn])
    (by rwa [accessAddress_zeroOffset hn])

/-- STR Rd,[Rn] writes its source at the base register's address and leaves the base register. -/
theorem exec_strImm_zeroOffset (hn : rn ≠ pcReg) (ha : (s.readReg rn).toNat % 4 = 0)
    (hr : (s.readReg rn).toNat + 4 ≤ s.cfg.dataMemBytes) (rd : Reg) :
    ∃ t, exec (.strImm .al true true false rn rd 0#12) s = .next t ∧ t.cfg = s.cfg ∧ t.readReg rn = s.readReg rn ∧
      t.dmem = Memory.writeWord s.dmem (s.readReg rn).toNat (s.opnd rd) := by
  have hbase := storeAccess_regs true true false rn rd (.imm 0#12) s rn hn List.not_mem_nil
  have hmem := storeAccess_dmem true true false rn rd (.imm 0#12) s
  obtain ⟨hcfg, -⟩ := storeAccess_kept true true false rn rd (.imm 0#12) s
  rw [accessAddress_zeroOffset hn] at hmem
  refine ⟨_, ?_, hcfg, hbase, hmem⟩
  rw [exec_of_holds rfl, executed, transfer_zeroOffset hn ha hr]

/-- LDR Rd,[Rn] reads the word at the base register's address. -/
theorem exec_ldrImm_zeroOffset (hn : rn ≠ pcReg) (hd : rd ≠ pcReg) (ha : (s.readReg rn).toNat % 4 = 0)
    (hr : (s.readReg rn).toNat + 4 ≤ s.cfg.dataMemBytes) :
    ∃ t, exec (.ldrImm .al true true false rn rd 0#12) s = .next t ∧
      t.readReg rd = Memory.readWord s.dmem (s.readReg rn).toNat := by
  obtain ⟨hload, -⟩ := loadAccess_result true (.imm 0#12) s (admittedMode_preIndex rn rd)
  obtain ⟨hword, -⟩ := hload hd
  rw [accessAddress_zeroOffset hn] at hword
  refine ⟨_, ?_, hword⟩
  rw [exec_of_holds rfl, executed, transfer_zeroOffset hn ha hr]

/-- Settles O36: the store leaves the base register and the parameters, so the load reads where the word was written. -/
theorem storeThenLoadReturnsTheWord : Obligations.StoreThenLoadReturnsTheWord := by
  intro rn rd re s hwf hn hre ha hr
  obtain ⟨t, hstr, hcfg, hbase, hmem⟩ := exec_strImm_zeroOffset hn ha hr rd
  rw [← hcfg] at hr
  obtain ⟨u, hldr, hword⟩ := exec_ldrImm_zeroOffset (s := t) hn hre (hbase ▸ ha) (hbase ▸ hr)
  refine ⟨t, u, hstr, hldr, ?_⟩
  rw [hword, hbase, hmem, Memory.readWord_writeWord hwf]

/-! ### Who does not reach the data memory (20_memory R51) -/

theorem Effect.dmem_kept (e : Effect i s t) (hs : isStore i = false) : t.dmem = s.dmem := by
  cases e with
  | write sf rd r =>
    obtain ⟨-, -, hmem, -⟩ := aluWrite_kept sf rd r s
    exact hmem
  | load p u w rn rd o =>
    obtain ⟨-, -, hmem, -⟩ := loadAccess_kept p u w rn rd o s
    exact transfer_keeps State.dmem State.dmem_setRun p u w rn rd o hmem
  | store _ _ _ _ _ _ _ _ _ _ hs' => simp [hs] at hs'
  | test | branch | link | interrupt | unsupported => rfl

theorem exec_dmem_kept (he : exec i s = .next t) (hs : isStore i = false) : t.dmem = s.dmem := by
  rcases exec_cases he with ⟨-, e⟩ | ⟨-, rfl⟩
  · exact e.dmem_kept hs
  · rfl

theorem isStore_eq_false_of_isTransfer (h : isTransfer i = false) : isStore i = false := by
  cases i with
  | strImm | strReg => cases h
  | _ => rfl

theorem aluWrite_setMem (sf : Bool) (rd : Reg) (r : AluResult) (s : State) (m : List Host.Cell) :
    aluWrite sf rd r (s.setMem m) = (aluWrite sf rd r s).setMem m := by
  unfold aluWrite
  split
  · split <;> rfl
  · rfl

/-- An instruction other than LDR and STR carries the data memory through unread. -/
theorem executed_setMem (ht : isTransfer i = false) (s : State) (m : List Host.Cell) :
    executed i (s.setMem m) = (executed i s).setMem m := by
  cases i with
  | andImm | andReg | eorImm | eorReg | subImm | subReg | rsbImm | rsbReg | addImm | addReg | adcImm | adcReg | sbcImm | sbcReg
  | rscImm | rscReg | orrImm | orrReg | movImm | movReg | bicImm | bicReg | mvnImm | mvnReg => exact aluWrite_setMem _ _ _ s m
  | ldrImm | ldrReg | strImm | strReg => cases ht
  | tstImm | tstReg | teqImm | teqReg | cmpImm | cmpReg | cmnImm | cmnReg | b | bl | swi | shiftedRegisterAlu | byteTransfer
  | translatedTransfer | writebackConflict | shiftedRegisterTransfer | pcOffsetRegister | blockTransfer | coprocessor => rfl

theorem exec_setMem (he : exec i s = .next t) (ht : isTransfer i = false) (m : List Host.Cell) :
    exec i (s.setMem m) = .next (t.setMem m) := by
  rcases exec_eq_next he with ⟨hc, rfl⟩ | ⟨hc, rfl⟩
  · rw [exec_of_holds (s := s.setMem m) hc, executed_setMem ht]
  · exact exec_of_not_holds (s := s.setMem m) hc

@[simp] theorem State.dmem_hostLoad (s : State) (w : Word) : (s.hostLoad w).dmem = s.dmem := by
  unfold State.hostLoad
  split
  · rfl
  · split <;> rfl
  · rfl
  · rfl
  · rfl

@[simp] theorem State.dmem_hostRun (s : State) : s.hostRun.dmem = s.dmem := by
  unfold State.hostRun
  split <;> rfl

/-- Settles O46: reading is excluded by replacing the memory, writing by the shapes of an effect and by what the host's calls set. -/
theorem onlyTransfersReachDataMemory : Obligations.OnlyTransfersReachDataMemory := by
  refine ⟨fun i s m ht => ?_, fun i s t hs he => exec_dmem_kept he hs, fun s w => ⟨s.dmem_hostLoad w, s.dmem_hostRun⟩,
    fun _ => Memory.readByte_nil⟩
  have he := exec_eq i s
  exact ⟨_, he, exec_dmem_kept he (isStore_eq_false_of_isTransfer ht), exec_setMem he ht m⟩

end Sys2Proof.Machine
end

section
/-! SUPPORT. The encoding (30_encoding R82 to R89). The packed word of a row's fields decodes to that row, one lemma per format and space of
R85; what the decoder of each category answers is well-formed and encodes to the word it was read from. -/

namespace Sys2Proof.Machine

/-! ### The ALU rows, by opcode (30_encoding R73 to R76) -/

@[simp] theorem encode_aluImmOf (op : AluOp) (c : Cond) (sf : Bool) (rn rd : Reg) (rot : BitVec 4) (imm8 : Byte) :
    encode (aluImmOf op c sf rn rd rot imm8) = packAluImm c op sf rn rd rot imm8 := by
  cases op <;> rfl

@[simp] theorem encode_aluRegOf (op : AluOp) (c : Cond) (sf : Bool) (rn rd rm : Reg) :
    encode (aluRegOf op c sf rn rd rm) = packAluReg c op sf rn rd 0#8 rm := by
  cases op <;> rfl

theorem wellFormed_aluImmOf (op : AluOp) (c : Cond) (sf : Bool) (rn rd : Reg) (rot : BitVec 4) (imm8 : Byte) :
    (aluImmOf op c sf rn rd rot imm8).WellFormed := by
  cases op <;> rfl

theorem wellFormed_aluRegOf (op : AluOp) (c : Cond) (sf : Bool) (rn rd rm : Reg) :
    (aluRegOf op c sf rn rd rm).WellFormed := by
  cases op <;> rfl

/-! ### The modes of a transfer, as the decoder checks them (30_encoding R85) -/

theorem isTranslated_eq_false_iff (p w : Bool) : isTranslated p w = false ↔ ¬ Translated p w := by
  rw [← isTranslated_iff, Bool.not_eq_true]

theorem isConflict_eq_false_iff (p w : Bool) (rn rd : Reg) : isConflict p w rn rd = false ↔ ¬ Conflicts p w rn rd := by
  rw [← isConflict_iff, Bool.not_eq_true]

/-! ### What a packed word decodes to -/

theorem decode_packAluImm (c : Cond) (op : AluOp) (sf : Bool) (rn rd : Reg) (rot : BitVec 4) (imm8 : Byte) :
    decode (packAluImm c op sf rn rd rot imm8) = aluImmOf op c sf rn rd rot imm8 := by
  simp [decode, decodeAlu]

theorem decode_packAluReg_unshifted (c : Cond) (op : AluOp) (sf : Bool) (rn rd rm : Reg) :
    decode (packAluReg c op sf rn rd 0#8 rm) = aluRegOf op c sf rn rd rm := by
  simp [decode, decodeAlu]

theorem decode_packAluReg_shifted (c : Cond) (op : AluOp) (sf : Bool) (rn rd rm : Reg) {sh : Byte} (hsh : sh ≠ 0#8) :
    decode (packAluReg c op sf rn rd sh rm) = .shiftedRegisterAlu c op sf rn rd sh rm := by
  simp [decode, decodeAlu, hsh]

theorem decode_packBranch (c : Cond) (l : Bool) (imm24 : BitVec 24) :
    decode (packBranch c l imm24) = if l then .bl c imm24 else .b c imm24 := by
  simp [decode, decodeBranch]

theorem decode_packBlock (c : Cond) (rest : BitVec 25) : decode (packBlock c rest) = .blockTransfer c rest := by
  simp [decode, decodeBranch]

theorem decode_packInterrupt_swi (c : Cond) (comment : BitVec 24) : decode (packInterrupt c 0b11#2 comment) = .swi c comment := by
  simp [decode, decodeInterrupt]

theorem decode_packInterrupt_coprocessor (c : Cond) (rest : BitVec 24) {sub : BitVec 2} (hsub : sub ≠ 0b11#2) :
    decode (packInterrupt c sub rest) = .coprocessor c sub rest := by
  simp [decode, decodeInterrupt, hsub]

section Transfer

variable (c : Cond) (i u l : Bool) {p w : Bool} {rn rd : Reg} (off12 : BitVec 12)

theorem decode_packTransfer_byte (p w : Bool) (rn rd : Reg) :
    decode (packTransfer c i p u true w l rn rd off12) = .byteTransfer c i p u w l rn rd off12 := by
  simp [decode, decodeTransfer]

theorem decode_packTransfer_translated (rn rd : Reg) :
    decode (packTransfer c i false u false true l rn rd off12) = .translatedTransfer c i u l rn rd off12 := by
  simp [decode, decodeTransfer, isTranslated]

theorem decode_packTransfer_conflict (ht : ¬ Translated p w) (hc : Conflicts p w rn rd) :
    decode (packTransfer c i p u false w l rn rd off12) = .writebackConflict c i p u w l rn rd off12 := by
  simp [decode, decodeTransfer, (isTranslated_eq_false_iff p w).2 ht, (isConflict_iff p w rn rd).2 hc]

/-- A word transfer in an admitted mode is told apart by its offset alone (30_encoding R78). -/
theorem decode_packTransfer_admitted (hm : AdmittedMode p w rn rd) :
    decode (packTransfer c i p u false w l rn rd off12) =
      if i then
        if off12.extractLsb' 4 8 ≠ 0#8 then
          .shiftedRegisterTransfer c p u w l rn rd (off12.extractLsb' 4 8) (off12.extractLsb' 0 4)
        else if off12.extractLsb' 0 4 = pcReg then .pcOffsetRegister c p u w l rn rd
        else if l then .ldrReg c p u w rn rd (off12.extractLsb' 0 4) else .strReg c p u w rn rd (off12.extractLsb' 0 4)
      else if l then .ldrImm c p u w rn rd off12 else .strImm c p u w rn rd off12 := by
  obtain ⟨ht, hc⟩ := hm
  simp [decode, decodeTransfer, (isTranslated_eq_false_iff p w).2 ht, (isConflict_eq_false_iff p w rn rd).2 hc]

theorem decode_packTransfer_imm (hm : AdmittedMode p w rn rd) : decode (packTransfer c false p u false w l rn rd off12) =
    if l then .ldrImm c p u w rn rd off12 else .strImm c p u w rn rd off12 := by
  simp [decode_packTransfer_admitted c false u l off12 hm]

theorem decode_packTransfer_reg (hm : AdmittedMode p w rn rd) {rm : Reg} (hrm : rm ≠ pcReg) :
    decode (packTransfer c true p u false w l rn rd (regOffset 0#8 rm)) =
      if l then .ldrReg c p u w rn rd rm else .strReg c p u w rn rd rm := by
  simp [decode_packTransfer_admitted c true u l _ hm, hrm]

theorem decode_packTransfer_shifted (hm : AdmittedMode p w rn rd) {sh : Byte} (hsh : sh ≠ 0#8) (rm : Reg) :
    decode (packTransfer c true p u false w l rn rd (regOffset sh rm)) = .shiftedRegisterTransfer c p u w l rn rd sh rm := by
  simp [decode_packTransfer_admitted c true u l _ hm, hsh]

theorem decode_packTransfer_pcOffset (hm : AdmittedMode p w rn rd) :
    decode (packTransfer c true p u false w l rn rd (regOffset 0#8 pcReg)) = .pcOffsetRegister c p u w l rn rd := by
  simp [decode_packTransfer_admitted c true u l _ hm]

end Transfer

/-- Settles O4: each row's word is a packing of its fields, and decodes to the row. -/
theorem decodeOfEncodeIsTheInstruction : Obligations.DecodeOfEncodeIsTheInstruction := by
  intro i h
  cases i with
  | andImm c sf rn rd rot imm8 | eorImm c sf rn rd rot imm8 | subImm c sf rn rd rot imm8 | rsbImm c sf rn rd rot imm8
  | addImm c sf rn rd rot imm8 | adcImm c sf rn rd rot imm8 | sbcImm c sf rn rd rot imm8 | rscImm c sf rn rd rot imm8
  | tstImm c sf rn rd rot imm8 | teqImm c sf rn rd rot imm8 | cmpImm c sf rn rd rot imm8 | cmnImm c sf rn rd rot imm8
  | orrImm c sf rn rd rot imm8 | movImm c sf rn rd rot imm8 | bicImm c sf rn rd rot imm8 | mvnImm c sf rn rd rot imm8 =>
    exact decode_packAluImm c _ sf rn rd rot imm8
  | andReg c sf rn rd rm | eorReg c sf rn rd rm | subReg c sf rn rd rm | rsbReg c sf rn rd rm
  | addReg c sf rn rd rm | adcReg c sf rn rd rm | sbcReg c sf rn rd rm | rscReg c sf rn rd rm
  | tstReg c sf rn rd rm | teqReg c sf rn rd rm | cmpReg c sf rn rd rm | cmnReg c sf rn rd rm
  | orrReg c sf rn rd rm | movReg c sf rn rd rm | bicReg c sf rn rd rm | mvnReg c sf rn rd rm =>
    exact decode_packAluReg_unshifted c _ sf rn rd rm
  | ldrImm c p u w rn rd off12 => exact decode_packTransfer_imm c u true off12 (of_decide_eq_true h)
  | strImm c p u w rn rd off12 => exact decode_packTransfer_imm c u false off12 (of_decide_eq_true h)
  | ldrReg c p u w rn rd rm =>
    obtain ⟨hm, hrm⟩ := of_decide_eq_true h
    exact decode_packTransfer_reg c u true hm hrm
  | strReg c p u w rn rd rm =>
    obtain ⟨hm, hrm⟩ := of_decide_eq_true h
    exact decode_packTransfer_reg c u false hm hrm
  | b c imm24 => exact decode_packBranch c false imm24
  | bl c imm24 => exact decode_packBranch c true imm24
  | swi c comment => exact decode_packInterrupt_swi c comment
  | shiftedRegisterAlu c op sf rn rd sh rm => exact decode_packAluReg_shifted c op sf rn rd rm (of_decide_eq_true h)
  | byteTransfer c i p u w l rn rd off12 => exact decode_packTransfer_byte c i u l off12 p w rn rd
  | translatedTransfer c i u l rn rd off12 => exact decode_packTransfer_translated c i u l off12 rn rd
  | writebackConflict c i p u w l rn rd off12 =>
    obtain ⟨ht, hc⟩ := of_decide_eq_true h
    exact decode_packTransfer_conflict c i u l off12 ht hc
  | shiftedRegisterTransfer c p u w l rn rd sh rm =>
    obtain ⟨hm, hsh⟩ := of_decide_eq_true h
    exact decode_packTransfer_shifted c u l hm hsh rm
  | pcOffsetRegister c p u w l rn rd => exact decode_packTransfer_pcOffset c u l (of_decide_eq_true h)
  | blockTransfer c rest => exact decode_packBlock c rest
  | coprocessor c sub rest => exact decode_packInterrupt_coprocessor c rest (of_decide_eq_true h)

/-! ### Every word is the word of a well-formed instruction (30_encoding R82, R85) -/

/-- An offset field is its shift field and Rm (30_encoding R78). -/
theorem regOffset_extract (off12 : BitVec 12) : regOffset (off12.extractLsb' 4 8) (off12.extractLsb' 0 4) = off12 := by
  apply BitVec.eq_of_getLsbD_eq
  intro k hk
  simp only [regOffset]
  interval_cases k <;> simp

theorem exists_encode_eq_packAluReg (c : Cond) (op : AluOp) (sf : Bool) (rn rd : Reg) (sh : Byte) (rm : Reg) :
    ∃ i : Instr, i.WellFormed ∧ encode i = packAluReg c op sf rn rd sh rm := by
  by_cases hsh : sh = 0#8
  · subst hsh
    exact ⟨aluRegOf op c sf rn rd rm, wellFormed_aluRegOf .., encode_aluRegOf ..⟩
  · exact ⟨.shiftedRegisterAlu c op sf rn rd sh rm, decide_eq_true hsh, rfl⟩

/-- The word transfers with a register offset, in an admitted mode. -/
theorem exists_encode_eq_packTransfer_reg (c : Cond) (p u w l : Bool) (rn rd : Reg) (sh : Byte) (rm : Reg)
    (hm : AdmittedMode p w rn rd) :
    ∃ i : Instr, i.WellFormed ∧ encode i = packTransfer c true p u false w l rn rd (regOffset sh rm) := by
  by_cases hsh : sh = 0#8
  · subst hsh
    by_cases hrm : rm = pcReg
    · subst hrm
      exact ⟨.pcOffsetRegister c p u w l rn rd, decide_eq_true hm, rfl⟩
    · cases l with
      | true => exact ⟨.ldrReg c p u w rn rd rm, decide_eq_true ⟨hm, hrm⟩, rfl⟩
      | false => exact ⟨.strReg c p u w rn rd rm, decide_eq_true ⟨hm, hrm⟩, rfl⟩
  · exact ⟨.shiftedRegisterTransfer c p u w l rn rd sh rm, decide_eq_true ⟨hm, hsh⟩, rfl⟩

/-- Each space of R85 in turn, then LDR and STR. -/
theorem exists_encode_eq_packTransfer (c : Cond) (i p u b w l : Bool) (rn rd : Reg) (off12 : BitVec 12) :
    ∃ j : Instr, j.WellFormed ∧ encode j = packTransfer c i p u b w l rn rd off12 := by
  cases b with
  | true => exact ⟨.byteTransfer c i p u w l rn rd off12, rfl, rfl⟩
  | false =>
    by_cases ht : Translated p w
    · obtain ⟨rfl, rfl⟩ := ht
      exact ⟨.translatedTransfer c i u l rn rd off12, rfl, rfl⟩
    by_cases hc : Conflicts p w rn rd
    · exact ⟨.writebackConflict c i p u w l rn rd off12, decide_eq_true ⟨ht, hc⟩, rfl⟩
    cases i with
    | true =>
      rw [← regOffset_extract off12]
      exact exists_encode_eq_packTransfer_reg c p u w l rn rd _ _ ⟨ht, hc⟩
    | false =>
      cases l with
      | true => exact ⟨.ldrImm c p u w rn rd off12, decide_eq_true ⟨ht, hc⟩, rfl⟩
      | false => exact ⟨.strImm c p u w rn rd off12, decide_eq_true ⟨ht, hc⟩, rfl⟩

theorem exists_encode_eq_packBranch (c : Cond) (l : Bool) (imm24 : BitVec 24) :
    ∃ i : Instr, i.WellFormed ∧ encode i = packBranch c l imm24 := by
  cases l with
  | true => exact ⟨.bl c imm24, rfl, rfl⟩
  | false => exact ⟨.b c imm24, rfl, rfl⟩

theorem exists_encode_eq_packInterrupt (c : Cond) (sub : BitVec 2) (rest : BitVec 24) :
    ∃ i : Instr, i.WellFormed ∧ encode i = packInterrupt c sub rest := by
  by_cases hsub : sub = 0b11#2
  · subst hsub
    exact ⟨.swi c rest, rfl, rfl⟩
  · exact ⟨.coprocessor c sub rest, decide_eq_true hsub, rfl⟩

/-- Every word is the packing of its fields in the format its category bits and bit 25 choose. -/
theorem exists_encode_eq (w : Word) : ∃ i : Instr, i.WellFormed ∧ encode i = w := by
  cases h27 : bitOf w 27 <;> cases h26 : bitOf w 26
  · cases h25 : bitOf w 25 with
    | true =>
      rw [← packAluImm_fields w h27 h26 h25]
      exact ⟨aluImmOf .., wellFormed_aluImmOf .., encode_aluImmOf ..⟩
    | false =>
      rw [← packAluReg_fields w h27 h26 h25]
      exact exists_encode_eq_packAluReg ..
  · rw [← packTransfer_fields w h27 h26]
    exact exists_encode_eq_packTransfer ..
  · cases h25 : bitOf w 25 with
    | true =>
      rw [← packBranch_fields w h27 h26 h25]
      exact exists_encode_eq_packBranch ..
    | false =>
      rw [← packBlock_fields w h27 h26 h25]
      exact ⟨.blockTransfer _ _, rfl, rfl⟩
  · rw [← packInterrupt_fields w h27 h26]
    exact exists_encode_eq_packInterrupt ..

/-- Settles O3: the word is the word of a well-formed instruction, which is the one it decodes to. -/
theorem encodeOfDecodeIsTheWord : Obligations.EncodeOfDecodeIsTheWord := by
  intro w
  obtain ⟨i, hi, rfl⟩ := exists_encode_eq w
  rw [decodeOfEncodeIsTheInstruction i hi]

/-- Settles O5: the word is the word of a well-formed instruction, which is the one it decodes to. -/
theorem decodedInstructionsAreWellFormed : Obligations.DecodedInstructionsAreWellFormed := by
  intro w
  obtain ⟨i, hi, rfl⟩ := exists_encode_eq w
  rwa [decodeOfEncodeIsTheInstruction i hi]

/-! ### The Unsupported spaces (30_encoding R85) -/

/-- A word whose condition holds, and that is the word of an instruction of an Unsupported row, ends the run with the row's reason. -/
theorem exec_decode_of_unsupported {s : State} {v w : Word} {i : Instr} {r : UnsupportedReason}
    (hc : condHolds (Cond.ofCode (fieldOf w 28 4)) s.status = true) (hw : v = w) (hd : decode v = i)
    (hx : executed i s = s.raiseUnsupported r) : exec (decode w) s = .next (s.raiseUnsupported r) := by
  rw [exec_of_holds (by rwa [cond_decode]), ← hw, hd, hx]

/-- A transfer word with B = 0 is the packing of its fields with that bit written out. -/
theorem packTransfer_fields_of_not_byte {w : Word} (hcat : w.extractLsb' 26 2 = 0b01#2) (hb : bitOf w 22 = false) :
    packTransfer (Cond.ofCode (fieldOf w 28 4)) (bitOf w 25) (bitOf w 24) (bitOf w 23) false (bitOf w 21) (bitOf w 20)
      (fieldOf w 16 4) (fieldOf w 12 4) (fieldOf w 0 12) = w := by
  obtain ⟨h27, h26⟩ := bits_of_category hcat
  rw [← hb, packTransfer_fields w h27 h26]

/-- One with a register offset is so too, with its offset field as shift field and Rm. -/
theorem packTransfer_fields_of_reg {w : Word} (hcat : w.extractLsb' 26 2 = 0b01#2) (hb : bitOf w 22 = false) (hi : bitOf w 25 = true) :
    packTransfer (Cond.ofCode (fieldOf w 28 4)) true (bitOf w 24) (bitOf w 23) false (bitOf w 21) (bitOf w 20)
      (fieldOf w 16 4) (fieldOf w 12 4) (regOffset (fieldOf w 4 8) (fieldOf w 0 4)) = w := by
  rw [← hi, regOffset_fields, packTransfer_fields_of_not_byte hcat hb]

/-- Settles O6: a word of each space is the packing of an Unsupported row's fields. -/
theorem unsupportedWordsEndTheRun : Obligations.UnsupportedWordsEndTheRun := by
  intro w s hcond
  refine ⟨?_, ?_, ?_, ?_, ?_, ?_, ?_, ?_⟩
  · intro hcat hi hsh
    obtain ⟨h27, h26⟩ := bits_of_category hcat
    exact exec_decode_of_unsupported hcond (packAluReg_fields w h27 h26 hi) (decode_packAluReg_shifted _ _ _ _ _ _ hsh) rfl
  · intro hcat hb
    obtain ⟨h27, h26⟩ := bits_of_category hcat
    have hw := packTransfer_fields w h27 h26
    rw [show bitOf w 22 = true from hb] at hw
    exact exec_decode_of_unsupported hcond hw (decode_packTransfer_byte ..) rfl
  · rintro hcat hb ⟨hp, hwb⟩
    have hw := packTransfer_fields_of_not_byte hcat hb
    rw [show bitOf w 24 = false from hp, show bitOf w 21 = true from hwb] at hw
    exact exec_decode_of_unsupported hcond hw (decode_packTransfer_translated ..) rfl
  · intro hcat hb ht hc
    exact exec_decode_of_unsupported hcond (packTransfer_fields_of_not_byte hcat hb) (decode_packTransfer_conflict _ _ _ _ _ ht hc) rfl
  · intro hcat hb ht hc hi hsh
    exact exec_decode_of_unsupported hcond (packTransfer_fields_of_reg hcat hb hi)
      (decode_packTransfer_shifted _ _ _ ⟨ht, hc⟩ hsh _) rfl
  · intro hcat hb ht hc hi hsh hrm
    have hw := packTransfer_fields_of_reg hcat hb hi
    rw [show fieldOf w 4 8 = 0#8 from hsh, show fieldOf w 0 4 = pcReg from hrm] at hw
    exact exec_decode_of_unsupported hcond hw (decode_packTransfer_pcOffset _ _ _ ⟨ht, hc⟩) rfl
  · intro hcat hi
    obtain ⟨h27, h26⟩ := bits_of_category hcat
    exact exec_decode_of_unsupported hcond (packBlock_fields w h27 h26 hi) (decode_packBlock _ _) rfl
  · intro hcat hsub
    obtain ⟨h27, h26⟩ := bits_of_category hcat
    exact exec_decode_of_unsupported hcond (packInterrupt_fields w h27 h26) (decode_packInterrupt_coprocessor _ _ hsub) rfl

/-! ### Words of the source and of the test vectors (30_encoding R88, R89) -/

/-- Settles O1, by decoding the three words. -/
theorem exampleWordsDecode : Obligations.ExampleWordsDecode := by
  unfold Obligations.ExampleWordsDecode
  decide

/-- Settles O2, by decoding the nine words. -/
theorem familyWordsDecode : Obligations.FamilyWordsDecode := by
  unfold Obligations.FamilyWordsDecode
  decide

@[simp] theorem State.setStatus_status_self (s : State) : s.setStatus s.status = s := rfl

/-- A MOV of a register other than R15 to itself, with S = 0, only advances the pc (41_alu R153). -/
theorem executed_movReg_self (c : Cond) (rn : Reg) {rd : Reg} (h : rd ≠ pcReg) (s : State) :
    executed (.movReg c false rn rd rd) s = s.advance := by
  simp [executed, aluWrite, resMov, logical, h, State.opnd, State.advance]

/-- Settles O59: the word is MOV R0, R0 under AL. -/
theorem movR0R0OnlyAdvances : Obligations.MovR0R0OnlyAdvances := by
  intro s
  have hd : decode 0xE1A00000#32 = .movReg .al false 0#4 0#4 0#4 := by decide
  rw [hd, exec_of_holds rfl, executed_movReg_self .al 0#4 (by decide)]
  rfl

end Sys2Proof.Machine
end

section
/-! SUPPORT. The condition evaluator (40_condition). Every code is the code of a condition, so a statement over the 16 codes is one case per
condition; and a skipped instruction leaves everything but the pc. -/

namespace Sys2Proof.Machine

/-- All 16 codes are codes of a condition (40_condition R100). -/
theorem cond_code_surjective : Function.Surjective Cond.code := fun b => ⟨Cond.ofCode b, Cond.code_ofCode b⟩

/-- NV never holds (40_condition R116). -/
@[simp] theorem condHolds_nv (st : Byte) : condHolds .nv st = false := rfl

/-- What a skipped instruction changes: the pc, and nothing else (45_driver R203). -/
theorem State.advance_frame (s : State) : s.advance.pc = s.pc + 4#32 ∧ SameRegs [] s s.advance ∧ SameStatus s s.advance ∧
    s.advance.dmem = s.dmem ∧ SameDriver s s.advance :=
  ⟨s.pc_advance, fun j hpc _ => s.readReg_advance_of_ne j hpc, ⟨rfl, rfl⟩, rfl, rfl, rfl, rfl⟩

/-- Settles O11: the word's condition is NV, whatever row it decodes to, so the step skips it. -/
theorem nvWordsNeverExecute : Obligations.NvWordsNeverExecute := by
  intro s w hr ha hw hnv
  have hcond : (decode w).cond = .nv := by rw [cond_decode, fieldOf, hnv]; rfl
  have hskip : condHolds (decode w).cond s.status = false := by rw [hcond, condHolds_nv]
  exact ⟨s.advance, (step_word hr ha hw).trans (exec_of_not_holds hskip), s.advance_frame⟩

/-- Settles O8, one condition at a time: its code picks its row of the table. -/
theorem conditionTable : Obligations.ConditionTable := by
  intro b st
  obtain ⟨c, rfl⟩ := cond_code_surjective b
  simp only [Cond.ofCode_code]
  cases c <;> simp [condHolds, flagIsSet, Flag.bit, Cond.code]

/-- Settles O9, one condition at a time: flipping bit 0 of its code gives the code of the other condition of its pair. -/
theorem conditionPairsAreNegations : Obligations.ConditionPairsAreNegations := by
  intro b st
  obtain ⟨c, rfl⟩ := cond_code_surjective b
  rw [Cond.ofCode_code]
  cases c with
  | eq | cs | mi | vs | ge | al | nv => rfl
  | ne | cc | pl | vc | lt => exact (Bool.not_not _).symm
  | hi | ls | gt | le => simp [condHolds, Cond.ofCode, Cond.code, bne]

end Sys2Proof.Machine
end

section
/-! SUPPORT. The ALU (41_alu R140 to R155). The 32 rows are one opcode in one form of operand 2, so what an executing row leaves is said
once: its result by opcode, and whether Rd is written. What is left for each rule is its result and its flags. -/

namespace Sys2Proof.Machine

variable {op : AluOp} {c : Cond} {sf : Bool} {rn rd : Reg} {y res : Word} {flags : State → State → Prop} {i : Instr} {s : State}

/-! ### An ALU row by its opcode (30_encoding R73 to R76) -/

/-- The result of an opcode on its operands and the carry in (41_alu R140 to R155). -/
def aluResult (op : AluOp) (x y : Word) (cin : Bool) : AluResult :=
  match op with
  | .and => resAnd x y
  | .eor => resEor x y
  | .sub => resSub x y
  | .rsb => resRsb x y
  | .add => resAdd x y
  | .adc => resAdc x y cin
  | .sbc => resSbc x y cin
  | .rsc => resRsc x y cin
  | .tst => resTst x y
  | .teq => resTeq x y
  | .cmp => resCmp x y
  | .cmn => resCmn x y
  | .orr => resOrr x y
  | .mov => resMov y
  | .bic => resBic x y
  | .mvn => resMvn y

/-- The opcodes that write no register: TST, TEQ, CMP and CMN (41_alu R121). -/
def isTest : AluOp → Bool
  | .tst | .teq | .cmp | .cmn => true
  | _ => false

/-- What the rows of an opcode do with their result. -/
def aluEffect (op : AluOp) (sf : Bool) (rd : Reg) (r : AluResult) (s : State) : State :=
  if isTest op then aluTest sf r s else aluWrite sf rd r s

theorem executed_aluImmOf (op : AluOp) (c : Cond) (sf : Bool) (rn rd : Reg) (rot : BitVec 4) (imm8 : Byte) (s : State) :
    executed (aluImmOf op c sf rn rd rot imm8) s =
      aluEffect op sf rd (aluResult op (s.opnd rn) (immOperand rot imm8) s.carryIn) s := by
  cases op <;> rfl

theorem executed_aluRegOf (op : AluOp) (c : Cond) (sf : Bool) (rn rd rm : Reg) (s : State) :
    executed (aluRegOf op c sf rn rd rm) s = aluEffect op sf rd (aluResult op (s.opnd rn) (s.opnd rm) s.carryIn) s := by
  cases op <;> rfl

@[simp] theorem cond_aluImmOf (op : AluOp) (c : Cond) (sf : Bool) (rn rd : Reg) (rot : BitVec 4) (imm8 : Byte) :
    (aluImmOf op c sf rn rd rot imm8).cond = c := by
  cases op <;> rfl

@[simp] theorem cond_aluRegOf (op : AluOp) (c : Cond) (sf : Bool) (rn rd rm : Reg) : (aluRegOf op c sf rn rd rm).cond = c := by
  cases op <;> rfl

/-- `i` is a row of `op` with these fields whose operand 2 is `y` in state `s`, in its immediate or its register form. -/
def IsAluBy (op : AluOp) (c : Cond) (sf : Bool) (rn rd : Reg) (y : Word) (i : Instr) (s : State) : Prop :=
  (∃ rot imm8, i = aluImmOf op c sf rn rd rot imm8 ∧ y = immOperand rot imm8) ∨
    (∃ rm, i = aluRegOf op c sf rn rd rm ∧ y = s.opnd rm)

/-- Both forms of an opcode do the same with their operand 2. -/
theorem IsAluBy.exec_eq (h : IsAluBy op c sf rn rd y i s) (hc : condHolds c s.status = true) :
    exec i s = .next (aluEffect op sf rd (aluResult op (s.opnd rn) y s.carryIn) s) := by
  rcases h with ⟨rot, imm8, rfl, rfl⟩ | ⟨rm, rfl, rfl⟩
  · rw [exec_of_holds (by rwa [cond_aluImmOf]), executed_aluImmOf]
  · rw [exec_of_holds (by rwa [cond_aluRegOf]), executed_aluRegOf]

/-! ### The value and the flags of a result (41_alu R122, R123, R125) -/

/-- The result's word is `res`, and the status it leaves with S = 1 has the flags `flags`. -/
def AluResult.Gives (r : AluResult) (res : Word) (flags : State → State → Prop) : Prop :=
  r.res = res ∧ ∀ s t : State, t.status = r.statusAfter s.status → flags s t

theorem gives_logical (res : Word) : (logical res).Gives res (LogicalFlags res) :=
  ⟨rfl, fun _ _ => logicalFlags_of_status⟩

/-- x + y + c. -/
theorem gives_addWithCarry (x y : Word) (c : Bool) : (addWithCarry x y c).Gives (x + y + BitVec.ofNat 32 c.toNat)
    (ArithFlags (x + y + BitVec.ofNat 32 c.toNat) (2 ^ 32 ≤ x.toNat + y.toNat + c.toNat) (x.toInt + y.toInt + c.toNat)) :=
  ⟨res_addWithCarry x y c, fun _ _ h => res_addWithCarry x y c ▸ arithFlags_of_status (cv_addWithCarry x y c) h⟩

/-- x − y − (1 − c): the carry is NOT borrow. -/
theorem gives_addWithCarry_not (x y : Word) (c : Bool) : (addWithCarry x (~~~y) c).Gives (x - y - BitVec.ofNat 32 (1 - c.toNat))
    (ArithFlags (x - y - BitVec.ofNat 32 (1 - c.toNat)) (y.toNat + (1 - c.toNat) ≤ x.toNat)
      (x.toInt - y.toInt - (1 - c.toNat : Nat))) :=
  ⟨res_addWithCarry_not x y c, fun _ _ h => res_addWithCarry_not x y c ▸ arithFlags_of_status (cv_addWithCarry_not x y c) h⟩

/-- A sum without carry in. -/
theorem gives_sum (x y : Word) : (addWithCarry x y false).Gives (x + y)
    (ArithFlags (x + y) (2 ^ 32 ≤ x.toNat + y.toNat) (x.toInt + y.toInt)) := by
  simpa using gives_addWithCarry x y false

/-- A difference without borrow in. -/
theorem gives_difference (x y : Word) : (addWithCarry x (~~~y) true).Gives (x - y)
    (ArithFlags (x - y) (y.toNat ≤ x.toNat) (x.toInt - y.toInt)) := by
  simpa using gives_addWithCarry_not x y true

/-! ### What an executing row leaves (41_alu R121, R124, R126) -/

theorem IsAluBy.exec_writesRd (h : IsAluBy op c sf rn rd y i s) (hop : isTest op = false) (hc : condHolds c s.status = true)
    (hr : (aluResult op (s.opnd rn) y s.carryIn).Gives res flags) : ∃ t, exec i s = .next t ∧ WritesRd sf rd res flags s t := by
  obtain ⟨rfl, hflags⟩ := hr
  refine ⟨_, h.exec_eq hc, ?_⟩
  rw [aluEffect, hop]
  exact (aluWrite_writesRd sf rd _ s).mono (hflags s _)

theorem IsAluBy.exec_writesFlagsOnly (h : IsAluBy op c sf rn rd y i s) (hop : isTest op = true)
    (hc : condHolds c s.status = true) (hr : (aluResult op (s.opnd rn) y s.carryIn).Gives res flags) :
    ∃ t, exec i s = .next t ∧ WritesFlagsOnly sf flags s t := by
  refine ⟨_, h.exec_eq hc, ?_⟩
  rw [aluEffect, hop]
  exact (aluTest_writesFlagsOnly sf _ s).mono (hr.2 s _)

/-- A test or compare with S = 0 only advances the pc, whatever its result (41_alu R126). -/
theorem IsAluBy.exec_test_without_update (h : IsAluBy op c false rn rd y i s) (hop : isTest op = true)
    (hc : condHolds c s.status = true) : exec i s = .next s.advance := by
  rw [h.exec_eq hc, aluEffect, hop]
  rfl

end Sys2Proof.Machine
end

section
/-! SUPPORT. The statements of 41_alu, each by the value and the flags of its rule's result. -/

namespace Sys2Proof.Machine

/-! ### Logical results (41_alu R140, R141, R152 to R155) -/

/-- Settles O12: op1 AND op2 is a logical result (R140). -/
theorem andResult : Obligations.AndResult := fun _ _ _ _ _ _ _ hi hc =>
  IsAluBy.exec_writesRd (op := .and) hi rfl hc (gives_logical _)

/-- Settles O13: op1 XOR op2 is a logical result (R141). -/
theorem eorResult : Obligations.EorResult := fun _ _ _ _ _ _ _ hi hc =>
  IsAluBy.exec_writesRd (op := .eor) hi rfl hc (gives_logical _)

/-- Settles O24: op1 OR op2 is a logical result (R152). -/
theorem orrResult : Obligations.OrrResult := fun _ _ _ _ _ _ _ hi hc =>
  IsAluBy.exec_writesRd (op := .orr) hi rfl hc (gives_logical _)

/-- Settles O25: operand 2 itself is a logical result (R153). -/
theorem movResult : Obligations.MovResult := fun _ _ _ _ _ _ _ hi hc =>
  IsAluBy.exec_writesRd (op := .mov) hi rfl hc (gives_logical _)

/-- Settles O26: op1 AND NOT op2 is a logical result (R154). -/
theorem bicResult : Obligations.BicResult := fun _ _ _ _ _ _ _ hi hc =>
  IsAluBy.exec_writesRd (op := .bic) hi rfl hc (gives_logical _)

/-- Settles O27: NOT op2 is a logical result (R155). -/
theorem mvnResult : Obligations.MvnResult := fun _ _ _ _ _ _ _ hi hc =>
  IsAluBy.exec_writesRd (op := .mvn) hi rfl hc (gives_logical _)

/-! ### Arithmetic results (41_alu R142 to R147) -/

/-- Settles O14: op1 − op2 is a difference without borrow in (R142). -/
theorem subResult : Obligations.SubResult := fun _ _ _ _ _ _ _ hi hc =>
  IsAluBy.exec_writesRd (op := .sub) hi rfl hc (gives_difference _ _)

/-- Settles O15: op2 − op1 is a difference without borrow in (R143). -/
theorem rsbResult : Obligations.RsbResult := fun _ _ _ _ _ _ _ hi hc =>
  IsAluBy.exec_writesRd (op := .rsb) hi rfl hc (gives_difference _ _)

/-- Settles O16: op1 + op2 is a sum without carry in (R144). -/
theorem addResult : Obligations.AddResult := fun _ _ _ _ _ _ _ hi hc =>
  IsAluBy.exec_writesRd (op := .add) hi rfl hc (gives_sum _ _)

/-- Settles O17: op1 + op2 + C is a sum with the carry in (R145). -/
theorem adcResult : Obligations.AdcResult := by
  intro c sf rn rd y k i s hi hk hc
  obtain rfl : k = s.carryIn.toNat := hk.trans s.carryIn_toNat.symm
  exact IsAluBy.exec_writesRd (op := .adc) hi rfl hc (gives_addWithCarry _ _ _)

/-- Settles O18: op1 − op2 − (1 − C) is a difference with borrow in (R146). -/
theorem sbcResult : Obligations.SbcResult := by
  intro c sf rn rd y k i s hi hk hc
  obtain rfl : k = s.carryIn.toNat := hk.trans s.carryIn_toNat.symm
  exact IsAluBy.exec_writesRd (op := .sbc) hi rfl hc (gives_addWithCarry_not _ _ _)

/-- Settles O19: op2 − op1 − (1 − C) is a difference with borrow in (R147). -/
theorem rscResult : Obligations.RscResult := by
  intro c sf rn rd y k i s hi hk hc
  obtain rfl : k = s.carryIn.toNat := hk.trans s.carryIn_toNat.symm
  exact IsAluBy.exec_writesRd (op := .rsc) hi rfl hc (gives_addWithCarry_not _ _ _)

/-! ### Tests and compares (41_alu R126, R148 to R151) -/

/-- Settles O20: the flags of the logical result op1 AND op2 (R148). -/
theorem tstResult : Obligations.TstResult := fun _ _ _ _ _ _ _ hi hc =>
  IsAluBy.exec_writesFlagsOnly (op := .tst) hi rfl hc (gives_logical _)

/-- Settles O21: the flags of the logical result op1 XOR op2 (R149). -/
theorem teqResult : Obligations.TeqResult := fun _ _ _ _ _ _ _ hi hc =>
  IsAluBy.exec_writesFlagsOnly (op := .teq) hi rfl hc (gives_logical _)

/-- Settles O22: the flags of the difference op1 − op2 (R150). -/
theorem cmpResult : Obligations.CmpResult := fun _ _ _ _ _ _ _ hi hc =>
  IsAluBy.exec_writesFlagsOnly (op := .cmp) hi rfl hc (gives_difference _ _)

/-- Settles O23: the flags of the sum op1 + op2 (R151). -/
theorem cmnResult : Obligations.CmnResult := fun _ _ _ _ _ _ _ hi hc =>
  IsAluBy.exec_writesFlagsOnly (op := .cmn) hi rfl hc (gives_sum _ _)

/-- Settles O28: each of the eight rows is a test or compare in one of its forms. -/
theorem testsWithoutUpdateOnlyAdvance : Obligations.TestsWithoutUpdateOnlyAdvance := by
  intro c rn rd rm rot imm8 i s hi hc
  obtain ⟨op, y, hop, h⟩ : ∃ op y, isTest op = true ∧ IsAluBy op c false rn rd y i s := by
    rcases hi with h | h | h | h | h | h | h | h
    · exact ⟨.tst, _, rfl, .inl ⟨rot, imm8, h, rfl⟩⟩
    · exact ⟨.tst, _, rfl, .inr ⟨rm, h, rfl⟩⟩
    · exact ⟨.teq, _, rfl, .inl ⟨rot, imm8, h, rfl⟩⟩
    · exact ⟨.teq, _, rfl, .inr ⟨rm, h, rfl⟩⟩
    · exact ⟨.cmp, _, rfl, .inl ⟨rot, imm8, h, rfl⟩⟩
    · exact ⟨.cmp, _, rfl, .inr ⟨rm, h, rfl⟩⟩
    · exact ⟨.cmn, _, rfl, .inl ⟨rot, imm8, h, rfl⟩⟩
    · exact ⟨.cmn, _, rfl, .inr ⟨rm, h, rfl⟩⟩
  exact h.exec_test_without_update hop hc

end Sys2Proof.Machine
end

section
/-! SUPPORT. The branches (42_branch R160 to R162). Where a branch goes is said once, from the signed offset; B then moves the pc there, and
BL does so after it has written R14. -/

namespace Sys2Proof.Machine

/-! ### The target (42_branch R162) -/

theorem State.branchTarget_eq (s : State) (imm24 : BitVec 24) :
    s.branchTarget imm24 = s.pc + 8#32 + BitVec.ofInt 32 (4 * imm24.toInt) := by
  rw [State.branchTarget, branchOffset_eq]

/-- A branch from an aligned address goes to an aligned one. -/
theorem State.aligned_branchTarget {s : State} (imm24 : BitVec 24) (ha : s.pc.toNat % 4 = 0) :
    (s.branchTarget imm24).toNat % 4 = 0 :=
  s.branchTarget_eq imm24 ▸ aligned_branch _ ha

/-- Offset −2 undoes the pipeline's 8: the branch goes to itself (42_branch R160). -/
theorem State.branchTarget_neg_two (s : State) : s.branchTarget 0xFFFFFE#24 = s.pc := by
  have hoff : 8#32 + branchOffset 0xFFFFFE#24 = 0#32 := by decide
  rw [State.branchTarget, BitVec.add_assoc, hoff, BitVec.add_zero]

/-- Offset −1 goes to the next word (42_branch R160). -/
theorem State.branchTarget_neg_one (s : State) : s.branchTarget 0xFFFFFF#24 = s.pc + 4#32 := by
  have hoff : 8#32 + branchOffset 0xFFFFFF#24 = 4#32 := by decide
  rw [State.branchTarget, BitVec.add_assoc, hoff]

/-- A machine sent to a target at or beyond the loaded words by a branch from an aligned address halts next (45_driver R201). `t` is the
state that branches, possibly with registers written since `s`. -/
theorem step_setPc_branchTarget_exhausted {s t : State} {imm24 : BitVec 24} (hr : t.runState = .running) (ha : s.pc.toNat % 4 = 0)
    (hcount : t.count ≤ (s.branchTarget imm24).toNat / 4) :
    step (t.setPc (s.branchTarget imm24)) = .next (t.setPc (s.branchTarget imm24)).halt :=
  step_exhausted hr (by rw [State.pc_setPc]; exact s.aligned_branchTarget imm24 ha) (by rwa [State.pc_setPc])

/-! ### The two statements -/

/-- Settles O30: B only moves the pc, to the target. -/
theorem branchResult : Obligations.BranchResult := by
  intro c imm24 s hc
  refine ⟨s.setPc (s.branchTarget imm24), exec_of_holds hc, ?_⟩
  rw [State.pc_setPc, ← s.branchTarget_eq imm24]
  refine ⟨rfl, (executed_effect (.b c imm24) s).sameRegs, ⟨rfl, rfl⟩, rfl, ⟨rfl, rfl, rfl⟩, s.aligned_branchTarget imm24,
    step_setPc_branchTarget_exhausted, ?_, ?_⟩
  · rintro rfl
    exact s.branchTarget_neg_two
  · rintro rfl
    exact s.branchTarget_neg_one

/-- Settles O31: BL writes R14, wherever the target lies, and then moves the pc to the target. -/
theorem branchWithLinkResult : Obligations.BranchWithLinkResult := by
  intro c imm24 s hc
  refine ⟨(s.writeReg lrReg (s.pc + 4#32)).setPc (s.branchTarget imm24), exec_of_holds hc, ?_⟩
  rw [State.pc_setPc, ← s.branchTarget_eq imm24]
  have hlr : ((s.writeReg lrReg (s.pc + 4#32)).setPc (s.branchTarget imm24)).readReg lrReg = s.pc + 4#32 := by simp
  exact ⟨hlr, rfl, (executed_effect (.bl c imm24) s).sameRegs, ⟨rfl, rfl⟩, rfl, ⟨rfl, rfl, rfl⟩,
    step_setPc_branchTarget_exhausted (t := s.writeReg lrReg (s.pc + 4#32))⟩

end Sys2Proof.Machine
end

section
/-! SUPPORT. LDR and STR that complete (43_transfer R170 to R175). Both forms of a transfer are one instruction over its offset form; in an
admitted mode, at an address that is aligned and in range, each answers its access. -/

namespace Sys2Proof.Machine

variable {c : Cond} {p u w : Bool} {rn rd : Reg} {off : Word} {o : OffsetForm} {i : Instr} {s : State}

/-! ### One instruction per offset form (30_encoding R78) -/

/-- LDR with these fields and this offset. -/
def ldrOf (c : Cond) (p u w : Bool) (rn rd : Reg) : OffsetForm → Instr
  | .imm off12 => .ldrImm c p u w rn rd off12
  | .reg rm => .ldrReg c p u w rn rd rm

/-- STR with these fields and this offset. -/
def strOf (c : Cond) (p u w : Bool) (rn rd : Reg) : OffsetForm → Instr
  | .imm off12 => .strImm c p u w rn rd off12
  | .reg rm => .strReg c p u w rn rd rm

/-- An instruction in one of the two forms has an offset form, not R15, of the offset's value. -/
theorem exists_offsetForm {mk : OffsetForm → Instr} (h : (∃ off12, i = mk (.imm off12) ∧ off = off12.setWidth 32) ∨
    (∃ rm, rm ≠ pcReg ∧ i = mk (.reg rm) ∧ off = s.readReg rm)) : ∃ o, o ≠ .reg pcReg ∧ i = mk o ∧ off = o.value s := by
  rcases h with ⟨off12, hi, hoff⟩ | ⟨rm, hrm, hi, hoff⟩
  · exact ⟨.imm off12, by simp, hi, hoff⟩
  · exact ⟨.reg rm, by simpa using hrm, hi, hoff⟩

@[simp] theorem cond_ldrOf (c : Cond) (p u w : Bool) (rn rd : Reg) (o : OffsetForm) : (ldrOf c p u w rn rd o).cond = c := by
  cases o <;> rfl

@[simp] theorem cond_strOf (c : Cond) (p u w : Bool) (rn rd : Reg) (o : OffsetForm) : (strOf c p u w rn rd o).cond = c := by
  cases o <;> rfl

theorem executed_ldrOf (c : Cond) (p u w : Bool) (rn rd : Reg) (o : OffsetForm) (s : State) :
    executed (ldrOf c p u w rn rd o) s = transfer p u w rn rd o (loadAccess p u w rn rd o s) s := by
  cases o <;> rfl

theorem executed_strOf (c : Cond) (p u w : Bool) (rn rd : Reg) (o : OffsetForm) (s : State) :
    executed (strOf c p u w rn rd o) s = transfer p u w rn rd o (storeAccess p u w rn rd o s) s := by
  cases o <;> rfl

/-! ### A transfer that passes its checks (43_transfer R170) -/

section
variable (hc : condHolds c s.status = true) (hm : AdmittedMode p w rn rd) (ho : o ≠ .reg pcReg)
  (ha : (accessAddress p u rn o s).toNat % 4 = 0) (hr : (accessAddress p u rn o s).toNat + 4 ≤ s.cfg.dataMemBytes)
include hc hm ho ha hr

theorem exec_ldrOf : exec (ldrOf c p u w rn rd o) s = .next (loadAccess p u w rn rd o s) := by
  rw [exec_of_holds (by rwa [cond_ldrOf]), executed_ldrOf, transfer_of_ok hm ho ha hr]

theorem exec_strOf : exec (strOf c p u w rn rd o) s = .next (storeAccess p u w rn rd o s) := by
  rw [exec_of_holds (by rwa [cond_strOf]), executed_strOf, transfer_of_ok hm ho ha hr]

end

/-- An admitted mode that writes the base back has a base other than R15 (43_transfer R170). -/
theorem base_ne_pc_of_writesBack (hm : AdmittedMode p w rn rd) (hw : WritesBack p w) : rn ≠ pcReg := by
  obtain ⟨-, hconflict⟩ := hm
  exact fun hpc => hconflict ⟨hw, .inl hpc⟩

/-- The pc and the base register a store leaves. -/
theorem storeAccess_result (u : Bool) (o : OffsetForm) (s : State) (hm : AdmittedMode p w rn rd) :
    (storeAccess p u w rn rd o s).pc = s.pc + 4#32 ∧
      (WritesBack p w → (storeAccess p u w rn rd o s).readReg rn = offsetAddress u rn o s) := by
  refine ⟨State.pc_setPc _ _, fun hw => ?_⟩
  simp [storeAccess, base_ne_pc_of_writesBack hm hw, State.readReg_writeBack, writesBack_iff, hw]

/-! ### The two statements -/

/-- Settles O32: the transfer answers its load, which writes Rd or the pc, and the base. -/
theorem loadWordResult : Obligations.LoadWordResult := by
  intro c p u w rn rd off moved addr i s hi hm hmoved haddr hc ha hr
  obtain ⟨o, ho, rfl, rfl⟩ := exists_offsetForm (mk := ldrOf c p u w rn rd) hi
  obtain rfl : moved = offsetAddress u rn o s := hmoved
  obtain rfl : addr = accessAddress p u rn o s := haddr
  obtain ⟨hword, hpc, hbase⟩ := loadAccess_result u o s hm
  have hregs := loadAccess_regs p u w rn rd o s
  obtain ⟨hcfg, hstore, hmem, hrun, hsaved, hstatus⟩ := loadAccess_kept p u w rn rd o s
  simp only [writesBack_iff] at hregs
  exact ⟨_, _, exec_ldrOf hc hm ho ha hr, Memory.byteOfWord_readWord s.dmem _, hword, hpc, hbase, hregs, ⟨hstatus, hsaved⟩,
    fun a => by rw [hmem], hcfg, hstore, hrun⟩

/-- Settles O33: the transfer answers its store, which writes the word at the address, and the base. -/
theorem storeWordResult : Obligations.StoreWordResult := by
  intro c p u w rn rd off moved addr i s hi hm hmoved haddr hc ha hr hwf
  obtain ⟨o, ho, rfl, rfl⟩ := exists_offsetForm (mk := strOf c p u w rn rd) hi
  obtain rfl : moved = offsetAddress u rn o s := hmoved
  obtain rfl : addr = accessAddress p u rn o s := haddr
  obtain ⟨hpc, hbase⟩ := storeAccess_result u o s hm
  have hregs := storeAccess_regs p u w rn rd o s
  obtain ⟨hcfg, hstore, hrun, hsaved, hstatus⟩ := storeAccess_kept p u w rn rd o s
  simp only [writesBack_iff] at hregs
  refine ⟨_, exec_strOf hc hm ho ha hr, ?_⟩
  rw [storeAccess_dmem]
  exact ⟨fun k => Memory.readByte_writeWord_inside hwf _ _, fun a => Memory.readByte_writeWord_outside hwf _ a _,
    Memory.wf_writeWord hwf _ _, hpc, hbase, hregs, ⟨hstatus, hsaved⟩, hcfg, hstore, hrun⟩

end Sys2Proof.Machine
end

section
/-! SUPPORT. The software interrupt (44_interrupt R190, R192) and its return (41_alu R124). What each leaves is said once, by its field;
the round trip is then one rewrite after the other. -/

namespace Sys2Proof.Machine

/-! ### What taking the interrupt leaves (44_interrupt R190) -/

@[simp] theorem State.savedStatus_takeInterrupt (s : State) : s.takeInterrupt.savedStatus = s.status := rfl

@[simp] theorem State.pc_takeInterrupt (s : State) : s.takeInterrupt.pc = s.cfg.intVector := State.pc_setPc _ _

/-- R14 gets the return address, and the move of the pc after it leaves R14. -/
@[simp] theorem State.readReg_lrReg_takeInterrupt (s : State) : s.takeInterrupt.readReg lrReg = s.pc + 4#32 := by
  simp [State.takeInterrupt]

/-- I is set, whatever it was (44_interrupt R192). -/
theorem State.getLsbD_three_status_takeInterrupt (s : State) : s.takeInterrupt.status.getLsbD 3 = true := by
  have hmask : interruptDisable.getLsbD 3 = true := by decide
  simp [State.takeInterrupt, hmask]

theorem State.sameRegs_takeInterrupt (s : State) : SameRegs [lrReg] s s.takeInterrupt :=
  (executed_effect (.swi .al 0#24) s).sameRegs

/-- SWI ignores its comment (44_interrupt R190). -/
theorem exec_swi {c : Cond} {s : State} (hc : condHolds c s.status = true) (comment : BitVec 24) :
    exec (.swi c comment) s = .next s.takeInterrupt :=
  exec_of_holds hc

/-! ### What the return leaves (41_alu R124) -/

@[simp] theorem State.pc_returnTo (s : State) (a : Word) : (s.returnTo a).pc = a := State.pc_setPc _ a

@[simp] theorem State.status_returnTo (s : State) (a : Word) : (s.returnTo a).status = s.savedStatus := rfl

@[simp] theorem State.readReg_returnTo_of_ne (s : State) (a : Word) (j : Reg) (h : j ≠ pcReg) :
    (s.returnTo a).readReg j = s.readReg j :=
  State.readReg_setPc_of_ne _ a j h

/-- MOVS PC, Rm under a condition that holds is the return to `opnd(Rm)` (41_alu R124, R153). -/
theorem exec_movs_pc {c : Cond} {s : State} (hc : condHolds c s.status = true) (rn rm : Reg) :
    exec (.movReg c true rn pcReg rm) s = .next (s.returnTo (s.opnd rm)) :=
  exec_of_holds hc

/-! ### The two statements -/

/-- Settles O37: SWI takes the interrupt, and the next step then fetches at `INT_VECTOR`. -/
theorem swiEntersTheHandler : Obligations.SwiEntersTheHandler := by
  intro c comment s hc
  refine ⟨s.takeInterrupt, exec_swi hc comment, s.savedStatus_takeInterrupt, s.readReg_lrReg_takeInterrupt,
    s.getLsbD_three_status_takeInterrupt, fun n _ hn => s.getLsbD_status_takeInterrupt hn, s.pc_takeInterrupt,
    s.sameRegs_takeInterrupt, rfl, ⟨rfl, rfl, rfl⟩, fun hrun haligned hcount => ?_, fun hrun hmisaligned => ?_⟩
  · exact step_exhausted hrun (by rwa [State.pc_takeInterrupt]) (by rwa [State.pc_takeInterrupt])
  · exact step_misaligned hrun (by rwa [State.pc_takeInterrupt])

/-- Settles O39: the return goes to R14 and restores the saved status, which are what the interrupt has just put there. -/
theorem swiThenReturnResumes : Obligations.SwiThenReturnResumes := by
  intro comment s
  have hlr : s.takeInterrupt.opnd lrReg = s.pc + 4#32 := by
    rw [State.opnd_of_ne lrReg_ne_pcReg, State.readReg_lrReg_takeInterrupt]
  refine ⟨s.takeInterrupt, s.takeInterrupt.returnTo (s.pc + 4#32), exec_swi rfl comment, ?_, State.pc_returnTo _ _,
    (State.status_returnTo _ _).trans s.savedStatus_takeInterrupt, fun j hpc hj => ?_, rfl, rfl, rfl, rfl⟩
  · rw [exec_movs_pc rfl, hlr]
  · rw [State.readReg_returnTo_of_ne _ _ j hpc]
    exact s.sameRegs_takeInterrupt j hpc hj

end Sys2Proof.Machine
end

section
/-! SUPPORT. The driver (45_driver R200 to R209). A step outside `Running` changes nothing, one in `Running` ends the run at the fetch or is
the fetched instruction's; each of these answers a next state, and where it ends the run it changes the run state alone. -/

namespace Sys2Proof.Machine

variable {i : Instr} {s t : State}

/-! ### The end of a run (45_driver R205, R206) -/

/-- An instruction ends the run only by an Unsupported outcome or a fault: a skipped one keeps the run state. -/
theorem exec_ends (he : exec i s = .next t) (hne : t.runState ≠ s.runState) :
    (∃ r, t = s.raiseUnsupported r) ∨ ∃ f, t = s.raiseFault f := by
  rcases exec_cases he with ⟨-, e⟩ | ⟨-, rfl⟩
  · exact e.ends hne
  · exact absurd rfl hne

/-- A step ends the run as its instruction does, or at the fetch by a fault or by halting (45_driver R201). -/
theorem step_ends (hstep : step s = .next t) (hne : t.runState ≠ s.runState) :
    (∃ r, t = s.raiseUnsupported r) ∨ (∃ f, t = s.raiseFault f) ∨ t = s.halt := by
  rcases step_cases hstep with rfl | ⟨-, rfl⟩ | ⟨-, rfl⟩ | ⟨-, w, -, he⟩
  · exact absurd rfl hne
  · exact .inr (.inl ⟨_, rfl⟩)
  · exact .inr (.inr rfl)
  · rcases exec_ends he hne with hu | hf
    · exact .inl hu
    · exact .inr (.inl hf)

/-- Settles O44: each way to end a run sets the run state and nothing else. -/
theorem faultsAndUnsupportedArePrecise : Obligations.FaultsAndUnsupportedArePrecise := by
  refine ⟨fun i s t he hne => ?_, fun s t hstep hne => ?_⟩
  · rcases exec_ends he hne with ⟨r, rfl⟩ | ⟨f, rfl⟩
    · exact ⟨rfl, .inr ⟨r, rfl⟩⟩
    · exact ⟨rfl, .inl ⟨f, rfl⟩⟩
  · rcases step_ends hstep hne with ⟨r, rfl⟩ | ⟨f, rfl⟩ | rfl
    · exact ⟨rfl, .inr (.inl ⟨r, rfl⟩)⟩
    · exact ⟨rfl, .inl ⟨f, rfl⟩⟩
    · exact ⟨rfl, .inr (.inr rfl)⟩

/-! ### Skipped and Unsupported instructions (45_driver R203, R205) -/

/-- Settles O10: a skipped instruction of any row answers the advanced state. -/
theorem skippedInstructionOnlyAdvances : Obligations.SkippedInstructionOnlyAdvances := fun _ s hskip =>
  ⟨s.advance, exec_of_not_holds hskip, s.advance_frame⟩

/-- Settles O7: the executor of each of the eight rows raises the row's reason. -/
theorem unsupportedFormsComplete : Obligations.UnsupportedFormsComplete := by
  intro c s hc
  and_intros <;> intros <;> exact exec_of_holds hc

/-! ### The step (45_driver R201, R207, R209) -/

/-- Only `Running` steps (45_driver R201; log entry 3). -/
theorem step_of_not_running (hr : s.runState ≠ .running) : step s = .next s := by
  cases h : s.runState with
  | running => exact absurd h hr
  | loading | halted | faulted | unsupported => simp only [step, h]

/-- `run()` acts in `Loading` only (70_reset_and_hazards R253). -/
theorem hostRun_of_not_loading (hl : s.runState ≠ .loading) : s.hostRun = s := by
  cases h : s.runState with
  | loading => exact absurd h hl
  | running | halted | faulted | unsupported => simp only [State.hostRun, h]

/-- A step stays, faults at a misaligned pc, halts past the loaded words, or is the fetched instruction's, which answers a next state. -/
theorem exists_step_eq_next (s : State) : ∃ t, step s = .next t := by
  by_cases hr : s.runState = .running
  · by_cases ha : s.pc.toNat % 4 = 0
    · cases hw : s.store[s.pc.toNat / 4]? with
      | none => exact ⟨_, step_exhausted hr ha (List.getElem?_eq_none_iff.1 hw)⟩
      | some w => exact ⟨_, (step_word hr ha hw).trans (exec_eq (decode w) s)⟩
    · exact ⟨_, step_misaligned hr ha⟩
  · exact ⟨s, step_of_not_running hr⟩

/-- Settles O43: the step answers a next state, and the step is a function. -/
theorem everyStepHasANextState : Obligations.EveryStepHasANextState := by
  intro s
  obtain ⟨t, ht⟩ := exists_step_eq_next s
  exact ⟨t, ht, fun u hu => Host.Outcome.next.inj (hu.symm.trans ht)⟩

/-- Settles O40: the fetch checks the alignment first, then the index. -/
theorem fetchFaultsOrHalts : Obligations.FetchFaultsOrHalts := by
  intro s hr
  exact ⟨fun ha => step_misaligned hr (mt (lowTwo_eq_zero_iff s.pc).2 ha),
    fun ha hcount => step_exhausted hr ((lowTwo_eq_zero_iff s.pc).1 ha) hcount⟩

/-- Settles O41: the fetch finds the word, and the step is the word's instruction. -/
theorem stepRunsTheDecodedInstruction : Obligations.StepRunsTheDecodedInstruction := by
  rintro s w i hr ha hw rfl -
  exact step_word hr ha hw

/-- Settles O42: a terminal state is neither `Running` nor `Loading`. -/
theorem terminalStatesStay : Obligations.TerminalStatesStay := by
  intro s hterminal
  have hne : s.runState ≠ .running ∧ s.runState ≠ .loading := by
    rcases hterminal with h | ⟨f, h⟩ | ⟨r, h⟩ <;> simp [h]
  obtain ⟨hr, hl⟩ := hne
  exact ⟨step_of_not_running hr, hostRun_of_not_loading hl⟩

end Sys2Proof.Machine
end

section
/-! SUPPORT. The status register of the exception model (60_exceptions R226, R232): the two returns to R14, F and M clear in every reachable
state, and instructions that decide by N, Z, C and V alone. -/

namespace Sys2Proof.Machine

variable {s t : State} {x y : Byte}

/-! ### The return to R14 (60_exceptions R226) -/

/-- MOV PC, Rm under a condition that holds goes to `opnd(Rm)` and leaves Status (41_alu R124, R153). -/
theorem exec_mov_pc {c : Cond} (hc : condHolds c s.status = true) (rn rm : Reg) :
    exec (.movReg c false rn pcReg rm) s = .next (s.setPc (s.opnd rm)) :=
  exec_of_holds hc

/-- Settles O38: the words are MOVS PC, LR and MOV PC, LR under AL, which read R14 as it stands. -/
theorem movsPcLrReturns : Obligations.MovsPcLrReturns := by
  intro s
  have hmovs : decode 0xE1B0F00E#32 = .movReg .al true 0#4 pcReg lrReg := by decide
  have hmov : decode 0xE1A0F00E#32 = .movReg .al false 0#4 pcReg lrReg := by decide
  rw [hmovs, hmov, exec_movs_pc rfl, exec_mov_pc rfl, State.opnd_of_ne lrReg_ne_pcReg]
  exact ⟨rfl, rfl⟩

/-! ### F and M are clear in every reachable state (60_exceptions R232) -/

/-- A load appends a word within the capacity, or changes the run state alone (70_reset_and_hazards R252). -/
theorem inv_hostLoad (h : Inv s) (w : Word) : Inv (s.hostLoad w) := by
  cases hr : s.runState with
  | loading =>
    obtain ⟨hlegal, hcount, hmem⟩ := h
    by_cases hfull : s.count = s.cfg.storeCapacity
    · simp only [State.hostLoad, hr, if_pos hfull]
      exact inv_setRun ⟨hlegal, hcount, hmem⟩ _
    · rw [hostLoad_of_room hr (hcount.lt_of_ne hfull)]
      refine ⟨hlegal, ?_, hmem⟩
      simp only [State.count, List.length_append, List.length_singleton] at hcount hfull ⊢
      omega
  | faulted => simpa only [State.hostLoad, hr] using h
  | running | halted | unsupported =>
    simp only [State.hostLoad, hr]
    exact inv_setRun h _

/-- `run()` changes the run state alone (70_reset_and_hazards R253). -/
theorem inv_hostRun (h : Inv s) : Inv s.hostRun := by
  unfold State.hostRun
  split
  · exact inv_setRun h _
  all_goals exact h

theorem Reachable.inv (h : Reachable s) : Inv s := by
  induction h with
  | create cfg hlegal => exact inv_create hlegal
  | load s w _ ih => exact inv_hostLoad ih w
  | run s _ ih => exact inv_hostRun ih
  | step s t _ hstep ih => exact stepKeepsTheInvariant s t ih hstep

/-! ### N, Z, C and V lie in the high nibble of Status (10_state R24) -/

theorem highNibble_eq_iff : x.extractLsb' 4 4 = y.extractLsb' 4 4 ↔ flagIsSet .N x = flagIsSet .N y ∧
    flagIsSet .Z x = flagIsSet .Z y ∧ flagIsSet .C x = flagIsSet .C y ∧ flagIsSet .V x = flagIsSet .V y := by
  constructor
  · intro h
    have hbit (k : Nat) (hk : k < 4) : x.getLsbD (4 + k) = y.getLsbD (4 + k) := by
      simpa [hk] using congrArg (fun z : BitVec 4 => z.getLsbD k) h
    exact ⟨hbit 3 (by decide), hbit 2 (by decide), hbit 1 (by decide), hbit 0 (by decide)⟩
  · rintro ⟨hn, hz, hc, hv⟩
    apply BitVec.eq_of_getLsbD_eq
    intro k hk
    interval_cases k
    · simpa [flagIsSet, Flag.bit] using hv
    · simpa [flagIsSet, Flag.bit] using hc
    · simpa [flagIsSet, Flag.bit] using hz
    · simpa [flagIsSet, Flag.bit] using hn

/-- A condition is evaluated on N, Z, C and V alone (40_condition R101 to R116). -/
theorem condHolds_of_highNibble (h : x.extractLsb' 4 4 = y.extractLsb' 4 4) (c : Cond) : condHolds c x = condHolds c y := by
  obtain ⟨hn, hz, hc, hv⟩ := highNibble_eq_iff.1 h
  simp only [condHolds, hn, hz, hc, hv]

/-- The N, Z, C and V an operation with S = 1 leaves come from its result and from the N, Z, C and V before it. -/
theorem highNibble_statusAfter (h : x.extractLsb' 4 4 = y.extractLsb' 4 4) (r : AluResult) :
    (r.statusAfter x).extractLsb' 4 4 = (r.statusAfter y).extractLsb' 4 4 := by
  obtain ⟨-, -, hc, hv⟩ := highNibble_eq_iff.1 h
  simp [highNibble_eq_iff, hc, hv]

/-- The interrupt leaves N, Z, C and V (44_interrupt R190). -/
theorem State.highNibble_takeInterrupt (s : State) : s.takeInterrupt.status.extractLsb' 4 4 = s.status.extractLsb' 4 4 :=
  highNibble_eq_iff.2 ⟨s.getLsbD_status_takeInterrupt (by decide), s.getLsbD_status_takeInterrupt (by decide),
    s.getLsbD_status_takeInterrupt (by decide), s.getLsbD_status_takeInterrupt (by decide)⟩

theorem State.carryIn_setStatus (h : x.extractLsb' 4 4 = s.status.extractLsb' 4 4) : (s.setStatus x).carryIn = s.carryIn := by
  obtain ⟨-, -, hc, -⟩ := highNibble_eq_iff.1 h
  exact hc

/-! ### What the low nibble of Status does not decide (60_exceptions R232) -/

/-- `u` has the registers, the data memory, the run state and the N, Z, C and V of `t`. SavedStatus may differ: an SWI saves I, F and M. -/
def SameButLowNibble (t u : State) : Prop :=
  u.regs = t.regs ∧ u.dmem = t.dmem ∧ u.runState = t.runState ∧ u.status.extractLsb' 4 4 = t.status.extractLsb' 4 4

section
variable (h : x.extractLsb' 4 4 = s.status.extractLsb' 4 4)
include h

/-- A return takes its status from SavedStatus; any other ALU write keeps the nibble or sets flags from its result. -/
theorem aluWrite_setStatus (sf : Bool) (rd : Reg) (r : AluResult) :
    SameButLowNibble (aluWrite sf rd r s) (aluWrite sf rd r (s.setStatus x)) := by
  by_cases hrd : rd = pcReg
  · simp only [aluWrite, if_pos hrd]
    cases sf with
    | false => exact ⟨rfl, rfl, rfl, h⟩
    | true => exact ⟨rfl, rfl, rfl, rfl⟩
  · simp only [aluWrite, if_neg hrd]
    cases sf with
    | false => exact ⟨rfl, rfl, rfl, h⟩
    | true => exact ⟨rfl, rfl, rfl, highNibble_statusAfter h r⟩

theorem aluTest_setStatus (sf : Bool) (r : AluResult) :
    SameButLowNibble (aluTest sf r s) (aluTest sf r (s.setStatus x)) := by
  cases sf with
  | false => exact ⟨rfl, rfl, rfl, h⟩
  | true => exact ⟨rfl, rfl, rfl, highNibble_statusAfter h r⟩

theorem loadAccess_setStatus (p u w : Bool) (rn rd : Reg) (o : OffsetForm) :
    SameButLowNibble (loadAccess p u w rn rd o s) (loadAccess p u w rn rd o (s.setStatus x)) := by
  by_cases hrd : rd = pcReg
  · simp only [loadAccess, State.writeBack, if_pos hrd]
    cases writesBack p w <;> exact ⟨rfl, rfl, rfl, h⟩
  · simp only [loadAccess, State.writeBack, if_neg hrd]
    cases writesBack p w <;> exact ⟨rfl, rfl, rfl, h⟩

theorem storeAccess_setStatus (p u w : Bool) (rn rd : Reg) (o : OffsetForm) :
    SameButLowNibble (storeAccess p u w rn rd o s) (storeAccess p u w rn rd o (s.setStatus x)) := by
  unfold storeAccess State.writeBack
  cases writesBack p w <;> exact ⟨rfl, rfl, rfl, h⟩

/-- The checks of a transfer read no Status. -/
theorem transfer_setStatus (p u w : Bool) (rn rd : Reg) (o : OffsetForm) {a b : State} (hab : SameButLowNibble a b) :
    SameButLowNibble (transfer p u w rn rd o a s) (transfer p u w rn rd o b (s.setStatus x)) := by
  have haddr : accessAddress p u rn o (s.setStatus x) = accessAddress p u rn o s := rfl
  simp only [transfer, haddr, State.cfg_setStatus]
  split
  · exact ⟨rfl, rfl, rfl, h⟩
  · split
    · exact ⟨rfl, rfl, rfl, h⟩
    · exact hab

/-- The interrupt sets I, whatever it was. -/
theorem takeInterrupt_setStatus : SameButLowNibble s.takeInterrupt (s.setStatus x).takeInterrupt :=
  ⟨rfl, rfl, rfl, (s.setStatus x).highNibble_takeInterrupt.trans (h.trans s.highNibble_takeInterrupt.symm)⟩

/-- No executor decides by I, F or M: of Status they read C, as the carry in. -/
theorem executed_setStatus (i : Instr) : SameButLowNibble (executed i s) (executed i (s.setStatus x)) := by
  cases i with
  | andImm | andReg | eorImm | eorReg | subImm | subReg | rsbImm | rsbReg | addImm | addReg | orrImm | orrReg | movImm | movReg
  | bicImm | bicReg | mvnImm | mvnReg => exact aluWrite_setStatus h _ _ _
  | adcImm | adcReg | sbcImm | sbcReg | rscImm | rscReg =>
    simp only [executed, State.carryIn_setStatus h]
    exact aluWrite_setStatus h _ _ _
  | tstImm | tstReg | teqImm | teqReg | cmpImm | cmpReg | cmnImm | cmnReg => exact aluTest_setStatus h _ _
  | ldrImm | ldrReg => exact transfer_setStatus h _ _ _ _ _ _ (loadAccess_setStatus h _ _ _ _ _ _)
  | strImm | strReg => exact transfer_setStatus h _ _ _ _ _ _ (storeAccess_setStatus h _ _ _ _ _ _)
  | swi => exact takeInterrupt_setStatus h
  | b | bl | shiftedRegisterAlu | byteTransfer | translatedTransfer | writebackConflict | shiftedRegisterTransfer | pcOffsetRegister
  | blockTransfer | coprocessor => exact ⟨rfl, rfl, rfl, h⟩

theorem exec_setStatus {i : Instr} (he : exec i s = .next t) :
    ∃ u, exec i (s.setStatus x) = .next u ∧ SameButLowNibble t u := by
  have hcond : condHolds i.cond (s.setStatus x).status = condHolds i.cond s.status := condHolds_of_highNibble h i.cond
  rcases exec_eq_next he with ⟨hc, rfl⟩ | ⟨hc, rfl⟩
  · exact ⟨_, exec_of_holds (hcond.trans hc), executed_setStatus h i⟩
  · exact ⟨_, exec_of_not_holds (hcond.trans hc), rfl, rfl, rfl, h⟩

end

/-- Settles O53: a reachable state meets `Inv`; neither a condition nor an executor decides by the low nibble. -/
theorem reachableStatesKeepFAndMClear : Obligations.ReachableStatesKeepFAndMClear := by
  refine ⟨fun s hs => ?_, fun i s t x he h => exec_setStatus h he⟩
  obtain ⟨-, -, -, -, hclear⟩ := hs.inv
  exact hclear

end Sys2Proof.Machine
end

section
/-! SUPPORT. The host calls (70_reset_and_hazards R251 to R253): what `load` does in each run state, what `run()` does in `Loading`, and
where the first step of a run fetches. -/

namespace Sys2Proof.Machine

variable {s : State}

/-! ### The branches of `load` (70_reset_and_hazards R252) -/

/-- A fault keeps its first code (45_driver R209). -/
theorem hostLoad_of_faulted {f : Fault} (hr : s.runState = .faulted f) (w : Word) : s.hostLoad w = s := by
  simp only [State.hostLoad, hr]

theorem hostLoad_of_begun (hr : s.runState = .running ∨ s.runState = .halted ∨ ∃ r, s.runState = .unsupported r) (w : Word) :
    s.hostLoad w = s.raiseFault .loadAfterRun := by
  rcases hr with hr | hr | ⟨r, hr⟩ <;> simp only [State.hostLoad, hr]

theorem hostLoad_of_full (hl : s.runState = .loading) (hfull : s.count = s.cfg.storeCapacity) (w : Word) :
    s.hostLoad w = s.raiseFault .storeOverflow := by
  simp only [State.hostLoad, hl, if_pos hfull]

/-- `load` tests for equality with the capacity, so this also speaks of states outside `Inv` (`hostLoad_of_room` asks for room). -/
theorem hostLoad_of_not_full (hl : s.runState = .loading) (hne : s.count ≠ s.cfg.storeCapacity) (w : Word) :
    s.hostLoad w = { s with store := s.store ++ [w] } := by
  simp only [State.hostLoad, hl, if_neg hne]

/-- Settles O55: one lemma for each branch of `load`; an appended word stands at index `count`, behind the words before it. -/
theorem loadAppendsOrFaults : Obligations.LoadAppendsOrFaults := by
  intro s w
  refine ⟨fun ⟨f, hf⟩ => ⟨hostLoad_of_faulted hf w, hostRun_of_not_loading (by simp [hf])⟩,
    fun hr => hostLoad_of_begun hr w, fun hl hfull => hostLoad_of_full hl hfull w, fun hl hne => ?_⟩
  rw [hostLoad_of_not_full hl hne]
  exact ⟨List.length_append, List.getElem?_concat_length, fun k hk => List.getElem?_append_left hk, rfl⟩

/-! ### The start of a run (70_reset_and_hazards R251, R253) -/

theorem hostRun_of_loading (hl : s.runState = .loading) : s.hostRun = s.setRun .running := by
  simp only [State.hostRun, hl]

/-- Settles O56: `run()` by the run state it meets. -/
theorem runEntersRunningOnce : Obligations.RunEntersRunningOnce := fun _ =>
  ⟨hostRun_of_loading, hostRun_of_not_loading⟩

/-- Settles O52: an appended word fits in the store, and every other call changes at most the run state. -/
theorem hostCallsKeepTheInvariant : Obligations.HostCallsKeepTheInvariant := fun _ w h =>
  ⟨inv_hostLoad h w, inv_hostRun h⟩

/-- `run()` on a loaded program changes nothing of the created state but the store and the run state. -/
theorem hostRun_hostLoadAll_create {cfg : Config} {ws : List Word} (hfit : ws.length ≤ cfg.storeCapacity) :
    ((State.create cfg).hostLoadAll ws).hostRun = { State.create cfg with store := ws, runState := .running } := by
  rw [loadedProgramStandsInOrder cfg ws hfit]
  exact hostRun_of_loading rfl

/-- Settles O58: the pc is 0, so the first step fetches at index 0, where the program's first word stands or the store has ended. -/
theorem runStartsAtTheFirstWord : Obligations.RunStartsAtTheFirstWord := by
  intro cfg ws s hfit hs
  rw [hostRun_hostLoadAll_create hfit] at hs
  have hrun : s.runState = .running := by rw [hs]
  have hstore : s.store = ws := by rw [hs]
  have hstatus : s.status = 0#8 := by rw [hs]; rfl
  have hpc : s.pc = 0#32 := by rw [hs]; exact State.pc_create cfg
  have haligned : s.pc.toNat % 4 = 0 := by rw [hpc]; rfl
  have hindex : s.pc.toNat / 4 = 0 := by rw [hpc]; rfl
  refine ⟨hpc, ?_, ?_, ?_, ?_⟩
  · rw [hstatus]; rfl
  · rw [hstatus]; rfl
  · rintro w rest rfl
    exact step_word hrun haligned (by rw [hstore, hindex]; rfl)
  · rintro rfl
    exact step_exhausted hrun haligned (by rw [hstore, hindex]; rfl)

end Sys2Proof.Machine
end
